-- ==== Sys2Proof/Word.lean ====
section
/-! DEFINITION. The word types of the sequencer and their plainest arithmetic (00_scope.md R9). -/

namespace Sys2Proof

/-- A byte, as a byte-wide transport of command words carries it (20_memory.md R64). -/
abbrev Byte := BitVec 8

/-- A command or response word (30_encoding.md R80, R90). -/
abbrev Word := BitVec 16

/-- A GPIO register word (20_memory.md R56). -/
abbrev RegWord := BitVec 32

/-- A pin number of the controlled port, 0 to 15 (00_scope.md R6, `NUM_PINS`). -/
abbrev Pin := Fin 16

/-- `1 << n` as a register word (00_scope.md R9). -/
def oneShl (n : Nat) : RegWord := BitVec.twoPow 32 n

end Sys2Proof
end

