-- ==== Sys2Proof/Syntax.lean ====
section
/-! DEFINITION. The commands of the sequencer with typed operands: one constructor per row of
spec/opcode_table.json. Raw codes stand in Decode.lean only. -/

namespace Sys2Proof

/-- The five logical signals (00_scope.md R6 `NUM_SIGNALS`, 30_encoding.md R84). -/
inductive Signal where
  | tck | tms | tdi | tdo | trst
  deriving DecidableEq, Repr, Inhabited

/-- The 16 IEEE 1149.1 states in the source's listing order (30_encoding.md R83, 41_tap_controller.md
R140). The constructor `reset` is Test-Logic-Reset, `idle` is Run-Test/Idle, and so on (00_scope.md R16). -/
inductive TapNode where
  | reset | idle
  | drScan | drCapture | drShift | drExit1 | drPause | drExit2 | drUpdate
  | irScan | irCapture | irShift | irExit1 | irPause | irExit2 | irUpdate
  deriving DecidableEq, Repr, Inhabited

/-- A value of `CUR_STATE`: the pseudo-state `Unknown` or one of the 16 states (10_state.md R22, R23). -/
inductive TapState where
  | unknown
  | node (n : TapNode)
  deriving DecidableEq, Repr, Inhabited

/-- The eight commands (00_scope.md R2, 30_encoding.md R81). The pin field of `DRV_CFG` stays an 8-bit
value, since every value of it executes (30_encoding.md R85). -/
inductive Instr where
  | drvInit
  | drvCfg (sig : Signal) (pin : BitVec 8)
  | drvSet (sig : Signal) (value : Bool)
  | drvGet (sig : Signal)
  | drvIsAlloc (sig : Signal)
  | tapInit
  | tapSetState (target : TapState)
  | tapGetState
  deriving DecidableEq, Repr, Inhabited

/-- Why the decoder gives a word no meaning (60_exceptions.md R202). -/
inductive RefuseReason where
  | reservedOpcode | reservedBits | badSignal | badState
  deriving DecidableEq, Repr, Inhabited

/-- Why a `DRV_CFG` fails: a normal completion with response 0 (60_exceptions.md R200). -/
inductive CfgFailure where
  | pinOutOfRange | pinConflict
  deriving DecidableEq, Repr, Inhabited

/-- The five pseudo-instructions (30_encoding.md R93). -/
inductive Pseudo where
  | tapReset
  | tapResync
  | drvFree (sig : Signal)
  | drvHigh (sig : Signal)
  | drvLow (sig : Signal)
  deriving DecidableEq, Repr, Inhabited

end Sys2Proof
end

