-- ==== Sys2Proof/Config.lean ====
section
/-! DEFINITION. The OPEN parameters (00_scope.md R6) and the free values. A free value is an opaque
constant: nothing can evaluate it or prove a value of it. The parameters are plain data that a state
carries unchanged (notes/assumptions/5.md), so a statement quantifies over them. -/

namespace Sys2Proof

/-- The duration parameters a hold can name. `D_SETTLE` is one abstract duration and has no number
(00_scope.md R8, R13). -/
inductive HoldTime where
  | dSettle
  deriving DecidableEq, Repr, Inhabited

/-- `MODE[p]` (10_state.md R29). -/
inductive PinMode where
  | input | output | other
  deriving DecidableEq, Repr, Inhabited

/-- `OTYPE[p]` (10_state.md R29). -/
inductive PinOType where
  | pushPull | other
  deriving DecidableEq, Repr, Inhabited

/-- `SPEED[p]` (10_state.md R29). -/
inductive PinSpeed where
  | lowest | other
  deriving DecidableEq, Repr, Inhabited

/-- `PULL[p]` (10_state.md R29). -/
inductive PinPull where
  | disabled | other
  deriving DecidableEq, Repr, Inhabited

/-- The four configuration fields of a pin (10_state.md R29). -/
structure PinCfg where
  mode : PinMode
  otype : PinOType
  speed : PinSpeed
  pull : PinPull
  deriving DecidableEq, Repr, Inhabited

/-- A pin's configuration and its output latch `OUT[p]` (10_state.md R29, R30). -/
structure PinRegs where
  cfg : PinCfg
  out : Bool
  deriving DecidableEq, Repr, Inhabited

/-- `WIRING`: the pin each target terminal is wired to, or absent (20_memory.md R60). -/
structure Wiring where
  tck : Option Pin
  tms : Option Pin
  tdi : Option Pin
  tdo : Option Pin
  trst : Option Pin
  deriving DecidableEq, Repr, Inhabited

/-- `GPIO_REG_ADDR`, with the address of `GPIO_CLKEN_REG` (20_memory.md R50, R66). No rule uses one. -/
structure RegAddrs where
  config : Nat
  setReset : Nat
  input : Nat
  clken : Nat
  deriving DecidableEq, Repr, Inhabited

/-- The OPEN parameters of 00_scope.md R6 that have a value. -/
structure Params where
  regAddr : RegAddrs
  clkenBit : Fin 32
  wiring : Wiring
  targetHasTrst : Bool
  tmsSetupMet : Bool
  tckLowMet : Bool
  trstRecoveryMet : Bool
  deriving DecidableEq, Repr, Inhabited

/-- The parameters of the machine at power-on. DESIGN CHOICE (notes/assumptions/5.md). -/
opaque Config.params : Params

/-- The registers of a pin at power-on: any value, `Other` among them (10_state.md R35,
93_implementation_defined.md I2). DESIGN CHOICE (notes/assumptions/2.md). -/
opaque Config.powerOnPin : Pin → PinRegs

/-- The clock-enable register at power-on (93_implementation_defined.md I2, I14). DESIGN CHOICE
(notes/assumptions/3.md). -/
opaque Config.powerOnClkenReg : RegWord

/-- `PHYS` at power-on: any of the 16 states (10_state.md R33, 93_implementation_defined.md I6). DESIGN
CHOICE (notes/assumptions/4.md). -/
opaque Config.powerOnNode : TapNode

/-- The level the target last saw on a terminal at power-on. DESIGN CHOICE (notes/assumptions/4.md). -/
opaque Config.powerOnLevel : Signal → Bool

/-- `INPUT_ORACLE`: the n-th value drawn for the input register (20_memory.md R53,
notes/assumptions/7.md). -/
opaque Config.inputOracle : Nat → RegWord

/-- The level of an undriven or unspecified wire at the n-th draw (20_memory.md R58, R59,
notes/assumptions/8.md). -/
opaque Config.wireOracle : Nat → Bool

/-- How many further times the target samples a floating wire before the next event (20_memory.md R59,
notes/assumptions/8.md). -/
opaque Config.extraSamples : Nat → Nat

/-- The state a target takes whose timing a TCK edge did not meet (93_implementation_defined.md I7,
notes/assumptions/9.md). -/
opaque Config.freeNode : Nat → TapNode

/-- The clock-enable register as other code may have left it (20_memory.md R55,
93_implementation_defined.md I14, notes/assumptions/10.md). -/
opaque Config.otherClkenBits : Nat → RegWord

/-- `OUT[p]` after a set/reset write with both bits of pin `p` set (20_memory.md R52,
93_implementation_defined.md I4, notes/assumptions/15.md). -/
opaque Config.clashLevel : Nat → Pin → Bool

end Sys2Proof
end

