-- ==== Sys2Proof/Machine/State.lean ====
section
/-! DEFINITION. The state of the machine as plain data, the reasons a step can stop, and power-on. -/

namespace Sys2Proof.Machine

/-- Why a command faults (60_exceptions.md R203). A fault ends the run: the mark is never cleared. -/
inductive Fault where
  /-- Raised by `DRV_CFG`, `DRV_SET`, `DRV_GET`, `DRV_ISALLOC` before any `DRV_INIT`, and by a
  `TAP_SETSTATE` that would read `ALLOC` then (R203, code 32). Safe: the spec names it. -/
  | uninitDriver
  /-- Raised by `TAP_SETSTATE` and `TAP_GETSTATE` before any `TAP_INIT` (R203, code 33). Safe: the spec
  names it. -/
  | uninitTap
  /-- Raised by `TAP_SETSTATE` if a walk called `NEXT` outside its domain or ran past its longest length
  (93_implementation_defined.md I12). No run does (41_tap_controller.md R145, R154). Safe. -/
  | nextUndefined
  deriving DecidableEq, Repr

/-- Why a word is refused (60_exceptions.md R202). A refusal ends the run: the mark stays. -/
inductive Refusal where
  /-- Raised by an arm of `exec` that has no meaning yet; no arm is so now. Safe. -/
  | notModelled (mnemonic : String)
  /-- Raised by `step` on a word with an unassigned opcode (R202, code 16). Safe: the spec names it. -/
  | reservedOpcode
  /-- Raised by `step` on a word with a non-zero reserved bit (R202, code 17). Safe: the spec names it. -/
  | reservedBits
  /-- Raised by `step` on a driver word with a signal code from 5 to 15 (R202, code 18). Safe: the spec
  names it. -/
  | badSignal
  /-- Raised by `step` on a `TAP_SETSTATE` word with a state code from 17 to 31 (R202, code 19). Safe: the
  spec names it. -/
  | badState
  deriving DecidableEq, Repr

/-- The registers of the GPIO register space (20_memory.md R50). -/
inductive GpioReg where
  | config | setReset | input | clken
  deriving DecidableEq, Repr

/-- One event of the trace (00_scope.md R13): `W(reg, v)`, `R(reg, v)`, `C(p, mode, otype, speed, pull)`
and `Hold(d)`. -/
inductive Event where
  | write (reg : GpioReg) (value : RegWord)
  | read (reg : GpioReg) (value : RegWord)
  | config (pin : Pin) (cfg : PinCfg)
  | hold (duration : HoldTime)
  deriving DecidableEq, Repr

/-- `ALLOC` (10_state.md R24): `some p` is pin `p`, `none` is `NOT_ALLOCATED`. -/
structure AllocTable where
  tck : Option Pin
  tms : Option Pin
  tdi : Option Pin
  tdo : Option Pin
  trst : Option Pin
  deriving DecidableEq, Repr

/-- What a completed command gives back: the response word the caller gets (30_encoding.md R90), and the
failure reason it does not get (60_exceptions.md R200). -/
structure Completion where
  response : Word
  failure : Option CfgFailure
  deriving DecidableEq, Repr

/-- The target TAP (10_state.md R33, 20_memory.md R62): its state, the levels it last saw, whether TMS changed or
TCK fell since the last hold (70_reset_and_hazards.md R234, R235), whether TRST was released with no TCK edge
since (R238, 93_implementation_defined.md I7), and the model's count of free values drawn for it. -/
structure Target where
  phys : TapNode
  tckSeen : Bool
  tmsSeen : Bool
  trstSeen : Bool
  tmsFresh : Bool
  tckFresh : Bool
  afterRelease : Bool
  draws : Nat
  deriving DecidableEq, Repr

/-- The machine's state. INVENTORY.md lists each piece with its rule. -/
structure State where
  /-- the caller's command words not yet consumed, next first (10_state.md R21, 60_exceptions.md R207) -/
  port : List Word
  /-- the results given back, oldest first (30_encoding.md R90) -/
  completions : List Completion
  /-- `CUR_STATE`; none is "unwritten" (10_state.md R22, R35) -/
  curState : Option TapState
  /-- `ALLOC`; none is "unwritten" (10_state.md R24, R35) -/
  alloc : Option AllocTable
  /-- `PIN_USAGE`; none is "unwritten" (10_state.md R25, R35) -/
  pinUsage : Option (BitVec 16)
  /-- `MODE`, `OTYPE`, `SPEED`, `PULL` and `OUT` of the 16 pins (10_state.md R29, R30) -/
  pins : Vector PinRegs 16
  /-- `GPIO_CLKEN_REG`, with `CLKEN` at bit `GPIO_CLKEN_BIT` (10_state.md R31) -/
  clkenReg : RegWord
  /-- `EVENTS`, oldest first (00_scope.md R13) -/
  events : List Event
  /-- the target TAP with `PHYS` (10_state.md R33) -/
  target : Target
  /-- the OPEN parameters; no step writes them (00_scope.md R6) -/
  params : Params
  /-- the model's count of free values drawn at the port (notes/assumptions/7.md) -/
  draws : Nat
  deriving DecidableEq, Repr

/-- Power-on (10_state.md R35, 70_reset_and_hazards.md R221): `CUR_STATE`, `ALLOC` and `PIN_USAGE`
unwritten, the port's fields and `PHYS` any value, no command issued. -/
def State.reset : State where
  port := []
  completions := []
  curState := none
  alloc := none
  pinUsage := none
  pins := Vector.ofFn Config.powerOnPin
  clkenReg := Config.powerOnClkenReg
  events := []
  target :=
    { phys := Config.powerOnNode
      tckSeen := Config.powerOnLevel .tck
      tmsSeen := Config.powerOnLevel .tms
      trstSeen := Config.powerOnLevel .trst
      tmsFresh := true
      tckFresh := true
      afterRelease := false
      draws := 0 }
  params := Config.params
  draws := 0

end Sys2Proof.Machine
end

