-- ==== Sys2Proof/WellFormed.lean ====
section
/-! DEFINITION. Which command words are well formed, written from the field table of 30_encoding.md R82
and the value sets of R84, R85 and R87, apart from the decoder. An `Instr` needs no check of its own: its
operand types hold exactly the values those rules admit (notes/assumptions/22.md). -/

namespace Sys2Proof

/-- One row of the opcode map: the word agrees with `value` on the bits of `mask` (30_encoding.md R82,
spec/opcode_table.json). -/
structure OpRow where
  mnemonic : String
  value : Word
  mask : Word
  hasSignal : Bool
  hasState : Bool
  deriving DecidableEq, Repr

/-- The eight rows of spec/opcode_table.json. -/
def opRows : List OpRow :=
  [ ⟨"DRV_INIT",     0x1000, 0xFFFF, false, false⟩,
    ⟨"DRV_CFG",      0x2000, 0xF000, true,  false⟩,
    ⟨"DRV_SET",      0x3000, 0xF0FE, true,  false⟩,
    ⟨"DRV_GET",      0x4000, 0xF0FF, true,  false⟩,
    ⟨"DRV_ISALLOC",  0x5000, 0xF0FF, true,  false⟩,
    ⟨"TAP_INIT",     0x9000, 0xFFFF, false, false⟩,
    ⟨"TAP_SETSTATE", 0xA000, 0xFFE0, false, true⟩,
    ⟨"TAP_GETSTATE", 0xB000, 0xFFFF, false, false⟩ ]

/-- The word agrees with the row's fixed bits: its opcode and its reserved bits (30_encoding.md R82). -/
def OpRow.fixedBitsMatch (r : OpRow) (w : Word) : Bool := w &&& r.mask == r.value

/-- A driver word's signal code is 0 to 4 (30_encoding.md R84). -/
def OpRow.signalInRange (r : OpRow) (w : Word) : Bool :=
  !r.hasSignal || decide ((w.extractLsb' 8 4).toNat ≤ 4)

/-- A `TAP_SETSTATE` word's state code is 0 to 16 (30_encoding.md R87). -/
def OpRow.stateInRange (r : OpRow) (w : Word) : Bool :=
  !r.hasState || decide ((w.extractLsb' 0 5).toNat ≤ 16)

/-- The word carries a command: some row's fixed bits match and its operand values are in range. -/
def wellFormedWord (w : Word) : Bool :=
  opRows.any fun r => r.fixedBitsMatch w && r.signalInRange w && r.stateInRange w

end Sys2Proof
end

