-- ==== Sys2Proof/Decode.lean ====
section
/-! DEFINITION. The decoder, total on every word, refusing by name (30_encoding.md R88, R89), the encoder
(R80 to R87), the value codes, and the byte transport (20_memory.md R64). -/

namespace Sys2Proof

/-! ### Value codes -/

/-- The 4-bit code of a signal (30_encoding.md R84). -/
def Signal.code : Signal → BitVec 4
  | .tck => 0 | .tms => 1 | .tdi => 2 | .tdo => 3 | .trst => 4

/-- The signal of a 4-bit code; codes 5 to 15 are not signals (30_encoding.md R84). -/
def Signal.ofCode (c : BitVec 4) : Option Signal :=
  match c.toNat with
  | 0 => some .tck | 1 => some .tms | 2 => some .tdi | 3 => some .tdo | 4 => some .trst
  | _ => none

/-- The numeric state code, 1 to 16 (30_encoding.md R83). -/
def TapNode.code : TapNode → Nat
  | .reset => 1 | .idle => 2
  | .drScan => 3 | .drCapture => 4 | .drShift => 5 | .drExit1 => 6
  | .drPause => 7 | .drExit2 => 8 | .drUpdate => 9
  | .irScan => 10 | .irCapture => 11 | .irShift => 12 | .irExit1 => 13
  | .irPause => 14 | .irExit2 => 15 | .irUpdate => 16

/-- The 5-bit code of a value of `CUR_STATE` (30_encoding.md R83). -/
def TapState.code : TapState → BitVec 5
  | .unknown => 0
  | .node n => BitVec.ofNat 5 n.code

/-- The state of a 5-bit code; codes 17 to 31 are not states (30_encoding.md R83, R87). -/
def TapState.ofCode (c : BitVec 5) : Option TapState :=
  match c.toNat with
  | 0 => some .unknown
  | 1 => some (.node .reset)      | 2 => some (.node .idle)
  | 3 => some (.node .drScan)     | 4 => some (.node .drCapture)
  | 5 => some (.node .drShift)    | 6 => some (.node .drExit1)
  | 7 => some (.node .drPause)    | 8 => some (.node .drExit2)
  | 9 => some (.node .drUpdate)   | 10 => some (.node .irScan)
  | 11 => some (.node .irCapture) | 12 => some (.node .irShift)
  | 13 => some (.node .irExit1)   | 14 => some (.node .irPause)
  | 15 => some (.node .irExit2)   | 16 => some (.node .irUpdate)
  | _ => none

/-- The number a refusal carries in the spec (60_exceptions.md R202). -/
def RefuseReason.code : RefuseReason → Nat
  | .reservedOpcode => 16 | .reservedBits => 17 | .badSignal => 18 | .badState => 19

/-- The internal number of a `DRV_CFG` failure (60_exceptions.md R200). -/
def CfgFailure.code : CfgFailure → Nat
  | .pinOutOfRange => 1 | .pinConflict => 2

/-! ### The decoder -/

/-- What the decoder answers: exactly one command or one refusal (30_encoding.md R88). -/
inductive DecodeResult where
  | command (i : Instr)
  | refuse (r : RefuseReason)
  deriving DecidableEq, Repr

/-- `OP`, bits [15:12] (30_encoding.md R80). -/
def opField (w : Word) : BitVec 4 := w.extractLsb' 12 4

/-- `SIG`, bits [11:8] (30_encoding.md R80). -/
def sigField (w : Word) : BitVec 4 := w.extractLsb' 8 4

/-- `ARG`, bits [7:0] (30_encoding.md R80). -/
def argField (w : Word) : BitVec 8 := w.extractLsb' 0 8

/-- A command whose `SIG` and `ARG` must both be 0 (30_encoding.md R82). -/
def decodeBare (i : Instr) (sig : BitVec 4) (arg : BitVec 8) : DecodeResult :=
  if sig = 0 ∧ arg = 0 then .command i else .refuse .reservedBits

/-- `DRV_CFG`: any pin field (30_encoding.md R85). -/
def decodeDrvCfg (sig : BitVec 4) (arg : BitVec 8) : DecodeResult :=
  match Signal.ofCode sig with
  | some s => .command (.drvCfg s arg)
  | none => .refuse .badSignal

/-- `DRV_SET`: `ARG[7:1]` must be 0 (30_encoding.md R86). -/
def decodeDrvSet (sig : BitVec 4) (arg : BitVec 8) : DecodeResult :=
  match Signal.ofCode sig with
  | some s => if arg.extractLsb' 1 7 = 0 then .command (.drvSet s (arg.getLsbD 0)) else .refuse .reservedBits
  | none => .refuse .badSignal

/-- A driver command with only a signal operand: `ARG` must be 0 (30_encoding.md R82). -/
def decodeSignalOnly (mk : Signal → Instr) (sig : BitVec 4) (arg : BitVec 8) : DecodeResult :=
  match Signal.ofCode sig with
  | some s => if arg = 0 then .command (mk s) else .refuse .reservedBits
  | none => .refuse .badSignal

/-- `TAP_SETSTATE`: reserved bits are tested before the state code (30_encoding.md R88, 60_exceptions.md R204). -/
def decodeSetState (sig : BitVec 4) (arg : BitVec 8) : DecodeResult :=
  if sig ≠ 0 ∨ arg.extractLsb' 5 3 ≠ 0 then .refuse .reservedBits
  else match TapState.ofCode (arg.extractLsb' 0 5) with
    | some t => .command (.tapSetState t)
    | none => .refuse .badState

/-- The decoder by its three fields (30_encoding.md R88). -/
def decodeFields (op sig : BitVec 4) (arg : BitVec 8) : DecodeResult :=
  match op.toNat with
  | 0x1 => decodeBare .drvInit sig arg
  | 0x2 => decodeDrvCfg sig arg
  | 0x3 => decodeDrvSet sig arg
  | 0x4 => decodeSignalOnly .drvGet sig arg
  | 0x5 => decodeSignalOnly .drvIsAlloc sig arg
  | 0x9 => decodeBare .tapInit sig arg
  | 0xA => decodeSetState sig arg
  | 0xB => decodeBare .tapGetState sig arg
  | _ => .refuse .reservedOpcode

/-- The decoder (30_encoding.md R88). -/
def decode (w : Word) : DecodeResult := decodeFields (opField w) (sigField w) (argField w)

/-! ### The encoder -/

/-- A word of format CMD16 from its three fields (30_encoding.md R80). -/
def cmd16 (op sig : BitVec 4) (arg : BitVec 8) : Word := op ++ sig ++ arg

/-- The value field of `DRV_SET` (30_encoding.md R86). -/
def valueArg (v : Bool) : BitVec 8 := if v then 1 else 0

/-- The word of a command (30_encoding.md R81, R82). -/
def encode : Instr → Word
  | .drvInit => cmd16 0x1 0 0
  | .drvCfg s pin => cmd16 0x2 s.code pin
  | .drvSet s v => cmd16 0x3 s.code (valueArg v)
  | .drvGet s => cmd16 0x4 s.code 0
  | .drvIsAlloc s => cmd16 0x5 s.code 0
  | .tapInit => cmd16 0x9 0 0
  | .tapSetState t => cmd16 0xA 0 (t.code.setWidth 8)
  | .tapGetState => cmd16 0xB 0 0

/-- The command a pseudo-instruction stands for (30_encoding.md R93). -/
def Pseudo.expand : Pseudo → Instr
  | .tapReset => .tapSetState (.node .reset)
  | .tapResync => .tapSetState .unknown
  | .drvFree s => .drvCfg s 0xFF
  | .drvHigh s => .drvSet s true
  | .drvLow s => .drvSet s false

/-! ### The byte transport and the opcode table's numbering -/

/-- The two bytes of a word on a byte transport, low byte first (20_memory.md R64). -/
def bytesOfWord (w : Word) : List Byte := [w.extractLsb' 0 8, w.extractLsb' 8 8]

/-- The words a byte transport carries: each pair is a low byte and then a high byte. A last byte with no
partner is not yet a word (20_memory.md R64). -/
def wordsOfBytes : List Byte → List Word
  | lo :: hi :: rest => (hi ++ lo) :: wordsOfBytes rest
  | _ => []

/-- What a decoder behind a byte transport reads from the first two bytes, and the bytes left over; none
while fewer than two bytes have arrived. -/
def decodeBytes : List Byte → Option (DecodeResult × List Byte)
  | lo :: hi :: rest => some (decode (hi ++ lo), rest)
  | _ => none

/-- The instruction the decoder reads from a table word of `nbits` bits; bits above `nbits` are 0. Every
command is one 16-bit word (30_encoding.md R80), so a longer word is none. -/
def decodeTableWord (nbits w : Nat) : Option Instr :=
  if nbits ≤ 16 then
    match decodeBytes (bytesOfWord (BitVec.ofNat 16 (w % 2 ^ nbits))) with
    | some (.command i, _) => some i
    | _ => none
  else none

end Sys2Proof
end

