-- ==== Sys2Proof/Machine/TapGraph.lean ====
section
/-! DEFINITION. The TAP state graph: the full IEEE 1149.1 successor function (41_tap_controller.md R141) and
the sequencer's target-directed transition function (R142, R143). Pure functions: no state. -/

namespace Sys2Proof.Machine

/-- `IEEE_NEXT(state, tms)` (41_tap_controller.md R141). The five hold-in-place rows are the spec's general
knowledge (93_implementation_defined.md G1, notes/assumptions/17.md). -/
def ieeeNext : TapNode → Bool → TapNode
  | .reset,     false => .idle      | .reset,     true => .reset
  | .idle,      false => .idle      | .idle,      true => .drScan
  | .drScan,    false => .drCapture | .drScan,    true => .irScan
  | .drCapture, false => .drShift   | .drCapture, true => .drExit1
  | .drShift,   false => .drShift   | .drShift,   true => .drExit1
  | .drExit1,   false => .drPause   | .drExit1,   true => .drUpdate
  | .drPause,   false => .drPause   | .drPause,   true => .drExit2
  | .drExit2,   false => .drShift   | .drExit2,   true => .drUpdate
  | .drUpdate,  false => .idle      | .drUpdate,  true => .drScan
  | .irScan,    false => .irCapture | .irScan,    true => .reset
  | .irCapture, false => .irShift   | .irCapture, true => .irExit1
  | .irShift,   false => .irShift   | .irShift,   true => .irExit1
  | .irExit1,   false => .irPause   | .irExit1,   true => .irUpdate
  | .irPause,   false => .irPause   | .irPause,   true => .irExit2
  | .irExit2,   false => .irShift   | .irExit2,   true => .irUpdate
  | .irUpdate,  false => .idle      | .irUpdate,  true => .drScan

/-- `code(lo) <= code(t) <= code(hi)` (41_tap_controller.md R143). -/
def inCodeRange (lo hi t : TapNode) : Bool := decide (lo.code ≤ t.code) && decide (t.code ≤ hi.code)

/-- The rows of 41_tap_controller.md R142, as R143 writes them. -/
def nextRow (c t : TapNode) : Bool × TapNode :=
  match c with
  | .reset => (false, .idle)
  | .idle => (true, .drScan)
  | .drScan => if inCodeRange .drCapture .drUpdate t then (false, .drCapture) else (true, .irScan)
  | .drCapture => if t = .drShift then (false, .drShift) else (true, .drExit1)
  | .drShift => (true, .drExit1)
  | .drExit1 => if t = .drPause ∨ t = .drExit2 ∨ t = .drShift then (false, .drPause) else (true, .drUpdate)
  | .drPause => (true, .drExit2)
  | .drExit2 => if t = .drPause ∨ t = .drExit1 ∨ t = .drShift then (false, .drShift) else (true, .drUpdate)
  | .drUpdate => if t = .idle then (false, .idle) else (true, .drScan)
  | .irScan => if inCodeRange .irCapture .irUpdate t then (false, .irCapture) else (true, .reset)
  | .irCapture => if t = .irShift then (false, .irShift) else (true, .irExit1)
  | .irShift => (true, .irExit1)
  | .irExit1 => if t = .irPause ∨ t = .irExit2 ∨ t = .irShift then (false, .irPause) else (true, .irUpdate)
  | .irPause => (true, .irExit2)
  | .irExit2 => if t = .irPause ∨ t = .irExit1 ∨ t = .irShift then (false, .irShift) else (true, .irUpdate)
  | .irUpdate => if t = .idle then (false, .idle) else (true, .drScan)

/-- `NEXT(current, target) → (tms, next)`: undefined when `target = current`, and on `Unknown`
(41_tap_controller.md R142, R145). -/
def next : TapState → TapState → Option (Bool × TapNode)
  | .node c, .node t => if t = c then none else some (nextRow c t)
  | .unknown, _ => none
  | .node _, .unknown => none

end Sys2Proof.Machine
end

