-- ==== Sys2Proof/Machine/Flags.lean ====
section
/-! DEFINITION. The block has no flags: Boolean results go back in the response word (10_state.md R21). This
file holds the response words of 30_encoding.md R90. -/

namespace Sys2Proof.Machine

/-- A Boolean result in bit 0, every other bit 0 (30_encoding.md R90). -/
def boolWord (b : Bool) : Word := if b then 1 else 0

/-- A state code in bits [4:0], every other bit 0 (30_encoding.md R90). -/
def stateWord (t : TapState) : Word := t.code.setWidth 16

/-- A command that completes with no failure reason (30_encoding.md R90). -/
def plainCompletion (w : Word) : Completion := ⟨w, none⟩

/-- `DRV_CFG`'s completion: 1 on success, 0 on failure; the reason stays inside (30_encoding.md R90,
60_exceptions.md R200). -/
def cfgCompletion (failure : Option CfgFailure) : Completion := ⟨boolWord failure.isNone, failure⟩

end Sys2Proof.Machine
end

