-- ==== Sys2Proof/Machine/Operands.lean ====
section
/-! DEFINITION. The operand forms: the class of a signal, the pin field of `DRV_CFG`, the entries of the
allocation table, the set/reset words, and the configurations the block writes. -/

namespace Sys2Proof.Machine

/-- Output-capable: TCK, TMS, TDI, TRST. Input-only: TDO (00_scope.md R7). -/
def outputCapable : Signal → Bool
  | .tck => true | .tms => true | .tdi => true | .tdo => false | .trst => true

/-- What a pin field names (30_encoding.md R85). -/
inductive PinField where
  | notAllocated
  | pin (p : Pin)
  | outOfRange
  deriving DecidableEq, Repr

/-- 0xFF is `NOT_ALLOCATED`, 0x00 to 0x0F a pin, the rest out of range; the sentinel is tested first
(30_encoding.md R85, 90_conflicts.md C9). -/
def pinFieldOf (b : BitVec 8) : PinField :=
  if b = 0xFF then .notAllocated
  else if h : b.toNat < 16 then .pin ⟨b.toNat, h⟩
  else .outOfRange

/-- The 8-bit code of an `ALLOC` entry (10_state.md R24). -/
def allocCode : Option Pin → BitVec 8
  | some p => BitVec.ofNat 8 p.val
  | none => 0xFF

/-- `ALLOC[s]` (00_scope.md R10). -/
def AllocTable.get (a : AllocTable) : Signal → Option Pin
  | .tck => a.tck | .tms => a.tms | .tdi => a.tdi | .tdo => a.tdo | .trst => a.trst

/-- `ALLOC[s] <- e` (00_scope.md R10). -/
def AllocTable.set (a : AllocTable) (s : Signal) (e : Option Pin) : AllocTable :=
  match s with
  | .tck => { a with tck := e }
  | .tms => { a with tms := e }
  | .tdi => { a with tdi := e }
  | .tdo => { a with tdo := e }
  | .trst => { a with trst := e }

/-- The table with every entry `NOT_ALLOCATED` (40_pin_driver.md R100). -/
def AllocTable.empty : AllocTable := ⟨none, none, none, none, none⟩

/-- The signals in listing order (30_encoding.md R84). -/
def allSignals : List Signal := [.tck, .tms, .tdi, .tdo, .trst]

/-- `owner(p)`: the signal whose entry is `p`, or none (00_scope.md R14). -/
def AllocTable.owner (a : AllocTable) (p : Pin) : Option Signal :=
  allSignals.find? fun s => a.get s == some p

/-- `1 << p`, which drives pin `p` high (20_memory.md R52). -/
def setBit (p : Pin) : RegWord := oneShl p.val

/-- `1 << (p+16)`, which drives pin `p` low (20_memory.md R52). -/
def resetBit (p : Pin) : RegWord := oneShl (p.val + 16)

/-- The set/reset word that drives pin `p` to a level (30_encoding.md R91). -/
def levelWord (p : Pin) (v : Bool) : RegWord := if v then setBit p else resetBit p

/-- "pull-disabled, push-pull, lowest-speed input mode" (40_pin_driver.md R100, R106). -/
def inputCfg : PinCfg := ⟨.input, .pushPull, .lowest, .disabled⟩

/-- "output (push-pull, lowest speed, pull disabled)" (40_pin_driver.md R105). -/
def outputCfg : PinCfg := ⟨.output, .pushPull, .lowest, .disabled⟩

end Sys2Proof.Machine
end

