-- ==== Sys2Proof/Machine/Target.lean ====
section
/-! DEFINITION. The wires and the target TAP that reacts to them (20_memory.md R58 to R62,
70_reset_and_hazards.md R234, R235, R238). -/

namespace Sys2Proof.Machine

/-- What stands on a wire (20_memory.md R58). -/
inductive Wire where
  | driven (level : Bool)
  | undriven
  | unspecified
  deriving DecidableEq, Repr

/-- Whether the port drives the wire, so that its level is not a draw. -/
def Wire.isDriven : Wire → Bool
  | .driven _ => true
  | .undriven => false
  | .unspecified => false

/-- `wire(p)` of a pin's registers (20_memory.md R58). -/
def PinRegs.wire (r : PinRegs) : Wire :=
  match r.cfg.mode with
  | .output => .driven r.out
  | .input => .undriven
  | .other => .unspecified

/-- The wire of a target terminal; nothing of the port drives an absent one (20_memory.md R60,
notes/assumptions/25.md). -/
def terminalWire (b : Vector PinRegs 16) : Option Pin → Wire
  | some p => PinRegs.wire b[p.val]
  | none => .undriven

/-- The level the target sees on a wire; the k-th draw where the port does not drive it
(20_memory.md R59). -/
def levelSeen (w : Wire) (k : Nat) : Bool :=
  match w with
  | .driven level => level
  | .undriven => Config.wireOracle k
  | .unspecified => Config.wireOracle k

/-- Whether the target accepts a TCK edge: the first two premises are asked of TMS and TCK where they changed
since the last hold, the third of a target with TRST at the first edge after its release
(70_reset_and_hazards.md R234, R235, R238; 93_implementation_defined.md I7). -/
def timingMet (P : Params) (tmsFresh tckFresh afterRelease : Bool) : Bool :=
  (P.tmsSetupMet || !tmsFresh) && (P.tckLowMet || !tckFresh) &&
    (P.trstRecoveryMet || !(P.targetHasTrst && afterRelease))

/-- The reaction of 20_memory.md R62 to the levels the target now sees: held in `Reset` while TRST is 0,
and one transition on each rising edge of TCK. TRST is active low (R61). -/
def Target.sampleLevels (P : Params) (tck tms trst : Bool) (t : Target) : Target :=
  let tmsFresh := t.tmsFresh || (tms != t.tmsSeen)
  let tckFresh := t.tckFresh || (t.tckSeen && !tck)
  let afterRelease := t.afterRelease || (P.targetHasTrst && !t.trstSeen && trst)
  let rise := !t.tckSeen && tck
  { phys :=
      if P.targetHasTrst && !trst then .reset
      else if rise then
        if timingMet P tmsFresh tckFresh afterRelease then ieeeNext t.phys tms else Config.freeNode t.draws
      else t.phys
    tckSeen := tck
    tmsSeen := tms
    trstSeen := trst
    tmsFresh := tmsFresh
    tckFresh := tckFresh
    afterRelease := afterRelease && !rise
    draws := t.draws + 3 }

/-- One sample of the target's TCK, TMS and TRST terminals (20_memory.md R58, R59, R62). -/
def Target.sample (P : Params) (b : Vector PinRegs 16) (t : Target) : Target :=
  t.sampleLevels P (levelSeen (terminalWire b P.wiring.tck) t.draws)
    (levelSeen (terminalWire b P.wiring.tms) (t.draws + 1))
    (levelSeen (terminalWire b P.wiring.trst) (t.draws + 2))

/-- `n` samples in a row. -/
def Target.samples (P : Params) (b : Vector PinRegs 16) : Nat → Target → Target
  | 0, t => t
  | n + 1, t => (t.sample P b).samples P b n

/-- Whether the port drives TCK, and TRST if the target has it: then samples in a row see the same levels,
so only the first can move the target. -/
def steadyWires (P : Params) (b : Vector PinRegs 16) : Bool :=
  (terminalWire b P.wiring.tck).isDriven && (!P.targetHasTrst || (terminalWire b P.wiring.trst).isDriven)

/-- How often the target samples until the next event: once where its clock and reset wires are driven, and
one or more times where one floats (20_memory.md R59, notes/assumptions/8.md). -/
def sampleCount (P : Params) (b : Vector PinRegs 16) (t : Target) : Nat :=
  if steadyWires P b then 1 else Config.extraSamples t.draws + 1

/-- The target reacts to the wires as they now stand (20_memory.md R62). -/
def Target.observe (P : Params) (b : Vector PinRegs 16) (t : Target) : Target :=
  t.samples P b (sampleCount P b t)

/-- A hold separates the levels before it from those after it (00_scope.md R13), so neither TMS nor TCK counts
as just changed (notes/assumptions/9.md). The first edge after a release stays the first. -/
def Target.afterHold (t : Target) : Target :=
  { t with tmsFresh := false, tckFresh := false }

end Sys2Proof.Machine
end

