-- ==== Sys2Proof/Machine/Ops.lean ====
section
/-! DEFINITION. The shared operations: register accessors, the GPIO primitives with their events
(00_scope.md R10, R11, R13), the end of a command, and what happens between commands. The block has no trap
entry and no trap return (60_exceptions.md R206), so there is no exception operation. -/

namespace Sys2Proof.Machine

/-! ### Register accessors (00_scope.md R10) -/

/-- The registers of pin `p`. -/
def State.pin (s : State) (p : Pin) : PinRegs := s.pins[p.val]

/-- `ALLOC[sig]` once `ALLOC` is written; each command tests that before it reads (60_exceptions.md R203). -/
def State.pinOf (s : State) (sig : Signal) : Option Pin := s.alloc.bind fun a => a.get sig

/-- `ALLOC[sig] <- e`. -/
def State.setAlloc (s : State) (sig : Signal) (e : Option Pin) : State :=
  { s with alloc := s.alloc.map fun a => a.set sig e }

/-- `owner(p)` (00_scope.md R14). -/
def State.owner (s : State) (p : Pin) : Option Signal := s.alloc.bind fun a => a.owner p

/-- `PIN_USAGE[p]`. -/
def State.used (s : State) (p : Pin) : Bool :=
  match s.pinUsage with
  | some u => u.getLsbD p.val
  | none => false

/-- The usage mask with bit `p` set or cleared. -/
def usageSet (u : BitVec 16) (p : Pin) (b : Bool) : BitVec 16 :=
  if b then u ||| BitVec.twoPow 16 p.val else u &&& ~~~(BitVec.twoPow 16 p.val)

/-- `PIN_USAGE[p] <- b`. -/
def State.setUsage (s : State) (p : Pin) (b : Bool) : State :=
  { s with pinUsage := s.pinUsage.map fun u => usageSet u p b }

/-- `CUR_STATE <- t`. -/
def State.setCur (s : State) (t : TapState) : State := { s with curState := some t }

/-- `CLKEN`, bit `GPIO_CLKEN_BIT` of the clock-enable register (10_state.md R31). -/
def State.clken (s : State) : Bool := s.clkenReg.getLsbD s.params.clkenBit.val

/-- The address of a register: an OPEN parameter that no rule uses (20_memory.md R50, R66). -/
def State.regAddr (s : State) : GpioReg → Nat
  | .config => s.params.regAddr.config
  | .setReset => s.params.regAddr.setReset
  | .input => s.params.regAddr.input
  | .clken => s.params.regAddr.clken

/-! ### Events -/

/-- Append one event to the trace (00_scope.md R11, R13). -/
def State.emit (s : State) (e : Event) : State := { s with events := s.events ++ [e] }

/-- The target reacts to the wires as they now stand (20_memory.md R62, R67). -/
def State.react (s : State) : State := { s with target := s.target.observe s.params s.pins }

/-- `PinConfig(p, …)`: the four fields of pin `p`; its latch and every other pin unchanged
(20_memory.md R54). -/
def pinConfig (p : Pin) (c : PinCfg) (s : State) : State :=
  ({ s with pins := s.pins.set p.val { s.pin p with cfg := c } }.emit (.config p c)).react

/-- `OUT[p]` after a set/reset write `v`: `free` where both bits of the pin are set (20_memory.md R52). -/
def latchAfter (v : RegWord) (p : Pin) (old free : Bool) : Bool :=
  match v.getLsbD p.val, v.getLsbD (p.val + 16) with
  | true, false => true
  | false, true => false
  | false, false => old
  | true, true => free

/-- The pins after a set/reset write `v`, the `k`-th event of the trace. -/
def writeLatches (v : RegWord) (k : Nat) (b : Vector PinRegs 16) : Vector PinRegs 16 :=
  Vector.ofFn fun p => { b[p.val] with out := latchAfter v p b[p.val].out (Config.clashLevel k p) }

/-- `MemWrite(GPIO_SETRESET, 4, v)`: one atomic write (20_memory.md R52, R69). -/
def writeSetReset (v : RegWord) (s : State) : State :=
  ({ s with pins := writeLatches v s.events.length s.pins }.emit (.write .setReset v)).react

/-- The value `MemRead(GPIO_INPUT, 4)` draws next (20_memory.md R53). -/
def inputDraw (s : State) : RegWord := Config.inputOracle s.draws

/-- `MemRead(GPIO_INPUT, 4)`: a draw, no side effect (20_memory.md R53). -/
def readInput (s : State) : State :=
  { s with draws := s.draws + 1 }.emit (.read .input (inputDraw s))

/-- `1 << GPIO_CLKEN_BIT` (20_memory.md R55). -/
def clkenMask (P : Params) : RegWord := oneShl P.clkenBit.val

/-- `MemRead(GPIO_CLKEN_REG, 4)`: the event; the value is the register (20_memory.md R55). -/
def readClken (s : State) : State := s.emit (.read .clken s.clkenReg)

/-- `MemWrite(GPIO_CLKEN_REG, 4, v)` (20_memory.md R55). -/
def writeClken (v : RegWord) (s : State) : State := { s with clkenReg := v }.emit (.write .clken v)

/-- Enable the port clock: a read and a write of the clock-enable register (20_memory.md R55). -/
def enableClock (s : State) : State := writeClken (s.clkenReg ||| clkenMask s.params) (readClken s)

/-- `Hold(D_SETTLE)`: writes no state of the block; the target sees the wires settle (00_scope.md R8, R13). -/
def hold (s : State) : State :=
  { s.emit (.hold .dSettle) with target := s.target.afterHold }.react

/-! ### The end of a command, and the time between commands -/

/-- The state once a result has gone back to the caller (30_encoding.md R90). -/
def State.completed (s : State) (c : Completion) : State := { s with completions := s.completions ++ [c] }

/-- `return v`: the command ends and its result goes back to the caller (00_scope.md R12,
60_exceptions.md R206). -/
def complete (c : Completion) (s : State) : Host.Outcome State Fault Refusal := .next (s.completed c)

/-- The clock-enable register after other code may have written it: `CLKEN` is this block's, every other bit
is a free value (20_memory.md R50, R55, notes/assumptions/10.md). -/
def clkenAfterOthers (P : Params) (old fresh : RegWord) : RegWord :=
  (old &&& clkenMask P) ||| (fresh &&& ~~~(clkenMask P))

/-- What happens between two commands, and while the caller waits: nothing at the sequencer
(60_exceptions.md R207). The target goes on seeing its wires (20_memory.md R59), and other code may write
its own bits of the clock-enable register. -/
def betweenCommands (s : State) : State :=
  { s with clkenReg := clkenAfterOthers s.params s.clkenReg (Config.otherClkenBits s.draws)
           draws := s.draws + 1 }.react

/-- The outcome of a word the decoder refuses (60_exceptions.md R202). -/
def refusalOf : RefuseReason → Refusal
  | .reservedOpcode => .reservedOpcode
  | .reservedBits => .reservedBits
  | .badSignal => .badSignal
  | .badState => .badState

/-- The number a fault carries in the spec (60_exceptions.md R203); `nextUndefined` has none. -/
def Fault.code : Fault → Option Nat
  | .uninitDriver => some 32
  | .uninitTap => some 33
  | .nextUndefined => none

/-- The caller issues a command word at the head of the stream (60_exceptions.md R207). -/
def issueNext (w : Word) (s : State) : State := { s with port := w :: s.port }

end Sys2Proof.Machine
end

