-- ==== Sys2Proof/Machine/Driver.lean ====
section
/-! DEFINITION. The Signal/Pin Driver: its internal procedures and its five commands (40_pin_driver.md). -/

namespace Sys2Proof.Machine

/-! ### Internal procedures -/

/-- `DEALLOC_PIN(sig)` (40_pin_driver.md R104). It is called on an allocated signal only. -/
def deallocPin (sig : Signal) (s : State) : State :=
  match s.pinOf sig with
  | none => s
  | some p => ((writeSetReset (resetBit p) (pinConfig p inputCfg s)).setUsage p false).setAlloc sig none

/-- `CONFIG_OUT(p)` (40_pin_driver.md R105). -/
def configOut (p : Pin) (s : State) : State := pinConfig p outputCfg (writeSetReset (resetBit p) s)

/-- `CONFIG_IN(p)` (40_pin_driver.md R106). -/
def configIn (p : Pin) (s : State) : State := pinConfig p inputCfg s

/-- Configure pin `p` for a signal: output if it is output-capable, plain input otherwise
(40_pin_driver.md R102). -/
def configFor (sig : Signal) (p : Pin) (s : State) : State :=
  if outputCapable sig then configOut p s else configIn p s

/-- The allocation itself: free the old pin, configure the new one, then the bookkeeping
(40_pin_driver.md R102). -/
def allocatePin (sig : Signal) (p : Pin) (s : State) : State :=
  ((configFor sig p (deallocPin sig s)).setUsage p true).setAlloc sig (some p)

/-- What `CFG_CORE` leaves, and why it failed if it did. -/
structure CfgResult where
  state : State
  failure : Option CfgFailure
  deriving DecidableEq, Repr

/-- `CFG_CORE(sig, pin)`: the tests in the order of 40_pin_driver.md R102 and 60_exceptions.md R204. -/
def cfgCore (sig : Signal) (field : BitVec 8) (s : State) : CfgResult :=
  match pinFieldOf field with
  | .notAllocated => ⟨deallocPin sig s, none⟩
  | .outOfRange => ⟨s, some .pinOutOfRange⟩
  | .pin p =>
    if s.used p = true ∧ s.owner p ≠ some sig then ⟨s, some .pinConflict⟩
    else if s.pinOf sig = some p then ⟨s, none⟩
    else ⟨allocatePin sig p s, none⟩

/-- `SET(sig, v)` (40_pin_driver.md R110). -/
def setSignal (sig : Signal) (v : Bool) (s : State) : State :=
  match s.pinOf sig with
  | none => s
  | some p => if (s.pin p).cfg.mode = .input then s else writeSetReset (levelWord p v) s

/-- `CLOCK()` (40_pin_driver.md R116). -/
def clock (s : State) : State := setSignal .tck false (hold (setSignal .tck true s))

/-! ### DRV_INIT -/

/-- Every pin an input, pull disabled, push-pull, lowest speed (40_pin_driver.md R100). -/
def configAllInputs (s : State) : State :=
  (List.finRange 16).foldl (fun t p => pinConfig p inputCfg t) s

/-- The GPIO part of `DRV_INIT`: pins, latches, port clock (40_pin_driver.md R100). -/
def initPort (s : State) : State := enableClock (writeSetReset 0xFFFF0000 (configAllInputs s))

/-- The allocation state cleared (40_pin_driver.md R100). -/
def clearAlloc (s : State) : State := { s with alloc := some AllocTable.empty, pinUsage := some 0 }

/-- The default allocation, through the same path as `Cfg` (40_pin_driver.md R100). -/
def defaultAlloc (s : State) : State :=
  (cfgCore .tdo 3 (cfgCore .tdi 2 (cfgCore .tms 1 (cfgCore .tck 0 s).state).state).state).state

/-- `DRV_INIT` (40_pin_driver.md R100). -/
def execDrvInit (s : State) : Host.Outcome State Fault Refusal :=
  complete (plainCompletion 0) (defaultAlloc (clearAlloc (initPort s)))

/-! ### The other driver commands -/

/-- Whether `ALLOC` and `PIN_USAGE` are written (40_pin_driver.md R102). -/
def State.driverReady (s : State) : Bool := s.alloc.isSome && s.pinUsage.isSome

/-- `DRV_CFG` (40_pin_driver.md R102). -/
def execDrvCfg (sig : Signal) (field : BitVec 8) (s : State) : Host.Outcome State Fault Refusal :=
  if s.driverReady then
    complete (cfgCompletion (cfgCore sig field s).failure) (cfgCore sig field s).state
  else .fault .uninitDriver

/-- `DRV_SET` (40_pin_driver.md R110). -/
def execDrvSet (sig : Signal) (v : Bool) (s : State) : Host.Outcome State Fault Refusal :=
  if s.alloc.isSome then complete (plainCompletion 0) (setSignal sig v s) else .fault .uninitDriver

/-- `DRV_GET` (40_pin_driver.md R112). -/
def execDrvGet (sig : Signal) (s : State) : Host.Outcome State Fault Refusal :=
  if s.alloc.isSome then
    match s.pinOf sig with
    | none => complete (plainCompletion (boolWord false)) s
    | some p => complete (plainCompletion (boolWord ((inputDraw s).getLsbD p.val))) (readInput s)
  else .fault .uninitDriver

/-- `DRV_ISALLOC` (40_pin_driver.md R114). -/
def execDrvIsAlloc (sig : Signal) (s : State) : Host.Outcome State Fault Refusal :=
  if s.alloc.isSome then complete (plainCompletion (boolWord (s.pinOf sig).isSome)) s
  else .fault .uninitDriver

end Sys2Proof.Machine
end

