-- ==== Sys2Proof/Machine/TapControl.lean ====
section
/-! DEFINITION. The TAP state machine: its sequencing procedures and its three commands
(41_tap_controller.md). -/

namespace Sys2Proof.Machine

/-! ### Sequencing procedures -/

/-- `HW_RESET()` (41_tap_controller.md R146). It is called with TRST allocated only. -/
def hwReset (s : State) : State :=
  setSignal .trst true (hold (setSignal .trst false (setSignal .tms true s)))

/-- `n` calls of `CLOCK`. -/
def clocks : Nat → State → State
  | 0, s => s
  | n + 1, s => clocks n (clock s)

/-- `SOFT_RESET_CLOCKS` (00_scope.md R6). -/
def softResetClocks : Nat := 5

/-- `SW_RESET()` (41_tap_controller.md R147). -/
def swReset (s : State) : State := clocks softResetClocks (setSignal .tms true s)

/-- The wire part of one transition: TMS, then one `CLOCK`, then `CUR_STATE <- n`
(41_tap_controller.md R148). -/
def issueTransition (m : Bool) (n : TapNode) (s : State) : State :=
  (clock (setSignal .tms m s)).setCur (.node n)

/-- `STEP(target)`; none where `NEXT` is undefined (41_tap_controller.md R148, R145). -/
def tapStep (target : TapState) (s : State) : Option State :=
  match s.curState with
  | none => none
  | some c => (next c target).map fun (m, n) => issueTransition m n s

/-- The reset from `Unknown`: by TRST if it is allocated, else by five clocks (41_tap_controller.md R151). -/
def resyncReset (s : State) : State :=
  (if (s.pinOf .trst).isSome then hwReset s else swReset s).setCur (.node .reset)

/-- One iteration of the walk (41_tap_controller.md R151). -/
def walkIteration (target : TapState) (s : State) : Option State :=
  if s.curState = some .unknown then some (resyncReset s) else tapStep target s

/-- `while CUR_STATE <> target` with at most `n` iterations (41_tap_controller.md R151); none if `NEXT` was
undefined or the iterations ran out, which no run reaches (R145, R154). -/
def walk : Nat → TapState → State → Option State
  | 0, target, s => if s.curState = some target then some s else none
  | n + 1, target, s =>
    if s.curState = some target then some s else (walkIteration target s).bind (walk n target)

/-- The most iterations a walk takes: 8 steps, or one reset and 7 steps (41_tap_controller.md R152(h)). -/
def walkBound : Nat := 8

/-! ### Commands -/

/-- `TAP_INIT` (41_tap_controller.md R150). -/
def execTapInit (s : State) : Host.Outcome State Fault Refusal :=
  complete (plainCompletion 0) (s.setCur .unknown)

/-- Whether `TAP_SETSTATE target` reads `ALLOC` in this state (41_tap_controller.md R151). -/
def setStateReadsAlloc (target : TapState) (s : State) : Bool :=
  decide (target = .node .reset) || decide (s.curState ≠ some target)

/-- `TAP_SETSTATE` with a written `CUR_STATE` and a target other than `Unknown`: bullets 2 and 3 of
41_tap_controller.md R151. -/
def setStateWalk (target : TapState) (s : State) : Host.Outcome State Fault Refusal :=
  if target = .node .reset ∧ (s.pinOf .trst).isSome then
    complete (plainCompletion 0) ((hwReset s).setCur (.node .reset))
  else
    match walk walkBound target s with
    | some t => complete (plainCompletion 0) t
    | none => .fault .nextUndefined

/-- `TAP_SETSTATE` (41_tap_controller.md R151). -/
def execTapSetState (target : TapState) (s : State) : Host.Outcome State Fault Refusal :=
  if s.curState.isNone then .fault .uninitTap
  else if target = .unknown then complete (plainCompletion 0) (s.setCur .unknown)
  else if s.alloc.isNone && setStateReadsAlloc target s then .fault .uninitDriver
  else setStateWalk target s

/-- `TAP_GETSTATE` (41_tap_controller.md R153). -/
def execTapGetState (s : State) : Host.Outcome State Fault Refusal :=
  match s.curState with
  | none => .fault .uninitTap
  | some t => complete (plainCompletion (stateWord t)) s

end Sys2Proof.Machine
end

