-- ==== Sys2Proof/Machine/Dispatch.lean ====
section
/-! DEFINITION. What each command does: one arm per constructor of Instr. -/

namespace Sys2Proof.Machine

def exec (i : Instr) (s : State) : Host.Outcome State Fault Refusal :=
  match i with
  | .drvInit => Sys2Proof.Machine.execDrvInit s
  | .drvCfg sig pin => Sys2Proof.Machine.execDrvCfg sig pin s
  | .drvSet sig value => Sys2Proof.Machine.execDrvSet sig value s
  | .drvGet sig => Sys2Proof.Machine.execDrvGet sig s
  | .drvIsAlloc sig => Sys2Proof.Machine.execDrvIsAlloc sig s
  | .tapInit => Sys2Proof.Machine.execTapInit s
  | .tapSetState target => Sys2Proof.Machine.execTapSetState target s
  | .tapGetState => Sys2Proof.Machine.execTapGetState s

end Sys2Proof.Machine
end

