-- ==== Sys2Proof/Machine/Step.lean ====
section
/-! DEFINITION. One step of the machine: the time since the last command, then the next command of the
stream to completion (00_scope.md R5, 10_state.md R21). -/

namespace Sys2Proof.Machine

/-- One step. With no command waiting the sequencer does nothing (60_exceptions.md R207); a word the decoder
refuses is refused, and any other word runs (60_exceptions.md R202, R204). -/
def step (s : State) : Host.Outcome State Fault Refusal :=
  match s.port with
  | [] => .next (betweenCommands s)
  | w :: rest =>
    match decode w with
    | .command i => exec i (betweenCommands { s with port := rest })
    | .refuse r => .refused (refusalOf r)

/-- The state with a command word at the head of the stream, where `step` takes its next command. Bits above
`nbits` are 0. -/
def State.withFetchWord (s : State) (nbits w : Nat) : State :=
  issueNext (BitVec.ofNat 16 (w % 2 ^ nbits)) s

end Sys2Proof.Machine
end

