-- ==== Sys2Proof/Machine/Assembler.lean ====
section
/-! DEFINITION. The assembler syntax: one command per line, a mnemonic and its operands (30_encoding.md
R92), and the pseudo-instructions (R93). A line here is already split into its mnemonic and operand words
(notes/assumptions/23.md). -/

namespace Sys2Proof.Machine

/-- A line `MNEMONIC [operand {, operand}]`, split into words (30_encoding.md R92). -/
structure AsmLine where
  mnemonic : String
  operands : List String
  deriving DecidableEq, Repr

/-- The names of the signals (30_encoding.md R92). -/
def signalName : Signal → String
  | .tck => "TCK" | .tms => "TMS" | .tdi => "TDI" | .tdo => "TDO" | .trst => "TRST"

/-- The names of the 16 states (30_encoding.md R83). -/
def nodeName : TapNode → String
  | .reset => "Reset" | .idle => "Idle"
  | .drScan => "DR_Scan" | .drCapture => "DR_Capture" | .drShift => "DR_Shift" | .drExit1 => "DR_Exit1"
  | .drPause => "DR_Pause" | .drExit2 => "DR_Exit2" | .drUpdate => "DR_Update"
  | .irScan => "IR_Scan" | .irCapture => "IR_Capture" | .irShift => "IR_Shift" | .irExit1 => "IR_Exit1"
  | .irPause => "IR_Pause" | .irExit2 => "IR_Exit2" | .irUpdate => "IR_Update"

/-- The names of the 17 state codes (30_encoding.md R83). -/
def stateName : TapState → String
  | .unknown => "Unknown"
  | .node n => nodeName n

/-- Every state in listing order (30_encoding.md R83). -/
def allStates : List TapState :=
  .unknown :: ([.reset, .idle, .drScan, .drCapture, .drShift, .drExit1, .drPause, .drExit2, .drUpdate,
    .irScan, .irCapture, .irShift, .irExit1, .irPause, .irExit2, .irUpdate] : List TapNode).map .node

/-- One decimal digit. -/
def digitText (n : Nat) : String :=
  match n with
  | 0 => "0" | 1 => "1" | 2 => "2" | 3 => "3" | 4 => "4"
  | 5 => "5" | 6 => "6" | 7 => "7" | 8 => "8" | _ => "9"

/-- The decimal text of a number below 1000. -/
def decimalText (n : Nat) : String :=
  if n < 10 then digitText n
  else if n < 100 then digitText (n / 10) ++ digitText (n % 10)
  else digitText (n / 100) ++ digitText (n / 10 % 10) ++ digitText (n % 10)

/-- A pin operand: `NOT_ALLOCATED`, or a decimal 0 to 255 (30_encoding.md R92). -/
def pinText (b : BitVec 8) : String := if b = 0xFF then "NOT_ALLOCATED" else decimalText b.toNat

/-- A value operand: `0` or `1` (30_encoding.md R92). -/
def valueText (v : Bool) : String := if v then "1" else "0"

/-- The line of a command (30_encoding.md R92). -/
def asmLine : Instr → AsmLine
  | .drvInit => ⟨"DRV_INIT", []⟩
  | .drvCfg s p => ⟨"DRV_CFG", [signalName s, pinText p]⟩
  | .drvSet s v => ⟨"DRV_SET", [signalName s, valueText v]⟩
  | .drvGet s => ⟨"DRV_GET", [signalName s]⟩
  | .drvIsAlloc s => ⟨"DRV_ISALLOC", [signalName s]⟩
  | .tapInit => ⟨"TAP_INIT", []⟩
  | .tapSetState t => ⟨"TAP_SETSTATE", [stateName t]⟩
  | .tapGetState => ⟨"TAP_GETSTATE", []⟩

/-- The text of a line (30_encoding.md R92). -/
def lineText (l : AsmLine) : String :=
  if l.operands = [] then l.mnemonic else l.mnemonic ++ " " ++ ", ".intercalate l.operands

/-- The line of a pseudo-instruction (30_encoding.md R93). -/
def pseudoLine : Pseudo → AsmLine
  | .tapReset => ⟨"TAP_RESET", []⟩
  | .tapResync => ⟨"TAP_RESYNC", []⟩
  | .drvFree s => ⟨"DRV_FREE", [signalName s]⟩
  | .drvHigh s => ⟨"DRV_HIGH", [signalName s]⟩
  | .drvLow s => ⟨"DRV_LOW", [signalName s]⟩

/-- The signal of a name. -/
def signalNamed (n : String) : Option Signal := allSignals.find? fun s => signalName s == n

/-- The state of a name. -/
def stateNamed (n : String) : Option TapState := allStates.find? fun t => stateName t == n

/-- The pin field of an operand; `255` and `NOT_ALLOCATED` are both 0xFF (30_encoding.md R85, R92). -/
def pinNamed (n : String) : Option (BitVec 8) :=
  if n = "NOT_ALLOCATED" then some 0xFF
  else ((List.range 256).find? fun k => decimalText k == n).map fun k => BitVec.ofNat 8 k

/-- The value of an operand. -/
def valueNamed (n : String) : Option Bool :=
  if n = "1" then some true else if n = "0" then some false else none

/-- The command of a line with no operand. -/
def assembleBare (m : String) : Option Instr :=
  if m = "DRV_INIT" then some .drvInit
  else if m = "TAP_INIT" then some .tapInit
  else if m = "TAP_GETSTATE" then some .tapGetState
  else if m = "TAP_RESET" then some Pseudo.tapReset.expand
  else if m = "TAP_RESYNC" then some Pseudo.tapResync.expand
  else none

/-- The command of a line with one operand. -/
def assembleOne (m a : String) : Option Instr :=
  if m = "DRV_GET" then (signalNamed a).map .drvGet
  else if m = "DRV_ISALLOC" then (signalNamed a).map .drvIsAlloc
  else if m = "TAP_SETSTATE" then (stateNamed a).map .tapSetState
  else if m = "DRV_FREE" then (signalNamed a).map fun s => (Pseudo.drvFree s).expand
  else if m = "DRV_HIGH" then (signalNamed a).map fun s => (Pseudo.drvHigh s).expand
  else if m = "DRV_LOW" then (signalNamed a).map fun s => (Pseudo.drvLow s).expand
  else none

/-- The command of a line with two operands. -/
def assembleTwo (m a b : String) : Option Instr :=
  if m = "DRV_CFG" then (signalNamed a).bind fun s => (pinNamed b).map (.drvCfg s)
  else if m = "DRV_SET" then (signalNamed a).bind fun s => (valueNamed b).map (.drvSet s)
  else none

/-- The command a line stands for; none for a line of no form of 30_encoding.md R92 or R93. -/
def assemble (l : AsmLine) : Option Instr :=
  match l.operands with
  | [] => assembleBare l.mnemonic
  | [a] => assembleOne l.mnemonic a
  | [a, b] => assembleTwo l.mnemonic a b
  | _ => none

end Sys2Proof.Machine
end

