-- ==== Sys2Proof/Safety.lean ====
section
/-! DEFINITION. What claims about a run speak of: the invariants of 10_state.md R26 and R27, the cache
coherence of R34 with its premises, and the event lists of the sequencing procedures. -/

namespace Sys2Proof.Machine

/-! ### Invariants -/

/-- 10_state.md R26: the usage bit of a pin is set exactly when some entry of the table is that pin, and at
most one entry is. -/
def AllocMatchesUsage (a : AllocTable) (u : BitVec 16) : Prop :=
  (∀ p : Pin, u.getLsbD p.val = true ↔ ∃ sig, a.get sig = some p) ∧
  (∀ (p : Pin) (s₁ s₂ : Signal), a.get s₁ = some p → a.get s₂ = some p → s₁ = s₂)

/-- 10_state.md R27: an output-capable signal's pin is a push-pull, lowest-speed, pull-disabled output,
TDO's pin is a pull-disabled input, and an unowned pin is an input with a low latch. -/
def PinsMatchAlloc (s : State) (a : AllocTable) (u : BitVec 16) : Prop :=
  (∀ (sig : Signal) (p : Pin), outputCapable sig = true → a.get sig = some p → (s.pin p).cfg = outputCfg) ∧
  (∀ p : Pin, a.tdo = some p → (s.pin p).cfg.mode = .input ∧ (s.pin p).cfg.pull = .disabled) ∧
  (∀ p : Pin, u.getLsbD p.val = false → (s.pin p).cfg.mode = .input ∧ (s.pin p).out = false)

/-- `ALLOC` and `PIN_USAGE` are written together, and once they are, R26 and R27 hold. -/
def Inv (s : State) : Prop :=
  s.alloc.isSome = s.pinUsage.isSome ∧
  ∀ a u, s.alloc = some a → s.pinUsage = some u → AllocMatchesUsage a u ∧ PinsMatchAlloc s a u

/-- The target last saw every level the port now drives on one of its terminals. -/
def SeenLevels (s : State) : Prop :=
  (∀ v, terminalWire s.pins s.params.wiring.tck = .driven v → s.target.tckSeen = v) ∧
  (∀ v, terminalWire s.pins s.params.wiring.tms = .driven v → s.target.tmsSeen = v) ∧
  (∀ v, terminalWire s.pins s.params.wiring.trst = .driven v → s.target.trstSeen = v)

/-! ### Cache coherence (10_state.md R34) -/

/-- P1: `ALLOC[TCK] = WIRING.TCK` and `ALLOC[TMS] = WIRING.TMS`, both allocated. -/
def ClockLinked (s : State) : Prop :=
  (∃ k, s.pinOf .tck = some k ∧ s.params.wiring.tck = some k) ∧
  (∃ m, s.pinOf .tms = some m ∧ s.params.wiring.tms = some m)

/-- A terminal of the target shows one level at every sample, as the pins stand: the port drives it so, or
every draw of its wire is that level (20_memory.md R58, R59). -/
def ShowsLevel (s : State) (terminal : Option Pin) (v : Bool) : Prop :=
  ∀ k, levelSeen (terminalWire s.pins terminal) k = v

/-- A signal is not on the pin a terminal is wired to. -/
def ApartFrom (s : State) (sig : Signal) (terminal : Option Pin) : Prop :=
  ∀ p, s.pinOf sig = some p → terminal ≠ some p

/-- P2, first case: the target has TRST and `ALLOC[TRST] = WIRING.TRST`. -/
def TrstWired (s : State) : Prop :=
  s.params.targetHasTrst = true ∧ ∃ r, s.pinOf .trst = some r ∧ s.params.wiring.trst = some r

/-- The signals the TAP state machine drives (41_tap_controller.md R158). -/
def tapSignals : List Signal := [.tms, .tck, .trst]

/-- P2, "or else the TRST wire was never driven 0": the target has no TRST, or sees it at 1 on a pin of none of
the three signals that walks and resets drive. A draw of 0 on an undriven TRST would reset the target
(20_memory.md R59, R62), so the premise is on the level seen (notes/assumptions/28.md). -/
def TrstQuiet (s : State) : Prop :=
  s.params.targetHasTrst = true →
    ShowsLevel s s.params.wiring.trst true ∧ ∀ sig ∈ tapSignals, ApartFrom s sig s.params.wiring.trst

/-- P2, the wiring part. -/
def TrstLinked (s : State) : Prop := TrstWired s ∨ TrstQuiet s

/-- P2, the level part: where TRST is on the pin wired to the target's, its latch is high. -/
def TrstReleased (s : State) : Prop :=
  s.params.targetHasTrst = true → ∀ p, s.pinOf .trst = some p → s.params.wiring.trst = some p →
    (s.pin p).out = true

/-- The three Boolean premises of 00_scope.md R6; the third is of a target with TRST
(93_implementation_defined.md I7). -/
def TimingPremises (P : Params) : Prop :=
  P.tmsSetupMet = true ∧ P.tckLowMet = true ∧ (P.targetHasTrst = true → P.trstRecoveryMet = true)

/-- The latch of a signal's pin holds a level, wherever the signal is allocated. -/
def LatchHolds (sig : Signal) (v : Bool) (s : State) : Prop :=
  ∀ p, s.pinOf sig = some p → (s.pin p).out = v

/-- P1 and the wiring part of P2, with the invariants, the timing premises, and levels the target has seen. -/
structure Wired (s : State) : Prop where
  inv : Inv s
  clock : ClockLinked s
  trst : TrstLinked s
  timing : TimingPremises s.params
  seen : SeenLevels s

/-- The premises under which a walk moves the target: TCK is low too (`OUT[ALLOC[TCK]] = 0`,
41_tap_controller.md R157). -/
structure Linked (s : State) : Prop extends Wired s where
  tckLow : LatchHolds .tck false s

/-- The premises of `Linked` but for the level of TCK, which the caller left high (70_reset_and_hazards.md
R232). -/
structure LinkedTckHigh (s : State) : Prop extends Wired s where
  tckHigh : LatchHolds .tck true s

/-- Cache coherence between commands: where `CUR_STATE` is a state, it is `PHYS` and TRST is released
(10_state.md R34). -/
def CacheTrue (s : State) : Prop :=
  ∀ n, s.curState = some (.node n) → s.target.phys = n ∧ TrstReleased s

/-- If `TAP_SETSTATE n` runs `HW_RESET`, the target's TRST is wired to the pin it drives
(41_tap_controller.md R157, its premise for `HW_RESET`). -/
def HardResetReaches (s : State) (n : TapNode) : Prop :=
  n = .reset ∨ s.curState = some .unknown → (s.pinOf .trst).isSome = true → TrstWired s

/-- P3 of a caller's `DRV_SET TCK, 1`: if it raises TCK, the TMS level holds the target's state. -/
def EdgeHolds (s : State) : Prop :=
  LatchHolds .tck false s → ∀ m, s.pinOf .tms = some m → ieeeNext s.target.phys (s.pin m).out = s.target.phys

/-- A caller's `DRV_SET` does not drive the target's TRST to 0 (P2). -/
def SparesTrst (s : State) (sig : Signal) (v : Bool) : Prop :=
  v = true ∨ (s.params.targetHasTrst = true → ApartFrom s sig s.params.wiring.trst)

/-- What P1 to P3 of 10_state.md R34 and the premises of 41_tap_controller.md R157 ask of a command: no
`DRV_INIT` or `DRV_CFG` (P1), no 0 on the target's TRST (P2), no TCK edge of the caller's that moves the target
(P3), and TCK low when a walk begins. -/
def KeepsLink (s : State) : Instr → Prop
  | .drvInit => False
  | .drvCfg _ _ => False
  | .drvSet .tdi v => SparesTrst s .tdi v
  | .drvSet .tdo _ => True
  | .drvSet .tck v => v = true → EdgeHolds s
  | .drvSet .tms _ => True
  | .drvSet .trst v => SparesTrst s .trst v
  | .drvGet _ => True
  | .drvIsAlloc _ => True
  | .tapInit => True
  | .tapSetState .unknown => True
  | .tapSetState (.node n) => LatchHolds .tck false s ∧ HardResetReaches s n
  | .tapGetState => True

/-- The target's TCK terminal shows one level and has been seen so, its TRST terminal, if it has one, is
released, and TMS is on neither: the premises of 95_test_vectors.md P5. -/
structure TerminalsStill (s : State) (v : Bool) : Prop where
  tck : ShowsLevel s s.params.wiring.tck v
  tckSeen : s.target.tckSeen = v
  tckApart : ApartFrom s .tms s.params.wiring.tck
  trst : s.params.targetHasTrst = true → ShowsLevel s s.params.wiring.trst true
  trstApart : s.params.targetHasTrst = true → ApartFrom s .tms s.params.wiring.trst

/-- TRST is on an output wired to the target's TRST terminal. -/
structure TrstDriven (s : State) (r : Pin) : Prop where
  hasTrst : s.params.targetHasTrst = true
  wired : s.params.wiring.trst = some r
  allocated : s.pinOf .trst = some r
  output : (s.pin r).cfg.mode = .output

/-- Both `Init` commands have run: every register a command reads is written (60_exceptions.md R203). -/
def Initialised (s : State) : Prop :=
  s.curState.isSome = true ∧ s.alloc.isSome = true ∧ s.pinUsage.isSome = true

/-! ### Event lists of the procedures

No procedure of the TAP state machine changes `ALLOC` or a pin's mode, so the state before a command says
which events its calls of `SET` emit. -/

/-- The set/reset write that drives pin `p` to a level (20_memory.md R52). -/
def driveEvent (p : Pin) (v : Bool) : Event := .write .setReset (levelWord p v)

/-- The events of `SET(sig, v)`: one write, or none for an unallocated signal or an input pin
(40_pin_driver.md R110). -/
def setEvents (s : State) (sig : Signal) (v : Bool) : List Event :=
  match s.pinOf sig with
  | none => []
  | some p => if (s.pin p).cfg.mode = .input then [] else [driveEvent p v]

/-- The events of one `CLOCK`: its hold comes even with TCK unallocated (40_pin_driver.md R116). -/
def clockEvents (s : State) : List Event :=
  setEvents s .tck true ++ [.hold .dSettle] ++ setEvents s .tck false

/-- The events of one `STEP` at TMS level `v` (41_tap_controller.md R148). -/
def stepEvents (s : State) (v : Bool) : List Event := setEvents s .tms v ++ clockEvents s

/-- The events of `SW_RESET` (41_tap_controller.md R147). -/
def swResetEvents (s : State) : List Event :=
  setEvents s .tms true ++ (List.replicate 5 (clockEvents s)).flatten

/-- The events of `HW_RESET` (41_tap_controller.md R146). -/
def hwResetEvents (s : State) : List Event :=
  setEvents s .tms true ++ setEvents s .trst false ++ [.hold .dSettle] ++ setEvents s .trst true

/-- The events of `DEALLOC_PIN(sig)`, none for an unallocated signal (40_pin_driver.md R104). -/
def freeEvents (s : State) (sig : Signal) : List Event :=
  match s.pinOf sig with
  | none => []
  | some p => [.config p inputCfg, driveEvent p false]

/-- The events that configure pin `p` for a signal (40_pin_driver.md R105, R106). -/
def claimEvents (sig : Signal) (p : Pin) : List Event :=
  if outputCapable sig then [driveEvent p false, .config p outputCfg] else [.config p inputCfg]

/-- The TMS levels of a walk by the table of 41_tap_controller.md R142, at most `n` of them. -/
def tableLevels : Nat → TapNode → TapNode → List Bool
  | 0, _, _ => []
  | n + 1, c, t => if c = t then [] else (nextRow c t).1 :: tableLevels n (nextRow c t).2 t

/-- The TMS levels `TAP_SETSTATE t` puts out from state `c` (41_tap_controller.md R151, R154). -/
def walkLevels (c t : TapNode) : List Bool := tableLevels walkBound c t

/-- The state a run of TMS levels leads to, one TCK rising edge each (41_tap_controller.md R141). -/
def runLevels (c : TapNode) (levels : List Bool) : TapNode := levels.foldl ieeeNext c

/-- A list of TMS levels is a shortest way from one state to another (41_tap_controller.md R155). -/
def ShortestWay (c t : TapNode) (levels : List Bool) : Prop :=
  runLevels c levels = t ∧ ∀ other, runLevels c other = t → levels.length ≤ other.length

/-- The states a TCK pulse with TMS left alone does not leave (41_tap_controller.md R156). -/
def stableNode : TapNode → Bool
  | .reset | .idle | .drShift | .drPause | .irShift | .irPause => true
  | .drScan | .drCapture | .drExit1 | .drExit2 | .drUpdate => false
  | .irScan | .irCapture | .irExit1 | .irExit2 | .irUpdate => false

/-- The 256 ordered pairs of states (41_tap_controller.md R155). -/
def nodePairs : List (TapNode × TapNode) :=
  let nodes := allStates.filterMap fun | .node n => some n | .unknown => none
  nodes.flatMap fun c => nodes.map fun t => (c, t)

/-- The response word a completed command gives back, by the table of 30_encoding.md R90: `s` is the state the
command starts from, and `failed` says whether a `DRV_CFG` failed. -/
def responseOf (i : Instr) (s : State) (failed : Bool) : Word :=
  match i with
  | .drvInit => 0
  | .drvCfg _ _ => if failed then 0 else 1
  | .drvSet _ _ => 0
  | .drvGet sig =>
    match s.pinOf sig with
    | none => 0
    | some p => if (Config.inputOracle s.draws).getLsbD p.val then 1 else 0
  | .drvIsAlloc sig => if (s.pinOf sig).isSome then 1 else 0
  | .tapInit => 0
  | .tapSetState _ => 0
  | .tapGetState =>
    match s.curState with
    | none => 0
    | some c => c.code.setWidth 16

/-- The part of a command's frame that every command but `DRV_INIT`, `DRV_GET` and those that name it
keeps: the stream, the parameters, the clock-enable register and the count of port draws. -/
def SamePort (s t : State) : Prop :=
  t.port = s.port ∧ t.params = s.params ∧ t.clkenReg = s.clkenReg ∧ t.draws = s.draws

end Sys2Proof.Machine
end

