-- ==== Sys2Proof/Certificates/Slice0/Obligations.lean ====
section
/-! DEFINITION. The statements for the provers. Each says what a command or the machine does; every free value
(00_scope.md R6 draws, 93_implementation_defined.md part 2) is left free. -/

open Sys2Proof Sys2Proof.Machine

/-! ### Encoding -/

/-- 30_encoding.md R94 and 95_test_vectors.md 2.4: words of every family, and refused words. -/
def Obligations.SpecWordsDecode : Prop :=
  decode 0x1000 = .command .drvInit ∧
  decode 0x2404 = .command (.drvCfg .trst 4) ∧
  decode 0x22FF = .command (.drvCfg .tdi 0xFF) ∧
  decode 0x3201 = .command (.drvSet .tdi true) ∧
  decode 0x4300 = .command (.drvGet .tdo) ∧
  decode 0x5400 = .command (.drvIsAlloc .trst) ∧
  decode 0x9000 = .command .tapInit ∧
  decode 0xA00C = .command (.tapSetState (.node .irShift)) ∧
  decode 0xB000 = .command .tapGetState ∧
  decode 0xA011 = .refuse .badState ∧
  decode 0x3202 = .refuse .reservedBits ∧
  decode 0x2500 = .refuse .badSignal ∧
  decode 0x7000 = .refuse .reservedOpcode

/-- Decoding an encoded command gives it back, over a byte transport as well (30_encoding.md R82, R88;
20_memory.md R64). -/
def Obligations.EncodedCommandDecodesBack : Prop :=
  ∀ (i : Instr) (rest : List Byte),
    decode (encode i) = .command i ∧
    decodeBytes (bytesOfWord (encode i) ++ rest) = some (.command i, rest)

/-- Each command has one word: a word that decodes to a command is that command's encoding
(30_encoding.md R88). -/
def Obligations.DecodedWordEncodesBack : Prop :=
  ∀ (w : Word) (i : Instr), decode w = .command i → encode i = w

/-- The decoder gives a command exactly to the words the field table admits (30_encoding.md R82, R84, R87). -/
def Obligations.CommandsAreTheWellFormedWords : Prop :=
  ∀ w : Word, (∃ i, decode w = .command i) ↔ wellFormedWord w = true

/-- 30_encoding.md R89 with the order of 60_exceptions.md R204: which words are refused, and why, in every
state. A refusal has no next state. -/
def Obligations.MeaninglessWordsAreRefused : Prop :=
  ∀ (s : State) (w : Word) (rest : List Word), s.port = w :: rest →
    (opField w ∈ ([0x0, 0x6, 0x7, 0x8, 0xC, 0xD, 0xE, 0xF] : List (BitVec 4)) →
      step s = .refused .reservedOpcode) ∧
    (opField w ∈ ([0x2, 0x3, 0x4, 0x5] : List (BitVec 4)) → 5 ≤ (sigField w).toNat →
      step s = .refused .badSignal) ∧
    (opField w ∈ ([0x1, 0x9, 0xB] : List (BitVec 4)) → (sigField w ≠ 0 ∨ argField w ≠ 0) →
      step s = .refused .reservedBits) ∧
    (opField w = 0x3 → (sigField w).toNat ≤ 4 → (argField w).extractLsb' 1 7 ≠ 0 →
      step s = .refused .reservedBits) ∧
    (opField w ∈ ([0x4, 0x5] : List (BitVec 4)) → (sigField w).toNat ≤ 4 → argField w ≠ 0 →
      step s = .refused .reservedBits) ∧
    (opField w = 0xA → (sigField w ≠ 0 ∨ (argField w).extractLsb' 5 3 ≠ 0) →
      step s = .refused .reservedBits) ∧
    (opField w = 0xA → sigField w = 0 → (argField w).extractLsb' 5 3 = 0 →
      17 ≤ ((argField w).extractLsb' 0 5).toNat → step s = .refused .badState)

/-- 30_encoding.md R93: the word of each pseudo-instruction. -/
def Obligations.PseudoInstructionWords : Prop :=
  encode Pseudo.tapReset.expand = 0xA001 ∧
  encode Pseudo.tapResync.expand = 0xA000 ∧
  ∀ sig : Signal,
    encode (Pseudo.drvFree sig).expand = cmd16 0x2 sig.code 0xFF ∧
    encode (Pseudo.drvHigh sig).expand = cmd16 0x3 sig.code 0x01 ∧
    encode (Pseudo.drvLow sig).expand = cmd16 0x3 sig.code 0x00

/-- The assembler line of a command assembles to it, and that of a pseudo-instruction to its expansion
(30_encoding.md R92, R93; the split into words is the model's, notes/assumptions/23.md). -/
def Obligations.AssemblerLinesAssemble : Prop :=
  (∀ i : Instr, assemble (asmLine i) = some i) ∧
  (∀ p : Pseudo, assemble (pseudoLine p) = some p.expand)

/-! ### The step -/

/-- A step runs the decoded command at the head of the stream, on the state the time between commands leaves:
the word is taken, the target may have seen floating wires, and other code may have written its own bits of
the clock-enable register (00_scope.md R5, 10_state.md R21; the last two are the model's,
notes/assumptions/8.md and 10.md). -/
def Obligations.StepRunsTheDecodedCommand : Prop :=
  ∀ (s : State) (w : Word) (rest : List Word) (i : Instr),
    s.port = w :: rest → decode w = .command i →
    ∃ b : State, step s = exec i b ∧
      b.port = rest ∧ b.completions = s.completions ∧ b.curState = s.curState ∧ b.alloc = s.alloc ∧
      b.pinUsage = s.pinUsage ∧ b.pins = s.pins ∧ b.events = s.events ∧ b.params = s.params ∧
      b.clken = s.clken ∧ b = betweenCommands { s with port := rest } ∧
      (steadyWires s.params s.pins = true → SeenLevels s →
        b.target.phys =
          if s.params.targetHasTrst = true ∧ terminalWire s.pins s.params.wiring.trst = .driven false
          then .reset else s.target.phys)

/-- 60_exceptions.md R207, the row "wait": with no command waiting, a step leaves everything the sequencer has
as it was, and a target whose clock and reset wires the port drives stays where it is, or in `Reset` where TRST
is driven low. That such a step answers a next state is the model's choice (notes/assumptions/11.md), and so is
that other code keeps `CLKEN` (notes/assumptions/10.md); what the target sees meanwhile is
notes/assumptions/8.md and 24.md. -/
def Obligations.WaitingChangesNothingAtTheSequencer : Prop :=
  ∀ s : State, s.port = [] →
    ∃ t, step s = .next t ∧
      t.port = [] ∧ t.completions = s.completions ∧ t.curState = s.curState ∧ t.alloc = s.alloc ∧
      t.pinUsage = s.pinUsage ∧ t.pins = s.pins ∧ t.events = s.events ∧ t.params = s.params ∧
      t.clken = s.clken ∧
      (steadyWires s.params s.pins = true → SeenLevels s →
        t.target.phys =
          if s.params.targetHasTrst = true ∧ terminalWire s.pins s.params.wiring.trst = .driven false
          then .reset else s.target.phys)

/-- 70_reset_and_hazards.md R221, first point, and its last sentence: at power-on the three registers are
unwritten and no command waits or has run. -/
def Obligations.PowerOnIsUnwritten : Prop :=
  State.reset.curState = none ∧ State.reset.alloc = none ∧ State.reset.pinUsage = none ∧
  State.reset.port = [] ∧ State.reset.events = [] ∧ State.reset.completions = []

/-! ### GPIO primitives and wires -/

/-- 20_memory.md R52: a set/reset write, pin by pin. With both bits of a pin set its latch is any value, and
nothing is said of it. -/
def Obligations.SetResetWriteDrivesLatches : Prop :=
  ∀ (v : RegWord) (s : State) (p : Pin),
    ((writeSetReset v s).pin p).cfg = (s.pin p).cfg ∧
    (v.getLsbD p.val = true → v.getLsbD (p.val + 16) = false → ((writeSetReset v s).pin p).out = true) ∧
    (v.getLsbD p.val = false → v.getLsbD (p.val + 16) = true → ((writeSetReset v s).pin p).out = false) ∧
    (v.getLsbD p.val = false → v.getLsbD (p.val + 16) = false →
      ((writeSetReset v s).pin p).out = (s.pin p).out) ∧
    (writeSetReset v s).events = s.events ++ [.write .setReset v]

/-- 20_memory.md R52, last sentences: every set/reset write a command issues sets one bit, or is the one write
of `DRV_INIT` that drives every latch low. -/
def Obligations.EveryWriteIsOneBit : Prop :=
  ∀ (i : Instr) (s t : State) (new : List Event) (v : RegWord), exec i s = .next t →
    t.events = s.events ++ new → Event.write .setReset v ∈ new →
    (i = .drvInit ∧ v = 0xFFFF0000) ∨ ∃ p : Pin, v = oneShl p.val ∨ v = oneShl (p.val + 16)

/-- 20_memory.md R55: the port clock is enabled by a read and a write of the clock-enable register; its own bit
ends set and every other bit keeps the value read. -/
def Obligations.ClockEnableIsAReadModifyWrite : Prop :=
  ∀ s : State,
    (enableClock s).events = s.events ++
      [.read .clken s.clkenReg, .write .clken (s.clkenReg ||| oneShl s.params.clkenBit.val)] ∧
    (enableClock s).clken = true ∧
    (∀ b : Nat, b ≠ s.params.clkenBit.val → (enableClock s).clkenReg.getLsbD b = s.clkenReg.getLsbD b) ∧
    (s.clken = true → (enableClock s).clkenReg = s.clkenReg)

/-- 20_memory.md R54: a pin configuration writes the four fields of one pin and nothing else of the port. -/
def Obligations.PinConfigWritesOnePin : Prop :=
  ∀ (p q : Pin) (c : PinCfg) (s : State),
    (pinConfig p c s).pin q = (if q = p then { s.pin p with cfg := c } else s.pin q) ∧
    (pinConfig p c s).events = s.events ++ [.config p c]

/-- 20_memory.md R58: the wire of a pin; a level that is a draw is left free. -/
def Obligations.WireFollowsModeAndLatch : Prop :=
  ∀ (r : PinRegs),
    (r.cfg.mode = .output → PinRegs.wire r = .driven r.out) ∧
    (r.cfg.mode = .input → PinRegs.wire r = .undriven) ∧
    (r.cfg.mode = .other → PinRegs.wire r = .unspecified)

/-- 20_memory.md R62 under the timing premises of 00_scope.md R6: TRST at 0 resets, a rising TCK edge takes
one transition of the graph, and nothing else moves the target. The recovery premise is asked of a target with
TRST only, and only at the first edge after a release (93_implementation_defined.md I7). That the edge is the
rising one, and the graph's five hold edges, are PRESUMED (the spec's own general knowledge,
notes/assumptions/17.md); that a transition is a level other than the last one seen is DEDUCED
(notes/assumptions/24.md). -/
def Obligations.TargetFollowsRisingEdges : Prop :=
  ∀ (P : Params) (t : Target) (tck tms trst : Bool),
    (P.targetHasTrst = true → trst = false → (t.sampleLevels P tck tms trst).phys = .reset) ∧
    (TimingPremises P → (P.targetHasTrst = false ∨ trst = true) → t.tckSeen = false → tck = true →
      (t.sampleLevels P tck tms trst).phys = ieeeNext t.phys tms) ∧
    (P.tmsSetupMet = true → P.tckLowMet = true →
      (P.targetHasTrst = false ∨ trst = true ∧ t.trstSeen = true ∧ t.afterRelease = false) →
      t.tckSeen = false → tck = true → (t.sampleLevels P tck tms trst).phys = ieeeNext t.phys tms) ∧
    (t.tckSeen = false → tck = true → (t.sampleLevels P tck tms trst).afterRelease = false) ∧
    ((P.targetHasTrst = false ∨ trst = true) → (t.tckSeen = true ∨ tck = false) →
      (t.sampleLevels P tck tms trst).phys = t.phys)

/-- After every step, the levels the target last saw are those the port drives on its terminals. The levels
last seen are the model's reading of "transition" in 20_memory.md R62 (notes/assumptions/24.md). -/
def Obligations.StepLeavesLevelsSeen : Prop :=
  ∀ s t : State, step s = .next t → SeenLevels t

/-! ### Signal/Pin Driver -/

/-- 40_pin_driver.md R100, R101: `DRV_INIT` completes in every state, with the events in order and the
default state; it keeps `CUR_STATE` and every bit of the clock-enable register but its own. -/
def Obligations.DrvInitSetsDefaults : Prop :=
  ∀ s : State, ∃ t, exec .drvInit s = .next t ∧
    t.alloc = some ⟨some 0, some 1, some 2, some 3, none⟩ ∧
    t.pinUsage = some 0x000F ∧
    (∀ p : Pin, t.pin p = ⟨if p.val < 3 then outputCfg else inputCfg, false⟩) ∧
    t.clkenReg = s.clkenReg ||| oneShl s.params.clkenBit.val ∧ t.clken = true ∧
    t.events = s.events ++ (List.finRange 16).map (fun p => Event.config p inputCfg) ++
      [.write .setReset 0xFFFF0000,
       .read .clken s.clkenReg, .write .clken (s.clkenReg ||| oneShl s.params.clkenBit.val),
       driveEvent 0 false, .config 0 outputCfg, driveEvent 1 false, .config 1 outputCfg,
       driveEvent 2 false, .config 2 outputCfg, .config 3 inputCfg] ∧
    t.completions = s.completions ++ [⟨0, none⟩] ∧
    t.curState = s.curState ∧ t.port = s.port ∧ t.params = s.params ∧ t.draws = s.draws

/-- 40_pin_driver.md R100, corner cases: a second `DRV_INIT` yields the same driver and GPIO state. -/
def Obligations.DrvInitTwiceIsDrvInit : Prop :=
  ∀ s : State, ∃ t u, exec .drvInit s = .next t ∧ exec .drvInit t = .next u ∧
    u.alloc = t.alloc ∧ u.pinUsage = t.pinUsage ∧ u.pins = t.pins ∧ u.clkenReg = t.clkenReg ∧
    u.curState = t.curState

/-- 40_pin_driver.md R104: freeing an allocated signal. -/
def Obligations.CfgFreesThePin : Prop :=
  ∀ (s : State) (sig : Signal) (p : Pin),
    s.driverReady = true → s.pinOf sig = some p →
    ∃ t, exec (.drvCfg sig 0xFF) s = .next t ∧
      t.events = s.events ++ [.config p inputCfg, .write .setReset (oneShl (p.val + 16))] ∧
      (∀ q, t.pin q = if q = p then ⟨inputCfg, false⟩ else s.pin q) ∧
      (∀ q, t.used q = if q = p then false else s.used q) ∧
      (∀ g, t.pinOf g = if g = sig then none else s.pinOf g) ∧
      t.alloc.isSome = true ∧ t.pinUsage.isSome = true ∧
      t.completions = s.completions ++ [⟨1, none⟩] ∧ t.curState = s.curState ∧ SamePort s t

/-- 40_pin_driver.md R102, R105, R106, R107(e): allocating a signal to a pin no other signal owns, after
freeing the pin it had. The old pin, the new pin, the table and the mask change, and nothing else. -/
def Obligations.CfgAllocatesThePin : Prop :=
  ∀ (s : State) (sig : Signal) (p : Pin),
    s.driverReady = true → (s.used p = true → s.owner p = some sig) → s.pinOf sig ≠ some p →
    ∃ t, exec (.drvCfg sig (BitVec.ofNat 8 p.val)) s = .next t ∧
      t.events = s.events ++ freeEvents s sig ++ claimEvents sig p ∧
      (∀ q, t.pin q =
        if q = p then (if outputCapable sig then ⟨outputCfg, false⟩ else ⟨inputCfg, (s.pin p).out⟩)
        else if s.pinOf sig = some q then ⟨inputCfg, false⟩ else s.pin q) ∧
      (∀ q, t.used q = if q = p then true else if s.pinOf sig = some q then false else s.used q) ∧
      (∀ g, t.pinOf g = if g = sig then some p else s.pinOf g) ∧
      t.alloc.isSome = true ∧ t.pinUsage.isSome = true ∧
      t.completions = s.completions ++ [⟨1, none⟩] ∧ t.curState = s.curState ∧ SamePort s t

/-- 60_exceptions.md R200: the two failures of `DRV_CFG` are completions with response 0 that change nothing
and emit nothing; the reason stays inside, and no other command has one. -/
def Obligations.CfgFailuresChangeNothing : Prop :=
  CfgFailure.pinOutOfRange.code = 1 ∧ CfgFailure.pinConflict.code = 2 ∧
  (∀ (s : State) (sig : Signal) (f : BitVec 8),
    s.driverReady = true → 0x10 ≤ f.toNat → f ≠ 0xFF →
    exec (.drvCfg sig f) s =
      .next { s with completions := s.completions ++ [⟨0, some .pinOutOfRange⟩] }) ∧
  (∀ (s : State) (sig : Signal) (p : Pin),
    s.driverReady = true → s.used p = true → s.owner p ≠ some sig →
    exec (.drvCfg sig (BitVec.ofNat 8 p.val)) s =
      .next { s with completions := s.completions ++ [⟨0, some .pinConflict⟩] }) ∧
  (∀ (i : Instr) (s t : State) (c : Completion), exec i s = .next t → t.completions = s.completions ++ [c] →
    c.failure.isSome = true → ∃ sig f, i = .drvCfg sig f)

/-- 40_pin_driver.md R107(a), (b): freeing a free signal, and giving a signal the pin it owns, succeed with
no event. -/
def Obligations.CfgNoOpsSucceed : Prop :=
  (∀ (s : State) (sig : Signal), s.driverReady = true → s.pinOf sig = none →
    exec (.drvCfg sig 0xFF) s = .next { s with completions := s.completions ++ [⟨1, none⟩] }) ∧
  (∀ (s : State) (sig : Signal) (p : Pin), s.driverReady = true →
    (s.used p = true → s.owner p = some sig) → s.pinOf sig = some p →
    exec (.drvCfg sig (BitVec.ofNat 8 p.val)) s =
      .next { s with completions := s.completions ++ [⟨1, none⟩] })

/-- 40_pin_driver.md R103: whatever its operands, a `DRV_CFG` on a ready driver completes; response 1 goes
with success, response 0 with a failure that left the whole state as it was. -/
def Obligations.CfgAlwaysCompletes : Prop :=
  ∀ (s : State) (sig : Signal) (f : BitVec 8), s.driverReady = true →
    ∃ t c, exec (.drvCfg sig f) s = .next t ∧ t.completions = s.completions ++ [c] ∧
      ((c.response = 1 ∧ c.failure = none) ∨
       (c.response = 0 ∧ c.failure.isSome = true ∧ t = { s with completions := s.completions ++ [c] }))

/-- 40_pin_driver.md R110: `DRV_SET` on every signal. -/
def Obligations.DrvSetDrivesOnePin : Prop :=
  ∀ (s : State) (sig : Signal) (v : Bool),
    (s.alloc = none → exec (.drvSet sig v) s = .fault .uninitDriver) ∧
    (s.alloc.isSome = true →
      (s.pinOf sig = none ∨ ∃ p, s.pinOf sig = some p ∧ (s.pin p).cfg.mode = .input) →
      exec (.drvSet sig v) s = .next { s with completions := s.completions ++ [⟨0, none⟩] }) ∧
    (∀ p, s.pinOf sig = some p → (s.pin p).cfg.mode ≠ .input →
      ∃ t, exec (.drvSet sig v) s = .next t ∧
        t.events = s.events ++ [.write .setReset (if v then oneShl p.val else oneShl (p.val + 16))] ∧
        (∀ q, t.pin q = if q = p then { s.pin p with out := v } else s.pin q) ∧
        t.completions = s.completions ++ [⟨0, none⟩] ∧
        t.curState = s.curState ∧ t.alloc = s.alloc ∧ t.pinUsage = s.pinUsage ∧ SamePort s t)

/-- 40_pin_driver.md R112, R113: `DRV_GET` on every signal; the level is bit `p` of one draw, whatever the
pin's mode. Nothing else changes but the event and the count of draws. That count, and the free word it names, are
the model's choice (notes/assumptions/7.md). -/
def Obligations.DrvGetReturnsTheDrawnLevel : Prop :=
  ∀ (s : State) (sig : Signal),
    (s.alloc = none → exec (.drvGet sig) s = .fault .uninitDriver) ∧
    (s.alloc.isSome = true → s.pinOf sig = none →
      exec (.drvGet sig) s = .next { s with completions := s.completions ++ [⟨0, none⟩] }) ∧
    (∀ p, s.pinOf sig = some p →
      exec (.drvGet sig) s = .next { s with
        events := s.events ++ [.read .input (Config.inputOracle s.draws)]
        draws := s.draws + 1
        completions := s.completions ++
          [⟨if (Config.inputOracle s.draws).getLsbD p.val then 1 else 0, none⟩] })

/-- 40_pin_driver.md R114: `DRV_ISALLOC` on every signal; it changes nothing. -/
def Obligations.DrvIsAllocReportsTheEntry : Prop :=
  ∀ (s : State) (sig : Signal),
    (s.alloc = none → exec (.drvIsAlloc sig) s = .fault .uninitDriver) ∧
    (s.alloc.isSome = true →
      exec (.drvIsAlloc sig) s = .next { s with
        completions := s.completions ++ [⟨if (s.pinOf sig).isSome then 1 else 0, none⟩] })

/-! ### TAP state machine -/

/-- 41_tap_controller.md R150: `TAP_INIT` completes in every state and only marks the cache unknown. -/
def Obligations.TapInitMarksUnknown : Prop :=
  ∀ s : State, exec .tapInit s = .next { s with
    curState := some .unknown, completions := s.completions ++ [⟨0, none⟩] }

/-- 41_tap_controller.md R153: `TAP_GETSTATE` returns the code of the cached state, zero-extended, and
changes nothing. -/
def Obligations.TapGetStateReadsTheCache : Prop :=
  ∀ s : State,
    (s.curState = none → exec .tapGetState s = .fault .uninitTap) ∧
    (∀ c, s.curState = some c →
      exec .tapGetState s = .next { s with completions := s.completions ++ [⟨c.code.setWidth 16, none⟩] })

/-- 60_exceptions.md R203, with the order of R204(2): the two faults, their codes, and where they arise. -/
def Obligations.UnwrittenReadsFault : Prop :=
  Fault.uninitDriver.code = some 32 ∧ Fault.uninitTap.code = some 33 ∧
  ∀ s : State,
    (s.alloc = none → ∀ (sig : Signal) (f : BitVec 8) (v : Bool),
      exec (.drvCfg sig f) s = .fault .uninitDriver ∧ exec (.drvSet sig v) s = .fault .uninitDriver ∧
      exec (.drvGet sig) s = .fault .uninitDriver ∧ exec (.drvIsAlloc sig) s = .fault .uninitDriver) ∧
    (s.curState = none →
      exec .tapGetState s = .fault .uninitTap ∧ ∀ g, exec (.tapSetState g) s = .fault .uninitTap) ∧
    (s.alloc = none → ∀ (c : TapState) (n : TapNode), s.curState = some c →
      (n = .reset ∨ c ≠ .node n) → exec (.tapSetState (.node n)) s = .fault .uninitDriver)

/-- 41_tap_controller.md R152(b): target `Unknown` only marks the cache, from any written cached state and
with the driver not yet initialised too. -/
def Obligations.SetStateUnknownOnlyMarks : Prop :=
  ∀ (s : State) (c : TapState), s.curState = some c →
    exec (.tapSetState .unknown) s = .next { s with
      curState := some .unknown, completions := s.completions ++ [⟨0, none⟩] }

/-- 41_tap_controller.md R152(a): a target equal to the cached state issues nothing, unless it is `Reset` and
TRST is allocated (then `SetStateResetPulsesTrst`). -/
def Obligations.SetStateHereIssuesNothing : Prop :=
  ∀ (s : State) (n : TapNode), s.curState = some (.node n) →
    (n = .reset → s.alloc.isSome = true ∧ s.pinOf .trst = none) →
    exec (.tapSetState (.node n)) s = .next { s with completions := s.completions ++ [⟨0, none⟩] }

/-- 41_tap_controller.md R151 bullet 2 and R146: target `Reset` with TRST allocated is one `HW_RESET` from
every written cached state. It leaves TRST high and, if TMS is on an output, TMS high. -/
def Obligations.SetStateResetPulsesTrst : Prop :=
  ∀ (s : State) (c : TapState) (r : Pin), s.curState = some c → s.pinOf .trst = some r →
    ∃ t, exec (.tapSetState (.node .reset)) s = .next t ∧
      t.curState = some (.node .reset) ∧ t.events = s.events ++ hwResetEvents s ∧
      ((s.pin r).cfg.mode ≠ .input → (t.pin r).out = true) ∧
      (∀ m, s.pinOf .tms = some m → (s.pin m).cfg.mode ≠ .input → (t.pin m).out = true) ∧
      t.completions = s.completions ++ [⟨0, none⟩]

/-- 41_tap_controller.md R142, R148, R151 bullet 3, R154, R155: from a state, with no hardware shortcut, the
walk reaches the target, emits the events of one `STEP` per TMS level of the table, and those levels are a
shortest way in the full graph. -/
def Obligations.SetStateWalksAShortestWay : Prop :=
  ∀ (s : State) (c n : TapNode), s.curState = some (.node c) → s.alloc.isSome = true →
    (n = .reset → s.pinOf .trst = none) →
    ShortestWay c n (walkLevels c n) ∧
    ∃ t, exec (.tapSetState (.node n)) s = .next t ∧
      t.curState = some (.node n) ∧
      t.events = s.events ++ ((walkLevels c n).map (stepEvents s)).flatten ∧
      t.completions = s.completions ++ [⟨0, none⟩]

/-- 41_tap_controller.md R152(c), (d): from `Unknown`, one reset and then the walk from `Reset`. -/
def Obligations.SetStateFromUnknownResetsFirst : Prop :=
  ∀ (s : State) (n : TapNode), s.curState = some .unknown → s.alloc.isSome = true →
    ∃ t, exec (.tapSetState (.node n)) s = .next t ∧
      t.curState = some (.node n) ∧
      t.events = s.events ++ (if (s.pinOf .trst).isSome then hwResetEvents s else swResetEvents s) ++
        ((walkLevels .reset n).map (stepEvents s)).flatten ∧
      t.completions = s.completions ++ [⟨0, none⟩]

/-- 41_tap_controller.md R155: a walk takes as many `STEP`s, one hold each, as the table gives levels; that
number is the shortest-path length in the full graph; it is at most 8, reached by three pairs, and at most 7
from `Reset`; and how the 256 lengths are distributed. -/
def Obligations.WalksTakeAtMostEightSteps : Prop :=
  (∀ (s : State) (c n : TapNode), s.curState = some (.node c) → s.alloc.isSome = true →
    (n = .reset → s.pinOf .trst = none) →
    ∃ t, exec (.tapSetState (.node n)) s = .next t ∧
      (t.events.drop s.events.length).countP (fun e => decide (e = .hold .dSettle)) =
        (walkLevels c n).length) ∧
  (∀ c n : TapNode, runLevels c (walkLevels c n) = n ∧
    ∀ levels, runLevels c levels = n → (walkLevels c n).length ≤ levels.length) ∧
  (∀ c n : TapNode, (walkLevels c n).length ≤ 8 ∧
    ((walkLevels c n).length = 8 ↔ (c = .drCapture ∨ c = .drShift ∨ c = .drPause) ∧ n = .irExit2)) ∧
  (∀ n : TapNode, (walkLevels .reset n).length ≤ 7 ∧ ((walkLevels .reset n).length = 7 ↔ n = .irExit2)) ∧
  (List.range 9).map (fun k => nodePairs.countP fun (c, n) => (walkLevels c n).length == k) =
    [16, 26, 38, 52, 42, 40, 26, 13, 3]

/-- 41_tap_controller.md R158: whatever its target, a `TAP_SETSTATE` that completes leaves every register but
`CUR_STATE` and the latches of the TMS, TCK and TRST pins, and emits only set/reset writes to those pins and
holds. -/
def Obligations.SetStateTouchesOnlyItsThreePins : Prop :=
  ∀ (s t : State) (g : TapState), exec (.tapSetState g) s = .next t →
    t.curState = some g ∧ t.alloc = s.alloc ∧ t.pinUsage = s.pinUsage ∧ SamePort s t ∧
    t.completions = s.completions ++ [⟨0, none⟩] ∧
    (∀ q, (t.pin q).cfg = (s.pin q).cfg) ∧
    (∀ q, s.pinOf .tms ≠ some q → s.pinOf .tck ≠ some q → s.pinOf .trst ≠ some q → t.pin q = s.pin q) ∧
    ∃ new, t.events = s.events ++ new ∧
      ∀ e ∈ new, e = .hold .dSettle ∨
        ∃ (sig : Signal) (p : Pin) (v : Bool), (sig = .tms ∨ sig = .tck ∨ sig = .trst) ∧
          s.pinOf sig = some p ∧ e = driveEvent p v

/-- 41_tap_controller.md R156: a walk of one step or more into a stable state leaves the TMS latch at the
level that holds that state. (The hold edges are the spec's general knowledge, notes/assumptions/17.md.) -/
def Obligations.WalkLeavesTmsHoldingTheState : Prop :=
  ∀ (s : State) (c n : TapNode) (m : Pin), s.curState = some (.node c) → c ≠ n → stableNode n = true →
    (n = .reset → s.pinOf .trst = none) →
    s.pinOf .tms = some m → (s.pin m).cfg.mode = .output → s.pinOf .tck ≠ some m →
    ∃ t, exec (.tapSetState (.node n)) s = .next t ∧ ieeeNext n (t.pin m).out = n

/-- 41_tap_controller.md R142: the 26 rows, each condition written out as a list of targets. -/
def Obligations.NextIsTheTwentySixRowTable : Prop :=
  ∀ t : TapNode,
    (t ≠ .reset → next (.node .reset) (.node t) = some (false, .idle)) ∧
    (t ≠ .idle → next (.node .idle) (.node t) = some (true, .drScan)) ∧
    (t ≠ .drScan → next (.node .drScan) (.node t) = some
      (if t ∈ [TapNode.drCapture, .drShift, .drExit1, .drPause, .drExit2, .drUpdate] then (false, .drCapture)
       else (true, .irScan))) ∧
    (t ≠ .drCapture → next (.node .drCapture) (.node t) = some
      (if t = .drShift then (false, .drShift) else (true, .drExit1))) ∧
    (t ≠ .drShift → next (.node .drShift) (.node t) = some (true, .drExit1)) ∧
    (t ≠ .drExit1 → next (.node .drExit1) (.node t) = some
      (if t ∈ [TapNode.drPause, .drExit2, .drShift] then (false, .drPause) else (true, .drUpdate))) ∧
    (t ≠ .drPause → next (.node .drPause) (.node t) = some (true, .drExit2)) ∧
    (t ≠ .drExit2 → next (.node .drExit2) (.node t) = some
      (if t ∈ [TapNode.drPause, .drExit1, .drShift] then (false, .drShift) else (true, .drUpdate))) ∧
    (t ≠ .drUpdate → next (.node .drUpdate) (.node t) = some
      (if t = .idle then (false, .idle) else (true, .drScan))) ∧
    (t ≠ .irScan → next (.node .irScan) (.node t) = some
      (if t ∈ [TapNode.irCapture, .irShift, .irExit1, .irPause, .irExit2, .irUpdate] then (false, .irCapture)
       else (true, .reset))) ∧
    (t ≠ .irCapture → next (.node .irCapture) (.node t) = some
      (if t = .irShift then (false, .irShift) else (true, .irExit1))) ∧
    (t ≠ .irShift → next (.node .irShift) (.node t) = some (true, .irExit1)) ∧
    (t ≠ .irExit1 → next (.node .irExit1) (.node t) = some
      (if t ∈ [TapNode.irPause, .irExit2, .irShift] then (false, .irPause) else (true, .irUpdate))) ∧
    (t ≠ .irPause → next (.node .irPause) (.node t) = some (true, .irExit2)) ∧
    (t ≠ .irExit2 → next (.node .irExit2) (.node t) = some
      (if t ∈ [TapNode.irPause, .irExit1, .irShift] then (false, .irShift) else (true, .irUpdate))) ∧
    (t ≠ .irUpdate → next (.node .irUpdate) (.node t) = some
      (if t = .idle then (false, .idle) else (true, .drScan)))

/-- 41_tap_controller.md R159: five levels of 1 lead to `Reset` from every state, how many each state needs,
and that no smaller number drains every state. -/
def Obligations.FivePulsesDrainEveryState : Prop :=
  (∀ x : TapNode, runLevels x (List.replicate 5 true) = .reset) ∧
  (∀ (x : TapNode) (k : Nat),
    x ∈ (match k with
      | 0 => [TapNode.reset]
      | 1 => [.irScan]
      | 2 => [.drScan]
      | 3 => [.idle, .drUpdate, .irUpdate]
      | 4 => [.drExit1, .drExit2, .irExit1, .irExit2]
      | 5 => [.drCapture, .drShift, .drPause, .irCapture, .irShift, .irPause]
      | _ => ([] : List TapNode)) →
    runLevels x (List.replicate k true) = .reset ∧
    ∀ j < k, runLevels x (List.replicate j true) ≠ .reset) ∧
  ∀ k < 5, ∃ x : TapNode, runLevels x (List.replicate k true) ≠ .reset

/-- 40_pin_driver.md R116: the events of `CLOCK` with TCK on an output, with TCK on an input, and with TCK
unallocated, and that it changes no latch but TCK's, which it leaves low. -/
def Obligations.ClockPulsesTck : Prop :=
  ∀ s : State,
    (∀ k, s.pinOf .tck = some k → (s.pin k).cfg.mode ≠ .input →
      (clock s).events = s.events ++
        [.write .setReset (oneShl k.val), .hold .dSettle, .write .setReset (oneShl (k.val + 16))] ∧
      ∀ q, (clock s).pin q = if q = k then { s.pin k with out := false } else s.pin q) ∧
    ((s.pinOf .tck = none ∨ ∃ k, s.pinOf .tck = some k ∧ (s.pin k).cfg.mode = .input) →
      (clock s).events = s.events ++ [.hold .dSettle] ∧ ∀ q, (clock s).pin q = s.pin q)

/-- 41_tap_controller.md R148: one `STEP` issues the four events and moves the cache to the row's next state,
with TCK and TMS on output pins. -/
def Obligations.OneStepOfAWalk : Prop :=
  ∀ (s : State) (c n : TapNode) (b : Bool) (g : TapState) (m k : Pin), s.curState = some (.node c) →
    next (.node c) g = some (b, n) → s.pinOf .tms = some m → s.pinOf .tck = some k →
    (s.pin m).cfg.mode = .output → (s.pin k).cfg.mode = .output →
    ∃ t, tapStep g s = some t ∧ t.curState = some (.node n) ∧
      t.events = s.events ++
        [.write .setReset (if b then oneShl m.val else oneShl (m.val + 16)),
         .write .setReset (oneShl k.val), .hold .dSettle, .write .setReset (oneShl (k.val + 16))]

/-- 41_tap_controller.md R146, R147: the events of the two resets, and the levels they leave, with the signals on
output pins of their own. -/
def Obligations.ResetSequences : Prop :=
  ∀ (s : State) (m k : Pin), s.pinOf .tms = some m → (s.pin m).cfg.mode = .output →
    s.pinOf .tck = some k → (s.pin k).cfg.mode = .output → m ≠ k →
    ((swReset s).events = s.events ++ [.write .setReset (oneShl m.val)] ++
        (List.replicate 5 [Event.write .setReset (oneShl k.val), .hold .dSettle,
          .write .setReset (oneShl (k.val + 16))]).flatten ∧
      ((swReset s).pin m).out = true ∧ ((swReset s).pin k).out = false) ∧
    ∀ r : Pin, s.pinOf .trst = some r → (s.pin r).cfg.mode = .output → r ≠ m → r ≠ k →
      (hwReset s).events = s.events ++
        [.write .setReset (oneShl m.val), .write .setReset (oneShl (r.val + 16)), .hold .dSettle,
         .write .setReset (oneShl r.val)] ∧
      ((hwReset s).pin m).out = true ∧ ((hwReset s).pin r).out = true ∧ (hwReset s).pin k = s.pin k

/-- 41_tap_controller.md R142, R144, R145: every row of the table is an edge of the full graph and never stays
in place. That the function is undefined outside the domain of R142 is the model's choice, which R145 leaves open
(notes/assumptions/16.md). -/
def Obligations.NextFollowsTheGraph : Prop :=
  ∀ c t : TapState,
    (∀ m n, next c t = some (m, n) → ∃ c', c = .node c' ∧ ieeeNext c' m = n ∧ n ≠ c') ∧
    (next c t = none ↔ (c = t ∨ c = .unknown ∨ t = .unknown))

/-- 70_reset_and_hazards.md R233, 95_test_vectors.md P5: with TCK unallocated a walk still moves the cache; it
puts out TMS writes and holds but no write to TCK, and a target whose TCK terminal shows one level stays where it
was. (A freed TCK may make edges of its own, 93_implementation_defined.md I5; they are draws,
notes/assumptions/8.md.) -/
def Obligations.WalkWithoutTckLeavesAStillTarget : Prop :=
  ∀ (s : State) (c n : TapNode), s.curState = some (.node c) → s.alloc.isSome = true →
    (n = .reset → s.pinOf .trst = none) → s.pinOf .tck = none →
    ∃ t, exec (.tapSetState (.node n)) s = .next t ∧ t.curState = some (.node n) ∧
      t.events = s.events ++
        ((walkLevels c n).map fun v => setEvents s .tms v ++ [.hold .dSettle]).flatten ∧
      ∀ v, TerminalsStill s v → t.target.phys = s.target.phys

/-! ### The target -/

/-- 41_tap_controller.md R157, R159, R146, R147: under the premises, `TAP_SETSTATE` brings the target to its
target state, from every cached state, `Unknown` with any `PHYS` among them, and the premises hold again. If it
runs `HW_RESET`, the target's TRST must be wired to the pin that drives (R157). How P2's last alternative is read
is the model's (notes/assumptions/28.md); so is P4, that no other agent drives the wires
(notes/assumptions/18.md). -/
def Obligations.SetStateMovesTheTarget : Prop :=
  ∀ (s : State) (n : TapNode), Linked s → CacheTrue s → s.curState.isSome = true → HardResetReaches s n →
    ∃ t, exec (.tapSetState (.node n)) s = .next t ∧
      t.curState = some (.node n) ∧ t.target.phys = n ∧ Linked t ∧ CacheTrue t

/-- 10_state.md R34: cache coherence. From a state where the wiring premises hold and the cache is true, a step with
no command waiting, and a step that runs a command keeping P1 to P3, the caller's edges that hold the state among
them, leave them so; and TCK stays low but for the caller's own `DRV_SET TCK, 1`. How P2's last alternative is read
is the model's (notes/assumptions/28.md); so is P4 (notes/assumptions/18.md). -/
def Obligations.StepKeepsTheCacheTrue : Prop :=
  ∀ s t : State,
    (s.port = [] ∨ ∃ w rest i, s.port = w :: rest ∧ decode w = .command i ∧ KeepsLink s i) →
    Wired s → CacheTrue s → step s = .next t →
    Wired t ∧ CacheTrue t ∧
      (LatchHolds .tck false s →
        (∀ w rest, s.port = w :: rest → decode w ≠ .command (.drvSet .tck true)) → LatchHolds .tck false t)

/-- 70_reset_and_hazards.md R231: allocating TRST to the pin the target's TRST is wired to asserts it at once;
the cache does not record it. That no other agent drives the wire is the model's (notes/assumptions/18.md). -/
def Obligations.AllocatingTrstResetsTheTarget : Prop :=
  ∀ (s : State) (p : Pin), s.driverReady = true → (s.used p = true → s.owner p = some .trst) →
    s.pinOf .trst ≠ some p → s.params.targetHasTrst = true → s.params.wiring.trst = some p →
    ∃ t, exec (.drvCfg .trst (BitVec.ofNat 8 p.val)) s = .next t ∧
      t.target.phys = .reset ∧ t.curState = s.curState

/-- 70_reset_and_hazards.md R231, 40_pin_driver.md R111(d): `DRV_SET TRST, 0` asserts TRST at the target, which
the cache does not record; and while the latch is low a walk moves the cache and the target stays in `Reset`. That
the target sees no other driver of its wire is the model's (notes/assumptions/18.md). -/
def Obligations.TrstLowHoldsTheTarget : Prop :=
  (∀ (s : State) (r : Pin), TrstDriven s r →
    ∃ t, exec (.drvSet .trst false) s = .next t ∧
      t.target.phys = .reset ∧ (t.pin r).out = false ∧ t.curState = s.curState) ∧
  (∀ (s : State) (c n : TapNode) (r : Pin), TrstDriven s r → Inv s → (s.pin r).out = false →
    s.target.phys = .reset → s.curState = some (.node c) → n ≠ .reset →
    ∃ t, exec (.tapSetState (.node n)) s = .next t ∧
      t.curState = some (.node n) ∧ t.target.phys = .reset ∧ (t.pin r).out = false)

/-- 70_reset_and_hazards.md R232: the caller's own TCK edge moves the target by the TMS level that stands, and
the cache does not record it. That the target takes the rising edge, and the graph's hold edges, are PRESUMED (the
spec's own general knowledge, notes/assumptions/17.md); P4 is the model's (notes/assumptions/18.md). -/
def Obligations.CallerClockMovesOnlyTheTarget : Prop :=
  ∀ (s : State) (m : Pin), Linked s → TrstReleased s → s.pinOf .tms = some m →
    ∃ t, exec (.drvSet .tck true) s = .next t ∧
      t.target.phys = ieeeNext s.target.phys (s.pin m).out ∧ t.curState = s.curState

/-- 70_reset_and_hazards.md R232, 40_pin_driver.md R117(c): with TCK left high, the first pulse of a walk of any
length is lost at the target, which takes the other levels from wherever it is, while the cache reaches the walk's
target. That only a rising edge counts is PRESUMED (the spec's own general knowledge, notes/assumptions/17.md); P4
is the model's (notes/assumptions/18.md). -/
def Obligations.TckLeftHighLosesAPulse : Prop :=
  ∀ (s : State) (c n : TapNode), LinkedTckHigh s → TrstReleased s →
    s.curState = some (.node c) → (n = .reset → s.pinOf .trst = none) →
    ∃ t, exec (.tapSetState (.node n)) s = .next t ∧ t.curState = some (.node n) ∧
      t.target.phys = runLevels s.target.phys (walkLevels c n).tail

/-- The same for `SW_RESET` (41_tap_controller.md R147, 40_pin_driver.md R117(c)): with TCK left high and no TRST,
the target gets four of the five reset pulses and then the walk from `Reset`, and the cache reaches the walk's
target. The rising edge is PRESUMED (notes/assumptions/17.md); P4 is the model's (notes/assumptions/18.md). -/
def Obligations.TckLeftHighShortensTheSoftwareReset : Prop :=
  ∀ (s : State) (n : TapNode), LinkedTckHigh s → s.pinOf .trst = none → s.curState = some .unknown →
    ∃ t, exec (.tapSetState (.node n)) s = .next t ∧ t.curState = some (.node n) ∧
      t.target.phys = runLevels s.target.phys (List.replicate 4 true ++ walkLevels .reset n)

/-- 10_state.md R33: no command reads `PHYS`. Two runs of a command that differ only in the target, the draws
being equal, end the same way and leave states that differ only in the target. R33 names `DRV_GET` of TDO as a
channel: what it reads is a draw, and that the draw is no function of the target is the model's choice
(notes/assumptions/7.md, 21.md). -/
def Obligations.CommandsDoNotReadTheTarget : Prop :=
  ∀ (i : Instr) (s : State) (u : Target),
    (∀ t, exec i s = .next t → ∃ u', exec i { s with target := u } = .next { t with target := u' }) ∧
    (∀ f, exec i s = .fault f → exec i { s with target := u } = .fault f)

/-! ### The whole machine -/

/-- 10_state.md R26, R27: every step keeps the allocation invariant and the pin-configuration invariant. -/
def Obligations.StepKeepsAllocAndPins : Prop :=
  ∀ s t : State, Inv s → step s = .next t → Inv t

/-- The invariant of `StepKeepsAllocAndPins` at power-on, and after `DRV_INIT` from any state. -/
def Obligations.AllocAndPinsStart : Prop :=
  Inv State.reset ∧ ∀ s t : State, exec .drvInit s = .next t → Inv t

/-- 10_state.md R28: `ALLOC` and `PIN_USAGE` change only through `DRV_INIT` and `DRV_CFG`, `CUR_STATE` only
through `TAP_INIT` and `TAP_SETSTATE`. -/
def Obligations.OneWriterPerRegister : Prop :=
  ∀ (i : Instr) (s t : State), exec i s = .next t →
    (i ≠ .drvInit → (∀ sig f, i ≠ .drvCfg sig f) → t.alloc = s.alloc ∧ t.pinUsage = s.pinUsage) ∧
    (i ≠ .tapInit → (∀ g, i ≠ .tapSetState g) → t.curState = s.curState)

/-- 30_encoding.md R90 with its table, 00_scope.md R13: a command that completes gives exactly one response, the
table's, only appends to the trace, and takes nothing from the stream. The level `DRV_GET` reads is a bit of a free
word; that the word is named by a count of draws in the state is the model's choice (DESIGN CHOICE,
notes/assumptions/7.md). -/
def Obligations.OneResponseAndAGrowingTrace : Prop :=
  ∀ (i : Instr) (s t : State), exec i s = .next t →
    (∃ c, t.completions = s.completions ++ [c] ∧ c.response = responseOf i s c.failure.isSome) ∧ (∃ new, t.events = s.events ++ new) ∧
    t.port = s.port ∧ t.params = s.params

/-- 60_exceptions.md R201, R203: once both `Init` commands have run, every command completes, and the
registers stay written. -/
def Obligations.InitialisedNeverFaults : Prop :=
  ∀ (i : Instr) (s : State), Initialised s → ∃ t, exec i s = .next t ∧ Initialised t

/-- 10_state.md R27, R111(a): with the invariants, `DRV_SET` on TDO has no effect. -/
def Obligations.SettingTdoHasNoEffect : Prop :=
  ∀ (s : State) (v : Bool), Inv s → s.driverReady = true →
    exec (.drvSet .tdo v) s = .next { s with completions := s.completions ++ [⟨0, none⟩] }
end

