-- ==== Sys2Proof/Laws/State.lean ====
section
/-! SUPPORT. One lemma per field of each shared operation over State, so that no proof unfolds a record
update. -/

namespace Sys2Proof.Machine

/-! ### emit -/

@[simp] theorem emit_port (s : State) (e : Event) : (s.emit e).port = s.port := rfl
@[simp] theorem emit_completions (s : State) (e : Event) : (s.emit e).completions = s.completions := rfl
@[simp] theorem emit_curState (s : State) (e : Event) : (s.emit e).curState = s.curState := rfl
@[simp] theorem emit_alloc (s : State) (e : Event) : (s.emit e).alloc = s.alloc := rfl
@[simp] theorem emit_pinUsage (s : State) (e : Event) : (s.emit e).pinUsage = s.pinUsage := rfl
@[simp] theorem emit_pins (s : State) (e : Event) : (s.emit e).pins = s.pins := rfl
@[simp] theorem emit_clkenReg (s : State) (e : Event) : (s.emit e).clkenReg = s.clkenReg := rfl
@[simp] theorem emit_events (s : State) (e : Event) : (s.emit e).events = s.events ++ [e] := rfl
@[simp] theorem emit_target (s : State) (e : Event) : (s.emit e).target = s.target := rfl
@[simp] theorem emit_params (s : State) (e : Event) : (s.emit e).params = s.params := rfl
@[simp] theorem emit_draws (s : State) (e : Event) : (s.emit e).draws = s.draws := rfl

/-! ### react -/

@[simp] theorem react_port (s : State) : (s.react).port = s.port := rfl
@[simp] theorem react_completions (s : State) : (s.react).completions = s.completions := rfl
@[simp] theorem react_curState (s : State) : (s.react).curState = s.curState := rfl
@[simp] theorem react_alloc (s : State) : (s.react).alloc = s.alloc := rfl
@[simp] theorem react_pinUsage (s : State) : (s.react).pinUsage = s.pinUsage := rfl
@[simp] theorem react_pins (s : State) : (s.react).pins = s.pins := rfl
@[simp] theorem react_clkenReg (s : State) : (s.react).clkenReg = s.clkenReg := rfl
@[simp] theorem react_events (s : State) : (s.react).events = s.events := rfl
@[simp] theorem react_target (s : State) : (s.react).target = s.target.observe s.params s.pins := rfl
@[simp] theorem react_params (s : State) : (s.react).params = s.params := rfl
@[simp] theorem react_draws (s : State) : (s.react).draws = s.draws := rfl

/-! ### setAlloc -/

@[simp] theorem setAlloc_port (s : State) (g : Signal) (e : Option Pin) : (s.setAlloc g e).port = s.port := rfl
@[simp] theorem setAlloc_completions (s : State) (g : Signal) (e : Option Pin) : (s.setAlloc g e).completions = s.completions := rfl
@[simp] theorem setAlloc_curState (s : State) (g : Signal) (e : Option Pin) : (s.setAlloc g e).curState = s.curState := rfl
@[simp] theorem setAlloc_alloc (s : State) (g : Signal) (e : Option Pin) : (s.setAlloc g e).alloc = s.alloc.map fun a => a.set g e := rfl
@[simp] theorem setAlloc_pinUsage (s : State) (g : Signal) (e : Option Pin) : (s.setAlloc g e).pinUsage = s.pinUsage := rfl
@[simp] theorem setAlloc_pins (s : State) (g : Signal) (e : Option Pin) : (s.setAlloc g e).pins = s.pins := rfl
@[simp] theorem setAlloc_clkenReg (s : State) (g : Signal) (e : Option Pin) : (s.setAlloc g e).clkenReg = s.clkenReg := rfl
@[simp] theorem setAlloc_events (s : State) (g : Signal) (e : Option Pin) : (s.setAlloc g e).events = s.events := rfl
@[simp] theorem setAlloc_target (s : State) (g : Signal) (e : Option Pin) : (s.setAlloc g e).target = s.target := rfl
@[simp] theorem setAlloc_params (s : State) (g : Signal) (e : Option Pin) : (s.setAlloc g e).params = s.params := rfl
@[simp] theorem setAlloc_draws (s : State) (g : Signal) (e : Option Pin) : (s.setAlloc g e).draws = s.draws := rfl

/-! ### setUsage -/

@[simp] theorem setUsage_port (s : State) (p : Pin) (b : Bool) : (s.setUsage p b).port = s.port := rfl
@[simp] theorem setUsage_completions (s : State) (p : Pin) (b : Bool) : (s.setUsage p b).completions = s.completions := rfl
@[simp] theorem setUsage_curState (s : State) (p : Pin) (b : Bool) : (s.setUsage p b).curState = s.curState := rfl
@[simp] theorem setUsage_alloc (s : State) (p : Pin) (b : Bool) : (s.setUsage p b).alloc = s.alloc := rfl
@[simp] theorem setUsage_pinUsage (s : State) (p : Pin) (b : Bool) : (s.setUsage p b).pinUsage = s.pinUsage.map fun u => usageSet u p b := rfl
@[simp] theorem setUsage_pins (s : State) (p : Pin) (b : Bool) : (s.setUsage p b).pins = s.pins := rfl
@[simp] theorem setUsage_clkenReg (s : State) (p : Pin) (b : Bool) : (s.setUsage p b).clkenReg = s.clkenReg := rfl
@[simp] theorem setUsage_events (s : State) (p : Pin) (b : Bool) : (s.setUsage p b).events = s.events := rfl
@[simp] theorem setUsage_target (s : State) (p : Pin) (b : Bool) : (s.setUsage p b).target = s.target := rfl
@[simp] theorem setUsage_params (s : State) (p : Pin) (b : Bool) : (s.setUsage p b).params = s.params := rfl
@[simp] theorem setUsage_draws (s : State) (p : Pin) (b : Bool) : (s.setUsage p b).draws = s.draws := rfl

/-! ### setCur -/

@[simp] theorem setCur_port (s : State) (t : TapState) : (s.setCur t).port = s.port := rfl
@[simp] theorem setCur_completions (s : State) (t : TapState) : (s.setCur t).completions = s.completions := rfl
@[simp] theorem setCur_curState (s : State) (t : TapState) : (s.setCur t).curState = some t := rfl
@[simp] theorem setCur_alloc (s : State) (t : TapState) : (s.setCur t).alloc = s.alloc := rfl
@[simp] theorem setCur_pinUsage (s : State) (t : TapState) : (s.setCur t).pinUsage = s.pinUsage := rfl
@[simp] theorem setCur_pins (s : State) (t : TapState) : (s.setCur t).pins = s.pins := rfl
@[simp] theorem setCur_clkenReg (s : State) (t : TapState) : (s.setCur t).clkenReg = s.clkenReg := rfl
@[simp] theorem setCur_events (s : State) (t : TapState) : (s.setCur t).events = s.events := rfl
@[simp] theorem setCur_target (s : State) (t : TapState) : (s.setCur t).target = s.target := rfl
@[simp] theorem setCur_params (s : State) (t : TapState) : (s.setCur t).params = s.params := rfl
@[simp] theorem setCur_draws (s : State) (t : TapState) : (s.setCur t).draws = s.draws := rfl

/-! ### pinConfig -/

@[simp] theorem pinConfig_port (s : State) (p : Pin) (c : PinCfg) : (pinConfig p c s).port = s.port := rfl
@[simp] theorem pinConfig_completions (s : State) (p : Pin) (c : PinCfg) : (pinConfig p c s).completions = s.completions := rfl
@[simp] theorem pinConfig_curState (s : State) (p : Pin) (c : PinCfg) : (pinConfig p c s).curState = s.curState := rfl
@[simp] theorem pinConfig_alloc (s : State) (p : Pin) (c : PinCfg) : (pinConfig p c s).alloc = s.alloc := rfl
@[simp] theorem pinConfig_pinUsage (s : State) (p : Pin) (c : PinCfg) : (pinConfig p c s).pinUsage = s.pinUsage := rfl
@[simp] theorem pinConfig_clkenReg (s : State) (p : Pin) (c : PinCfg) : (pinConfig p c s).clkenReg = s.clkenReg := rfl
@[simp] theorem pinConfig_events (s : State) (p : Pin) (c : PinCfg) : (pinConfig p c s).events = s.events ++ [.config p c] := rfl
@[simp] theorem pinConfig_params (s : State) (p : Pin) (c : PinCfg) : (pinConfig p c s).params = s.params := rfl
@[simp] theorem pinConfig_draws (s : State) (p : Pin) (c : PinCfg) : (pinConfig p c s).draws = s.draws := rfl

/-! ### writeSetReset -/

@[simp] theorem writeSetReset_port (s : State) (v : RegWord) : (writeSetReset v s).port = s.port := by simp [writeSetReset]
@[simp] theorem writeSetReset_completions (s : State) (v : RegWord) : (writeSetReset v s).completions = s.completions := by simp [writeSetReset]
@[simp] theorem writeSetReset_curState (s : State) (v : RegWord) : (writeSetReset v s).curState = s.curState := by simp [writeSetReset]
@[simp] theorem writeSetReset_alloc (s : State) (v : RegWord) : (writeSetReset v s).alloc = s.alloc := by simp [writeSetReset]
@[simp] theorem writeSetReset_pinUsage (s : State) (v : RegWord) : (writeSetReset v s).pinUsage = s.pinUsage := by simp [writeSetReset]
@[simp] theorem writeSetReset_clkenReg (s : State) (v : RegWord) : (writeSetReset v s).clkenReg = s.clkenReg := by simp [writeSetReset]
@[simp] theorem writeSetReset_events (s : State) (v : RegWord) : (writeSetReset v s).events = s.events ++ [.write .setReset v] := by simp [writeSetReset]
@[simp] theorem writeSetReset_params (s : State) (v : RegWord) : (writeSetReset v s).params = s.params := by simp [writeSetReset]
@[simp] theorem writeSetReset_draws (s : State) (v : RegWord) : (writeSetReset v s).draws = s.draws := by simp [writeSetReset]

/-! ### readInput -/

@[simp] theorem readInput_port (s : State) : (readInput s).port = s.port := rfl
@[simp] theorem readInput_completions (s : State) : (readInput s).completions = s.completions := rfl
@[simp] theorem readInput_curState (s : State) : (readInput s).curState = s.curState := rfl
@[simp] theorem readInput_alloc (s : State) : (readInput s).alloc = s.alloc := rfl
@[simp] theorem readInput_pinUsage (s : State) : (readInput s).pinUsage = s.pinUsage := rfl
@[simp] theorem readInput_pins (s : State) : (readInput s).pins = s.pins := rfl
@[simp] theorem readInput_clkenReg (s : State) : (readInput s).clkenReg = s.clkenReg := rfl
@[simp] theorem readInput_events (s : State) : (readInput s).events = s.events ++ [.read .input (inputDraw s)] := rfl
@[simp] theorem readInput_target (s : State) : (readInput s).target = s.target := rfl
@[simp] theorem readInput_params (s : State) : (readInput s).params = s.params := rfl
@[simp] theorem readInput_draws (s : State) : (readInput s).draws = s.draws + 1 := rfl

/-! ### readClken -/

@[simp] theorem readClken_port (s : State) : (readClken s).port = s.port := rfl
@[simp] theorem readClken_completions (s : State) : (readClken s).completions = s.completions := rfl
@[simp] theorem readClken_curState (s : State) : (readClken s).curState = s.curState := rfl
@[simp] theorem readClken_alloc (s : State) : (readClken s).alloc = s.alloc := rfl
@[simp] theorem readClken_pinUsage (s : State) : (readClken s).pinUsage = s.pinUsage := rfl
@[simp] theorem readClken_pins (s : State) : (readClken s).pins = s.pins := rfl
@[simp] theorem readClken_clkenReg (s : State) : (readClken s).clkenReg = s.clkenReg := rfl
@[simp] theorem readClken_events (s : State) : (readClken s).events = s.events ++ [.read .clken s.clkenReg] := rfl
@[simp] theorem readClken_target (s : State) : (readClken s).target = s.target := rfl
@[simp] theorem readClken_params (s : State) : (readClken s).params = s.params := rfl
@[simp] theorem readClken_draws (s : State) : (readClken s).draws = s.draws := rfl

/-! ### writeClken -/

@[simp] theorem writeClken_port (s : State) (v : RegWord) : (writeClken v s).port = s.port := rfl
@[simp] theorem writeClken_completions (s : State) (v : RegWord) : (writeClken v s).completions = s.completions := rfl
@[simp] theorem writeClken_curState (s : State) (v : RegWord) : (writeClken v s).curState = s.curState := rfl
@[simp] theorem writeClken_alloc (s : State) (v : RegWord) : (writeClken v s).alloc = s.alloc := rfl
@[simp] theorem writeClken_pinUsage (s : State) (v : RegWord) : (writeClken v s).pinUsage = s.pinUsage := rfl
@[simp] theorem writeClken_pins (s : State) (v : RegWord) : (writeClken v s).pins = s.pins := rfl
@[simp] theorem writeClken_clkenReg (s : State) (v : RegWord) : (writeClken v s).clkenReg = v := rfl
@[simp] theorem writeClken_events (s : State) (v : RegWord) : (writeClken v s).events = s.events ++ [.write .clken v] := rfl
@[simp] theorem writeClken_target (s : State) (v : RegWord) : (writeClken v s).target = s.target := rfl
@[simp] theorem writeClken_params (s : State) (v : RegWord) : (writeClken v s).params = s.params := rfl
@[simp] theorem writeClken_draws (s : State) (v : RegWord) : (writeClken v s).draws = s.draws := rfl

/-! ### enableClock -/

@[simp] theorem enableClock_port (s : State) : (enableClock s).port = s.port := rfl
@[simp] theorem enableClock_completions (s : State) : (enableClock s).completions = s.completions := rfl
@[simp] theorem enableClock_curState (s : State) : (enableClock s).curState = s.curState := rfl
@[simp] theorem enableClock_alloc (s : State) : (enableClock s).alloc = s.alloc := rfl
@[simp] theorem enableClock_pinUsage (s : State) : (enableClock s).pinUsage = s.pinUsage := rfl
@[simp] theorem enableClock_pins (s : State) : (enableClock s).pins = s.pins := rfl
@[simp] theorem enableClock_clkenReg (s : State) : (enableClock s).clkenReg = s.clkenReg ||| clkenMask s.params := rfl
@[simp] theorem enableClock_target (s : State) : (enableClock s).target = s.target := rfl
@[simp] theorem enableClock_params (s : State) : (enableClock s).params = s.params := rfl
@[simp] theorem enableClock_draws (s : State) : (enableClock s).draws = s.draws := rfl

/-! ### hold -/

@[simp] theorem hold_port (s : State) : (hold s).port = s.port := rfl
@[simp] theorem hold_completions (s : State) : (hold s).completions = s.completions := rfl
@[simp] theorem hold_curState (s : State) : (hold s).curState = s.curState := rfl
@[simp] theorem hold_alloc (s : State) : (hold s).alloc = s.alloc := rfl
@[simp] theorem hold_pinUsage (s : State) : (hold s).pinUsage = s.pinUsage := rfl
@[simp] theorem hold_pins (s : State) : (hold s).pins = s.pins := rfl
@[simp] theorem hold_clkenReg (s : State) : (hold s).clkenReg = s.clkenReg := rfl
@[simp] theorem hold_events (s : State) : (hold s).events = s.events ++ [.hold .dSettle] := rfl
@[simp] theorem hold_target (s : State) : (hold s).target = s.target.afterHold.observe s.params s.pins := rfl
@[simp] theorem hold_params (s : State) : (hold s).params = s.params := rfl
@[simp] theorem hold_draws (s : State) : (hold s).draws = s.draws := rfl

/-! ### completed -/

@[simp] theorem completed_port (s : State) (c : Completion) : (s.completed c).port = s.port := rfl
@[simp] theorem completed_completions (s : State) (c : Completion) : (s.completed c).completions = s.completions ++ [c] := rfl
@[simp] theorem completed_curState (s : State) (c : Completion) : (s.completed c).curState = s.curState := rfl
@[simp] theorem completed_alloc (s : State) (c : Completion) : (s.completed c).alloc = s.alloc := rfl
@[simp] theorem completed_pinUsage (s : State) (c : Completion) : (s.completed c).pinUsage = s.pinUsage := rfl
@[simp] theorem completed_pins (s : State) (c : Completion) : (s.completed c).pins = s.pins := rfl
@[simp] theorem completed_clkenReg (s : State) (c : Completion) : (s.completed c).clkenReg = s.clkenReg := rfl
@[simp] theorem completed_events (s : State) (c : Completion) : (s.completed c).events = s.events := rfl
@[simp] theorem completed_target (s : State) (c : Completion) : (s.completed c).target = s.target := rfl
@[simp] theorem completed_params (s : State) (c : Completion) : (s.completed c).params = s.params := rfl
@[simp] theorem completed_draws (s : State) (c : Completion) : (s.completed c).draws = s.draws := rfl

/-! ### clearAlloc -/

@[simp] theorem clearAlloc_port (s : State) : (clearAlloc s).port = s.port := rfl
@[simp] theorem clearAlloc_completions (s : State) : (clearAlloc s).completions = s.completions := rfl
@[simp] theorem clearAlloc_curState (s : State) : (clearAlloc s).curState = s.curState := rfl
@[simp] theorem clearAlloc_alloc (s : State) : (clearAlloc s).alloc = some AllocTable.empty := rfl
@[simp] theorem clearAlloc_pinUsage (s : State) : (clearAlloc s).pinUsage = some 0 := rfl
@[simp] theorem clearAlloc_pins (s : State) : (clearAlloc s).pins = s.pins := rfl
@[simp] theorem clearAlloc_clkenReg (s : State) : (clearAlloc s).clkenReg = s.clkenReg := rfl
@[simp] theorem clearAlloc_events (s : State) : (clearAlloc s).events = s.events := rfl
@[simp] theorem clearAlloc_target (s : State) : (clearAlloc s).target = s.target := rfl
@[simp] theorem clearAlloc_params (s : State) : (clearAlloc s).params = s.params := rfl
@[simp] theorem clearAlloc_draws (s : State) : (clearAlloc s).draws = s.draws := rfl

/-! ### betweenCommands -/

@[simp] theorem betweenCommands_port (s : State) : (betweenCommands s).port = s.port := rfl
@[simp] theorem betweenCommands_completions (s : State) : (betweenCommands s).completions = s.completions := rfl
@[simp] theorem betweenCommands_curState (s : State) : (betweenCommands s).curState = s.curState := rfl
@[simp] theorem betweenCommands_alloc (s : State) : (betweenCommands s).alloc = s.alloc := rfl
@[simp] theorem betweenCommands_pinUsage (s : State) : (betweenCommands s).pinUsage = s.pinUsage := rfl
@[simp] theorem betweenCommands_pins (s : State) : (betweenCommands s).pins = s.pins := rfl
@[simp] theorem betweenCommands_clkenReg (s : State) : (betweenCommands s).clkenReg = clkenAfterOthers s.params s.clkenReg (Config.otherClkenBits s.draws) := rfl
@[simp] theorem betweenCommands_events (s : State) : (betweenCommands s).events = s.events := rfl
@[simp] theorem betweenCommands_target (s : State) : (betweenCommands s).target = s.target.observe s.params s.pins := rfl
@[simp] theorem betweenCommands_params (s : State) : (betweenCommands s).params = s.params := rfl
@[simp] theorem betweenCommands_draws (s : State) : (betweenCommands s).draws = s.draws + 1 := rfl

/-! ### issueNext -/

@[simp] theorem issueNext_port (s : State) (w : Word) : (issueNext w s).port = w :: s.port := rfl
@[simp] theorem issueNext_completions (s : State) (w : Word) : (issueNext w s).completions = s.completions := rfl
@[simp] theorem issueNext_curState (s : State) (w : Word) : (issueNext w s).curState = s.curState := rfl
@[simp] theorem issueNext_alloc (s : State) (w : Word) : (issueNext w s).alloc = s.alloc := rfl
@[simp] theorem issueNext_pinUsage (s : State) (w : Word) : (issueNext w s).pinUsage = s.pinUsage := rfl
@[simp] theorem issueNext_pins (s : State) (w : Word) : (issueNext w s).pins = s.pins := rfl
@[simp] theorem issueNext_clkenReg (s : State) (w : Word) : (issueNext w s).clkenReg = s.clkenReg := rfl
@[simp] theorem issueNext_events (s : State) (w : Word) : (issueNext w s).events = s.events := rfl
@[simp] theorem issueNext_target (s : State) (w : Word) : (issueNext w s).target = s.target := rfl
@[simp] theorem issueNext_params (s : State) (w : Word) : (issueNext w s).params = s.params := rfl
@[simp] theorem issueNext_draws (s : State) (w : Word) : (issueNext w s).draws = s.draws := rfl

/-! ### The accessors that read one field -/

theorem pinOf_congr {s t : State} (h : t.alloc = s.alloc) (g : Signal) : t.pinOf g = s.pinOf g := by
  simp [State.pinOf, h]

theorem owner_congr {s t : State} (h : t.alloc = s.alloc) (p : Pin) : t.owner p = s.owner p := by
  simp [State.owner, h]

theorem used_congr {s t : State} (h : t.pinUsage = s.pinUsage) (p : Pin) : t.used p = s.used p := by
  simp [State.used, h]

theorem pin_congr {s t : State} (h : t.pins = s.pins) (p : Pin) : t.pin p = s.pin p := by
  simp [State.pin, h]

@[simp] theorem emit_pinOf (s : State) (e : Event) (sig : Signal) : (s.emit e).pinOf sig = s.pinOf sig := rfl
@[simp] theorem emit_pin (s : State) (e : Event) (q : Pin) : (s.emit e).pin q = s.pin q := rfl
@[simp] theorem react_pinOf (s : State) (sig : Signal) : (s.react).pinOf sig = s.pinOf sig := rfl
@[simp] theorem react_pin (s : State) (q : Pin) : (s.react).pin q = s.pin q := rfl
@[simp] theorem setAlloc_pin (s : State) (g : Signal) (e : Option Pin) (q : Pin) : (s.setAlloc g e).pin q = s.pin q := rfl
@[simp] theorem setUsage_pinOf (s : State) (p : Pin) (b : Bool) (sig : Signal) : (s.setUsage p b).pinOf sig = s.pinOf sig := rfl
@[simp] theorem setUsage_pin (s : State) (p : Pin) (b : Bool) (q : Pin) : (s.setUsage p b).pin q = s.pin q := rfl
@[simp] theorem setCur_pinOf (s : State) (t : TapState) (sig : Signal) : (s.setCur t).pinOf sig = s.pinOf sig := rfl
@[simp] theorem setCur_pin (s : State) (t : TapState) (q : Pin) : (s.setCur t).pin q = s.pin q := rfl
@[simp] theorem pinConfig_pinOf (s : State) (p : Pin) (c : PinCfg) (sig : Signal) : (pinConfig p c s).pinOf sig = s.pinOf sig := rfl
@[simp] theorem writeSetReset_pinOf (s : State) (v : RegWord) (sig : Signal) : (writeSetReset v s).pinOf sig = s.pinOf sig := pinOf_congr (by simp) sig
@[simp] theorem readInput_pinOf (s : State) (sig : Signal) : (readInput s).pinOf sig = s.pinOf sig := rfl
@[simp] theorem readInput_pin (s : State) (q : Pin) : (readInput s).pin q = s.pin q := rfl
@[simp] theorem readClken_pinOf (s : State) (sig : Signal) : (readClken s).pinOf sig = s.pinOf sig := rfl
@[simp] theorem readClken_pin (s : State) (q : Pin) : (readClken s).pin q = s.pin q := rfl
@[simp] theorem writeClken_pinOf (s : State) (v : RegWord) (sig : Signal) : (writeClken v s).pinOf sig = s.pinOf sig := rfl
@[simp] theorem writeClken_pin (s : State) (v : RegWord) (q : Pin) : (writeClken v s).pin q = s.pin q := rfl
@[simp] theorem enableClock_pinOf (s : State) (sig : Signal) : (enableClock s).pinOf sig = s.pinOf sig := rfl
@[simp] theorem enableClock_pin (s : State) (q : Pin) : (enableClock s).pin q = s.pin q := rfl
@[simp] theorem hold_pinOf (s : State) (sig : Signal) : (hold s).pinOf sig = s.pinOf sig := rfl
@[simp] theorem hold_pin (s : State) (q : Pin) : (hold s).pin q = s.pin q := rfl
@[simp] theorem completed_pinOf (s : State) (c : Completion) (sig : Signal) : (s.completed c).pinOf sig = s.pinOf sig := rfl
@[simp] theorem completed_pin (s : State) (c : Completion) (q : Pin) : (s.completed c).pin q = s.pin q := rfl
@[simp] theorem clearAlloc_pin (s : State) (q : Pin) : (clearAlloc s).pin q = s.pin q := rfl
@[simp] theorem betweenCommands_pinOf (s : State) (sig : Signal) : (betweenCommands s).pinOf sig = s.pinOf sig := rfl
@[simp] theorem betweenCommands_pin (s : State) (q : Pin) : (betweenCommands s).pin q = s.pin q := rfl
@[simp] theorem issueNext_pinOf (s : State) (w : Word) (sig : Signal) : (issueNext w s).pinOf sig = s.pinOf sig := rfl
@[simp] theorem issueNext_pin (s : State) (w : Word) (q : Pin) : (issueNext w s).pin q = s.pin q := rfl

end Sys2Proof.Machine
end

