-- ==== Sys2Proof/Laws/Port.lean ====
section
/-! SUPPORT. What each GPIO primitive does to the pins, said once (20_memory.md R52, R54). -/

namespace Sys2Proof.Machine

theorem pin_ext {s t : State} (h : ∀ q, t.pin q = s.pin q) : t.pins = s.pins := by
  ext i hi : 1
  exact h ⟨i, hi⟩

theorem pinConfig_pin (p q : Pin) (c : PinCfg) (s : State) :
    (pinConfig p c s).pin q = if q = p then { s.pin p with cfg := c } else s.pin q := by
  show (s.pins.set p.val { s.pin p with cfg := c })[q.val] = _
  rw [Vector.getElem_set]
  by_cases h : q = p
  · simp [h]
  · have : p.val ≠ q.val := fun e => h (Fin.ext e.symm)
    simp [h, this, State.pin]

theorem writeSetReset_pin (v : RegWord) (q : Pin) (s : State) :
    (writeSetReset v s).pin q =
      { s.pin q with out := latchAfter v q (s.pin q).out (Config.clashLevel s.events.length q) } := by
  have h : (writeSetReset v s).pins = writeLatches v s.events.length s.pins := by simp [writeSetReset]
  simp only [State.pin, h, writeLatches, Vector.getElem_ofFn]

theorem levelWord_getLsbD_low (p q : Pin) (v : Bool) :
    (levelWord p v).getLsbD q.val = (v && decide (q = p)) := by
  revert p q v; decide

theorem levelWord_getLsbD_high (p q : Pin) (v : Bool) :
    (levelWord p v).getLsbD (q.val + 16) = (!v && decide (q = p)) := by
  revert p q v; decide

theorem latchAfter_levelWord (p q : Pin) (v old free : Bool) :
    latchAfter (levelWord p v) q old free = if q = p then v else old := by
  unfold latchAfter
  rw [levelWord_getLsbD_low, levelWord_getLsbD_high]
  by_cases h : q = p <;> cases v <;> simp [h]

/-- A one-bit set/reset write sets one latch and nothing else (20_memory.md R52, R69). -/
theorem writeSetReset_levelWord_pin (p q : Pin) (v : Bool) (s : State) :
    (writeSetReset (levelWord p v) s).pin q = if q = p then { s.pin p with out := v } else s.pin q := by
  rw [writeSetReset_pin, latchAfter_levelWord]
  by_cases h : q = p <;> simp [h]

theorem resetBit_eq (p : Pin) : resetBit p = levelWord p false := rfl

theorem setBit_eq (p : Pin) : setBit p = levelWord p true := rfl

/-- `0xFFFF0000` drives every latch low (40_pin_driver.md R100). -/
theorem writeSetReset_all_low_pin (q : Pin) (s : State) :
    (writeSetReset 0xFFFF0000 s).pin q = { s.pin q with out := false } := by
  rw [writeSetReset_pin]
  have h : ∀ (q : Pin) (old free : Bool), latchAfter 0xFFFF0000 q old free = false := by decide
  rw [h]

theorem configInputs_pin (l : List Pin) (q : Pin) (s : State) :
    (l.foldl (fun t p => pinConfig p inputCfg t) s).pin q =
      if q ∈ l then { s.pin q with cfg := inputCfg } else s.pin q := by
  induction l generalizing s with
  | nil => simp
  | cons p l ih =>
    rw [List.foldl_cons, ih, pinConfig_pin]
    by_cases h : q = p <;> by_cases h' : q ∈ l <;> simp [h, h']

/-- The fields a run of pin configurations leaves alone. -/
theorem configInputs_fields (l : List Pin) (s : State) :
    let t := l.foldl (fun t p => pinConfig p inputCfg t) s
    t.port = s.port ∧ t.completions = s.completions ∧ t.curState = s.curState ∧ t.alloc = s.alloc ∧
    t.pinUsage = s.pinUsage ∧ t.clkenReg = s.clkenReg ∧ t.params = s.params ∧ t.draws = s.draws ∧
    t.events = s.events ++ l.map (fun p => .config p inputCfg) := by
  induction l generalizing s with
  | nil => simp
  | cons p l ih => simpa using ih (pinConfig p inputCfg s)

theorem usageSet_getLsbD (u : BitVec 16) (p q : Pin) (b : Bool) :
    (usageSet u p b).getLsbD q.val = if q = p then b else u.getLsbD q.val := by
  have hq := q.isLt
  have h' : decide (p.val = q.val) = decide (q = p) := by simp [Fin.ext_iff, eq_comm]
  cases b
  · simp only [usageSet, Bool.false_eq_true, if_false, BitVec.getLsbD_and, BitVec.getLsbD_not,
      BitVec.getLsbD_twoPow, hq, h']
    by_cases h : q = p <;> simp [h]
  · simp only [usageSet, if_true, BitVec.getLsbD_or, BitVec.getLsbD_twoPow, h']
    by_cases h : q = p <;> simp [h]

theorem AllocTable_get_set (a : AllocTable) (g h : Signal) (e : Option Pin) :
    (a.set g e).get h = if h = g then e else a.get h := by
  cases g <;> cases h <;> rfl

theorem setAlloc_pinOf (s : State) (g h : Signal) (e : Option Pin) (ha : s.alloc.isSome) :
    (s.setAlloc g e).pinOf h = if h = g then e else s.pinOf h := by
  obtain ⟨a, ha⟩ := Option.isSome_iff_exists.mp ha
  simp [State.pinOf, ha, AllocTable_get_set]

theorem setUsage_used (s : State) (p q : Pin) (b : Bool) (hu : s.pinUsage.isSome) :
    (s.setUsage p b).used q = if q = p then b else s.used q := by
  obtain ⟨u, hu⟩ := Option.isSome_iff_exists.mp hu
  simp only [State.used, setUsage_pinUsage, hu, Option.map_some, usageSet_getLsbD]

theorem pinFieldOf_pin (p : Pin) : pinFieldOf (BitVec.ofNat 8 p.val) = .pin p := by
  revert p; decide

theorem pinFieldOf_notAllocated : pinFieldOf 0xFF = .notAllocated := by decide

theorem pinFieldOf_outOfRange (f : BitVec 8) (h : 16 ≤ f.toNat) (h' : f ≠ 0xFF) :
    pinFieldOf f = .outOfRange := by
  have : ¬ f.toNat < 16 := by omega
  unfold pinFieldOf
  rw [if_neg h', dif_neg this]

/-- The three cases of a pin field (30_encoding.md R85). -/
theorem pinFieldOf_cases (f : BitVec 8) :
    f = 0xFF ∧ pinFieldOf f = .notAllocated ∨
    (∃ p : Pin, f = BitVec.ofNat 8 p.val ∧ pinFieldOf f = .pin p) ∨
    (16 ≤ f.toNat ∧ f ≠ 0xFF ∧ pinFieldOf f = .outOfRange) := by
  by_cases h : f = 0xFF
  · exact .inl ⟨h, h ▸ pinFieldOf_notAllocated⟩
  · by_cases h' : f.toNat < 16
    · exact .inr (.inl ⟨⟨f.toNat, h'⟩, by simp, by unfold pinFieldOf; rw [if_neg h, dif_pos h']⟩)
    · exact .inr (.inr ⟨by omega, h, pinFieldOf_outOfRange f (by omega) h⟩)

end Sys2Proof.Machine
end

