-- ==== Sys2Proof/Laws/Target.lean ====
section
/-! SUPPORT. What a sample of the target does, said once (20_memory.md R62). -/

namespace Sys2Proof.Machine

@[simp] theorem sample_tckSeen (P : Params) (b : Vector PinRegs 16) (t : Target) :
    (t.sample P b).tckSeen = levelSeen (terminalWire b P.wiring.tck) t.draws := rfl

@[simp] theorem sample_tmsSeen (P : Params) (b : Vector PinRegs 16) (t : Target) :
    (t.sample P b).tmsSeen = levelSeen (terminalWire b P.wiring.tms) (t.draws + 1) := rfl

@[simp] theorem sample_trstSeen (P : Params) (b : Vector PinRegs 16) (t : Target) :
    (t.sample P b).trstSeen = levelSeen (terminalWire b P.wiring.trst) (t.draws + 2) := rfl

/-- A run of samples ends with a sample of some target, unless it is empty. -/
theorem samples_succ_last (P : Params) (b : Vector PinRegs 16) (n : Nat) (t : Target) :
    ∃ u : Target, t.samples P b (n + 1) = u.sample P b := by
  induction n generalizing t with
  | zero => exact ⟨t, rfl⟩
  | succ n ih => exact ih (t.sample P b)

theorem observe_last (P : Params) (b : Vector PinRegs 16) (t : Target) :
    ∃ u : Target, t.observe P b = u.sample P b := by
  unfold Target.observe sampleCount
  split
  · exact ⟨t, rfl⟩
  · exact samples_succ_last P b _ t

/-- What R62 says of a target whose timing premises hold: held in reset, one transition, or none. -/
theorem sampleLevels_phys (P : Params) (tck tms trst : Bool) (t : Target) (hP : TimingPremises P) :
    (t.sampleLevels P tck tms trst).phys =
      if P.targetHasTrst = true ∧ trst = false then .reset
      else if t.tckSeen = false ∧ tck = true then ieeeNext t.phys tms else t.phys := by
  obtain ⟨h1, h2, h3⟩ := hP
  have h : (P.trstRecoveryMet || !P.targetHasTrst) = true := by
    cases hh : P.targetHasTrst
    · simp
    · simp [h3 hh]
  cases hr : P.trstRecoveryMet
  · have hn : P.targetHasTrst = false := by simpa [hr] using h
    simp [Target.sampleLevels, timingMet, h1, h2, hn]
  · simp [Target.sampleLevels, timingMet, h1, h2, hr]

/-- A sample with TCK at the level last seen, and TRST released, leaves the target. -/
theorem sample_still {P : Params} {b : Vector PinRegs 16} {t : Target} {v : Bool}
    (hc : ∀ k, levelSeen (terminalWire b P.wiring.tck) k = v) (hs : t.tckSeen = v)
    (hr : P.targetHasTrst = true → ∀ k, levelSeen (terminalWire b P.wiring.trst) k = true) :
    (t.sample P b).phys = t.phys ∧ (t.sample P b).tckSeen = v := by
  refine ⟨?_, hc _⟩
  simp only [Target.sample, Target.sampleLevels, hc, hs]
  cases hh : P.targetHasTrst
  · cases v <;> simp
  · simp only [hr hh]; cases v <;> simp

theorem samples_still {P : Params} {b : Vector PinRegs 16} {v : Bool} (n : Nat) (t : Target)
    (hc : ∀ k, levelSeen (terminalWire b P.wiring.tck) k = v) (hs : t.tckSeen = v)
    (hr : P.targetHasTrst = true → ∀ k, levelSeen (terminalWire b P.wiring.trst) k = true) :
    (t.samples P b n).phys = t.phys ∧ (t.samples P b n).tckSeen = v := by
  induction n generalizing t with
  | zero => exact ⟨rfl, hs⟩
  | succ n ih =>
    obtain ⟨h1, h2⟩ := sample_still (t := t) hc hs hr
    obtain ⟨h3, h4⟩ := ih _ h2
    exact ⟨h3.trans h1, h4⟩

theorem observe_still {P : Params} {b : Vector PinRegs 16} {t : Target} {v : Bool}
    (hc : ∀ k, levelSeen (terminalWire b P.wiring.tck) k = v) (hs : t.tckSeen = v)
    (hr : P.targetHasTrst = true → ∀ k, levelSeen (terminalWire b P.wiring.trst) k = true) :
    (t.observe P b).phys = t.phys ∧ (t.observe P b).tckSeen = v :=
  samples_still _ t hc hs hr

/-- Whatever a target was, a reaction with TRST driven low leaves it in `Reset` (20_memory.md R62). -/
theorem observe_held {P : Params} {b : Vector PinRegs 16} (t : Target) (hh : P.targetHasTrst = true)
    (hw : ∀ k, levelSeen (terminalWire b P.wiring.trst) k = false) : (t.observe P b).phys = .reset := by
  obtain ⟨u, hu⟩ := observe_last P b t
  simp [hu, Target.sample, Target.sampleLevels, hh, hw]

/-- A reaction to wires that the port drives and the target has seen leaves it where it is, or in `Reset` where
TRST is driven low. -/
theorem observe_driven {s : State} (hd : steadyWires s.params s.pins = true) (hl : SeenLevels s) :
    (s.target.observe s.params s.pins).phys =
      if s.params.targetHasTrst = true ∧ terminalWire s.pins s.params.wiring.trst = .driven false then .reset
      else s.target.phys := by
  have level : ∀ {w : Wire}, w.isDriven = true → ∃ v, w = .driven v := by
    intro w h; cases w <;> simp_all [Wire.isDriven]
  simp only [steadyWires, Bool.and_eq_true, Bool.or_eq_true, Bool.not_eq_true'] at hd
  obtain ⟨v, hv⟩ := level hd.1
  split
  · rename_i h
    exact observe_held _ h.1 fun k => by rw [h.2]; rfl
  · rename_i h
    refine (observe_still (v := v) (fun k => by rw [hv]; rfl) (hl.1 v hv) fun hh k => ?_).1
    obtain ⟨w, hw⟩ := level (hd.2.resolve_left (by simp [hh]))
    cases w with
    | false => exact absurd ⟨hh, hw⟩ h
    | true => rw [hw]; rfl

/-- What a reaction does, however often the target samples, when each of its terminals shows one level: held
in reset, one transition, or none (20_memory.md R62). -/
theorem observe_phys {P : Params} {b : Vector PinRegs 16} {t : Target} {c v h : Bool} (hP : TimingPremises P)
    (hc : ∀ k, levelSeen (terminalWire b P.wiring.tck) k = c)
    (hv : ∀ k, levelSeen (terminalWire b P.wiring.tms) k = v)
    (hr : P.targetHasTrst = true → ∀ k, levelSeen (terminalWire b P.wiring.trst) k = h) :
    (t.observe P b).phys =
      (if P.targetHasTrst = true ∧ h = false then .reset
       else if t.tckSeen = false ∧ c = true then ieeeNext t.phys v else t.phys) ∧
    (t.observe P b).tckSeen = c := by
  obtain ⟨n, hn⟩ : ∃ n, t.observe P b = (t.sample P b).samples P b n := by
    unfold Target.observe sampleCount
    split
    · exact ⟨0, rfl⟩
    · exact ⟨_, rfl⟩
  have hs : (t.sample P b).tckSeen = c := hc _
  have hfirst : (t.sample P b).phys = (if P.targetHasTrst = true ∧ h = false then .reset
      else if t.tckSeen = false ∧ c = true then ieeeNext t.phys v else t.phys) := by
    rw [Target.sample, sampleLevels_phys _ _ _ _ _ hP, hc, hv]
    cases hh : P.targetHasTrst
    · simp
    · simp [hr hh]
  refine ⟨?_, by obtain ⟨u, hu⟩ := observe_last P b t; rw [hu]; exact hc _⟩
  by_cases hld : P.targetHasTrst = true ∧ h = false
  · rw [if_pos hld]
    exact observe_held t hld.1 (fun k => (hr hld.1 k).trans hld.2)
  · rw [hn, ← hfirst]
    refine (samples_still n _ hc hs fun hh k => ?_).1
    rw [hr hh]
    cases h
    · exact absurd ⟨hh, rfl⟩ hld
    · rfl

theorem terminalWire_output {s : State} {p : Pin} (h : (s.pin p).cfg.mode = .output) :
    terminalWire s.pins (some p) = .driven (s.pin p).out := by
  simp only [State.pin] at h
  simp [terminalWire, PinRegs.wire, h, State.pin]

/-- The target reacts to the pins a write leaves. -/
theorem writeSetReset_target (v : RegWord) (s : State) :
    (writeSetReset v s).target = s.target.observe s.params (writeSetReset v s).pins := by
  simp [writeSetReset]

/-- A write elsewhere leaves a terminal's wire. -/
theorem writeSetReset_terminalWire {s : State} {p : Pin} {e : Option Pin} (b : Bool) (h : e ≠ some p) :
    terminalWire (writeSetReset (levelWord p b) s).pins e = terminalWire s.pins e := by
  cases e with
  | none => rfl
  | some q =>
    have hq : q ≠ p := fun hq => h (hq ▸ rfl)
    have hp := writeSetReset_levelWord_pin p q b s
    rw [if_neg hq] at hp
    exact congrArg PinRegs.wire hp

/-- After a reaction the target has seen every driven level. -/
theorem react_seen (s : State) : SeenLevels s.react := by
  obtain ⟨u, hu⟩ := observe_last s.params s.pins s.target
  refine ⟨?_, ?_, ?_⟩ <;> intro v hv <;>
    simp only [react_pins, react_params] at hv <;> simp [hu, hv, levelSeen]

theorem seen_congr {s t : State} (h : SeenLevels s) (h1 : t.pins = s.pins) (h2 : t.params = s.params)
    (h3 : t.target = s.target) : SeenLevels t := by
  unfold SeenLevels; rw [h1, h2, h3]; exact h

end Sys2Proof.Machine
end

