-- ==== Sys2Proof/Laws/Driver.lean ====
section
/-! SUPPORT. What the driver's internal procedures do, said once (40_pin_driver.md R104 to R106, R110,
R116). -/

namespace Sys2Proof.Machine

/-- What `SET` and everything built on it may change: latches, the trace and the target. -/
structure OnlyLatches (s t : State) : Prop where
  port : t.port = s.port
  completions : t.completions = s.completions
  curState : t.curState = s.curState
  alloc : t.alloc = s.alloc
  pinUsage : t.pinUsage = s.pinUsage
  clkenReg : t.clkenReg = s.clkenReg
  params : t.params = s.params
  draws : t.draws = s.draws
  cfg : ∀ q, (t.pin q).cfg = (s.pin q).cfg

theorem OnlyLatches.refl (s : State) : OnlyLatches s s := ⟨rfl, rfl, rfl, rfl, rfl, rfl, rfl, rfl, fun _ => rfl⟩

theorem OnlyLatches.trans {s t u : State} (h : OnlyLatches s t) (k : OnlyLatches t u) : OnlyLatches s u :=
  ⟨k.port.trans h.port, k.completions.trans h.completions, k.curState.trans h.curState,
   k.alloc.trans h.alloc, k.pinUsage.trans h.pinUsage, k.clkenReg.trans h.clkenReg,
   k.params.trans h.params, k.draws.trans h.draws, fun q => (k.cfg q).trans (h.cfg q)⟩

theorem OnlyLatches.pinOf {s t : State} (h : OnlyLatches s t) (g : Signal) : t.pinOf g = s.pinOf g :=
  pinOf_congr h.alloc g

/-- The events a call of `SET` emits depend on the table and the modes only. -/
theorem OnlyLatches.setEvents {s t : State} (h : OnlyLatches s t) (g : Signal) (v : Bool) :
    setEvents t g v = setEvents s g v := by
  simp only [Machine.setEvents, h.pinOf, h.cfg]

theorem writeSetReset_onlyLatches (v : RegWord) (s : State) : OnlyLatches s (writeSetReset v s) :=
  ⟨by simp, by simp, by simp, by simp, by simp, by simp, by simp, by simp,
   fun q => by rw [writeSetReset_pin]⟩

theorem hold_onlyLatches (s : State) : OnlyLatches s (hold s) :=
  ⟨rfl, rfl, rfl, rfl, rfl, rfl, rfl, rfl, fun _ => rfl⟩

/-- `SET` is nothing, or one one-bit write to the signal's pin (40_pin_driver.md R110). -/
theorem setSignal_cases (g : Signal) (v : Bool) (s : State) :
    (setSignal g v s = s ∧ setEvents s g v = [] ∧
      (s.pinOf g = none ∨ ∃ p, s.pinOf g = some p ∧ (s.pin p).cfg.mode = .input)) ∨
    (∃ p, s.pinOf g = some p ∧ (s.pin p).cfg.mode ≠ .input ∧ setEvents s g v = [driveEvent p v] ∧
      setSignal g v s = writeSetReset (levelWord p v) s) := by
  unfold setSignal setEvents
  cases hp : s.pinOf g with
  | none => exact .inl ⟨rfl, rfl, .inl rfl⟩
  | some p =>
    by_cases hm : (s.pin p).cfg.mode = .input
    · exact .inl ⟨by simp [hm], by simp [hm], .inr ⟨p, rfl, hm⟩⟩
    · exact .inr ⟨p, rfl, hm, by simp [hm], by simp [hm]⟩

theorem setSignal_of_output {g : Signal} {p : Pin} {s : State} (v : Bool) (hp : s.pinOf g = some p)
    (hm : (s.pin p).cfg.mode ≠ .input) : setSignal g v s = writeSetReset (levelWord p v) s := by
  simp [setSignal, hp, hm]

theorem setSignal_onlyLatches (g : Signal) (v : Bool) (s : State) : OnlyLatches s (setSignal g v s) := by
  rcases setSignal_cases g v s with ⟨h, -, -⟩ | ⟨p, -, -, -, h⟩ <;> rw [h]
  · exact .refl s
  · exact writeSetReset_onlyLatches _ s

theorem setSignal_events (g : Signal) (v : Bool) (s : State) :
    (setSignal g v s).events = s.events ++ setEvents s g v := by
  rcases setSignal_cases g v s with ⟨h, h', -⟩ | ⟨p, -, -, h', h⟩ <;> rw [h, h'] <;> simp [driveEvent]

theorem setSignal_pin (g : Signal) (v : Bool) (s : State) (q : Pin) :
    (setSignal g v s).pin q =
      if s.pinOf g = some q ∧ (s.pin q).cfg.mode ≠ .input then { s.pin q with out := v } else s.pin q := by
  rcases setSignal_cases g v s with ⟨h, -, h' | ⟨p, h', hm⟩⟩ | ⟨p, h', hm, -, h⟩ <;> rw [h]
  · simp [h']
  · by_cases hq : p = q
    · subst hq; simp [hm]
    · simp [h', hq]
  · rw [writeSetReset_levelWord_pin]
    by_cases hq : q = p
    · subst hq; simp [h', hm]
    · simp [h', hq, Ne.symm hq]

theorem clock_onlyLatches (s : State) : OnlyLatches s (clock s) :=
  ((setSignal_onlyLatches .tck true s).trans (hold_onlyLatches _)).trans (setSignal_onlyLatches .tck false _)

theorem clock_events (s : State) : (clock s).events = s.events ++ clockEvents s := by
  have h := (setSignal_onlyLatches .tck true s).trans (hold_onlyLatches _)
  simp [clock, clockEvents, setSignal_events, h.setEvents]

/-- `CLOCK` changes the TCK pin's latch only, and leaves it low (40_pin_driver.md R117). -/
theorem clock_pin (s : State) (q : Pin) :
    (clock s).pin q =
      if s.pinOf .tck = some q ∧ (s.pin q).cfg.mode ≠ .input then { s.pin q with out := false } else s.pin q := by
  simp only [clock, setSignal_pin, hold_pin, hold_pinOf, (setSignal_onlyLatches .tck true s).pinOf]
  by_cases h : s.pinOf .tck = some q <;> by_cases hm : (s.pin q).cfg.mode = .input <;> simp [h, hm]

/-- What the port-configuration steps may change: pins, the trace and the target. -/
structure OnlyPins (s t : State) : Prop where
  port : t.port = s.port
  completions : t.completions = s.completions
  curState : t.curState = s.curState
  alloc : t.alloc = s.alloc
  pinUsage : t.pinUsage = s.pinUsage
  clkenReg : t.clkenReg = s.clkenReg
  params : t.params = s.params
  draws : t.draws = s.draws

theorem OnlyPins.trans {s t u : State} (h : OnlyPins s t) (k : OnlyPins t u) : OnlyPins s u :=
  ⟨k.port.trans h.port, k.completions.trans h.completions, k.curState.trans h.curState,
   k.alloc.trans h.alloc, k.pinUsage.trans h.pinUsage, k.clkenReg.trans h.clkenReg,
   k.params.trans h.params, k.draws.trans h.draws⟩

theorem pinConfig_onlyPins (p : Pin) (c : PinCfg) (s : State) : OnlyPins s (pinConfig p c s) :=
  ⟨rfl, rfl, rfl, rfl, rfl, rfl, rfl, rfl⟩

theorem writeSetReset_onlyPins (v : RegWord) (s : State) : OnlyPins s (writeSetReset v s) :=
  ⟨by simp, by simp, by simp, by simp, by simp, by simp, by simp, by simp⟩

theorem configFor_onlyPins (g : Signal) (p : Pin) (s : State) : OnlyPins s (configFor g p s) := by
  unfold configFor configOut configIn
  split
  · exact (writeSetReset_onlyPins _ s).trans (pinConfig_onlyPins _ _ _)
  · exact pinConfig_onlyPins _ _ _

theorem configFor_events (g : Signal) (p : Pin) (s : State) :
    (configFor g p s).events = s.events ++ claimEvents g p := by
  unfold configFor configOut configIn claimEvents
  split <;> simp [driveEvent, resetBit_eq]

theorem configFor_pin (g : Signal) (p q : Pin) (s : State) :
    (configFor g p s).pin q =
      if q = p then (if outputCapable g then ⟨outputCfg, false⟩ else ⟨inputCfg, (s.pin p).out⟩) else s.pin q := by
  unfold configFor configOut configIn
  by_cases h : outputCapable g = true
  · simp only [h, if_true, pinConfig_pin, resetBit_eq, writeSetReset_levelWord_pin]
    by_cases hq : q = p <;> simp [hq]
  · simp only [h, Bool.false_eq_true, if_false, pinConfig_pin]

/-- The fields `DEALLOC_PIN` and `CFG_CORE` leave alone. -/
structure OnlyDriver (s t : State) : Prop where
  port : t.port = s.port
  completions : t.completions = s.completions
  curState : t.curState = s.curState
  clkenReg : t.clkenReg = s.clkenReg
  params : t.params = s.params
  draws : t.draws = s.draws
  allocWritten : t.alloc.isSome = s.alloc.isSome
  usageWritten : t.pinUsage.isSome = s.pinUsage.isSome

theorem OnlyDriver.refl (s : State) : OnlyDriver s s := ⟨rfl, rfl, rfl, rfl, rfl, rfl, rfl, rfl⟩

theorem OnlyDriver.trans {s t u : State} (h : OnlyDriver s t) (k : OnlyDriver t u) : OnlyDriver s u :=
  ⟨k.port.trans h.port, k.completions.trans h.completions, k.curState.trans h.curState,
   k.clkenReg.trans h.clkenReg, k.params.trans h.params, k.draws.trans h.draws,
   k.allocWritten.trans h.allocWritten, k.usageWritten.trans h.usageWritten⟩

theorem OnlyPins.onlyDriver {s t : State} (h : OnlyPins s t) : OnlyDriver s t :=
  ⟨h.port, h.completions, h.curState, h.clkenReg, h.params, h.draws, by rw [h.alloc], by rw [h.pinUsage]⟩

theorem setUsage_onlyDriver (p : Pin) (b : Bool) (s : State) : OnlyDriver s (s.setUsage p b) :=
  ⟨rfl, rfl, rfl, rfl, rfl, rfl, rfl, by simp⟩

theorem setAlloc_onlyDriver (g : Signal) (e : Option Pin) (s : State) : OnlyDriver s (s.setAlloc g e) :=
  ⟨rfl, rfl, rfl, rfl, rfl, rfl, by simp, rfl⟩

theorem deallocPin_none {g : Signal} {s : State} (h : s.pinOf g = none) : deallocPin g s = s := by
  simp [deallocPin, h]

theorem deallocPin_some {g : Signal} {s : State} {p : Pin} (h : s.pinOf g = some p) :
    deallocPin g s =
      ((writeSetReset (resetBit p) (pinConfig p inputCfg s)).setUsage p false).setAlloc g none := by
  simp [deallocPin, h]

theorem deallocPin_onlyDriver (g : Signal) (s : State) : OnlyDriver s (deallocPin g s) := by
  cases h : s.pinOf g with
  | none => rw [deallocPin_none h]; exact .refl s
  | some p =>
    rw [deallocPin_some h]
    exact ((((pinConfig_onlyPins _ _ s).trans (writeSetReset_onlyPins _ _)).onlyDriver).trans
      (setUsage_onlyDriver _ _ _)).trans (setAlloc_onlyDriver _ _ _)

theorem deallocPin_events (g : Signal) (s : State) :
    (deallocPin g s).events = s.events ++ freeEvents s g := by
  cases h : s.pinOf g with
  | none => simp [deallocPin_none h, freeEvents, h]
  | some p => simp [deallocPin_some h, freeEvents, h, driveEvent, resetBit_eq]

theorem deallocPin_pin (g : Signal) (s : State) (q : Pin) :
    (deallocPin g s).pin q = if s.pinOf g = some q then ⟨inputCfg, false⟩ else s.pin q := by
  cases h : s.pinOf g with
  | none => simp [deallocPin_none h]
  | some p =>
    simp only [deallocPin_some h, setAlloc_pin, setUsage_pin, resetBit_eq, writeSetReset_levelWord_pin,
      pinConfig_pin]
    by_cases hq : q = p
    · simp [hq]
    · simp [hq, Ne.symm hq]

theorem pinOf_some_written {g : Signal} {s : State} {p : Pin} (h : s.pinOf g = some p) :
    s.alloc.isSome = true := by
  cases ha : s.alloc with
  | none => simp [State.pinOf, ha] at h
  | some a => rfl

theorem deallocPin_pinOf (g k : Signal) (s : State) :
    (deallocPin g s).pinOf k = if k = g then none else s.pinOf k := by
  cases h : s.pinOf g with
  | none =>
    rw [deallocPin_none h]
    by_cases hk : k = g
    · simp [hk, h]
    · simp [hk]
  | some p =>
    rw [deallocPin_some h, setAlloc_pinOf _ _ _ _ (by simpa using pinOf_some_written h)]
    simp

theorem deallocPin_used (g : Signal) (s : State) (q : Pin) (hu : s.pinUsage.isSome = true) :
    (deallocPin g s).used q = if s.pinOf g = some q then false else s.used q := by
  cases h : s.pinOf g with
  | none => simp [deallocPin_none h]
  | some p =>
    rw [deallocPin_some h, used_congr (setAlloc_pinUsage _ _ _), setUsage_used _ _ _ _ (by simpa using hu),
      used_congr (by simp : _ = s.pinUsage)]
    by_cases hq : q = p
    · simp [hq]
    · simp [hq, Ne.symm hq]

theorem allocatePin_onlyDriver (g : Signal) (p : Pin) (s : State) : OnlyDriver s (allocatePin g p s) :=
  (((deallocPin_onlyDriver g s).trans (configFor_onlyPins g p _).onlyDriver).trans
    (setUsage_onlyDriver _ _ _)).trans (setAlloc_onlyDriver _ _ _)

theorem allocatePin_events (g : Signal) (p : Pin) (s : State) :
    (allocatePin g p s).events = s.events ++ freeEvents s g ++ claimEvents g p := by
  simp [allocatePin, configFor_events, deallocPin_events]

theorem allocatePin_pin (g : Signal) (p q : Pin) (s : State) (h : s.pinOf g ≠ some p) :
    (allocatePin g p s).pin q =
      if q = p then (if outputCapable g then ⟨outputCfg, false⟩ else ⟨inputCfg, (s.pin p).out⟩)
      else if s.pinOf g = some q then ⟨inputCfg, false⟩ else s.pin q := by
  simp [allocatePin, configFor_pin, deallocPin_pin, h]

theorem allocatePin_pinOf (g k : Signal) (p : Pin) (s : State) (ha : s.alloc.isSome = true) :
    (allocatePin g p s).pinOf k = if k = g then some p else s.pinOf k := by
  have h : (configFor g p (deallocPin g s)).alloc.isSome = true := by
    rw [(configFor_onlyPins g p _).alloc, (deallocPin_onlyDriver g s).allocWritten, ha]
  rw [allocatePin, setAlloc_pinOf _ _ _ _ (by simpa using h), setUsage_pinOf,
    pinOf_congr (configFor_onlyPins g p _).alloc, deallocPin_pinOf]
  by_cases hk : k = g <;> simp [hk]

theorem allocatePin_used (g : Signal) (p q : Pin) (s : State) (hu : s.pinUsage.isSome = true) :
    (allocatePin g p s).used q =
      if q = p then true else if s.pinOf g = some q then false else s.used q := by
  have h : (configFor g p (deallocPin g s)).pinUsage.isSome = true := by
    rw [(configFor_onlyPins g p _).pinUsage, (deallocPin_onlyDriver g s).usageWritten, hu]
  rw [allocatePin, used_congr (setAlloc_pinUsage _ _ _), setUsage_used _ _ _ _ h,
    used_congr (configFor_onlyPins g p _).pinUsage, deallocPin_used _ _ _ hu]

/-- `CFG_CORE` on a pin: a conflict, the same pin, or an allocation (40_pin_driver.md R102). -/
theorem cfgCore_pin (g : Signal) (p : Pin) (s : State) :
    cfgCore g (BitVec.ofNat 8 p.val) s =
      if s.used p = true ∧ s.owner p ≠ some g then ⟨s, some .pinConflict⟩
      else if s.pinOf g = some p then ⟨s, none⟩
      else ⟨allocatePin g p s, none⟩ := by
  unfold cfgCore; rw [pinFieldOf_pin]

theorem cfgCore_free (g : Signal) (s : State) : cfgCore g 0xFF s = ⟨deallocPin g s, none⟩ := by
  unfold cfgCore; rw [pinFieldOf_notAllocated]

theorem cfgCore_range (g : Signal) (f : BitVec 8) (s : State) (h : 16 ≤ f.toNat) (h' : f ≠ 0xFF) :
    cfgCore g f s = ⟨s, some .pinOutOfRange⟩ := by
  unfold cfgCore; rw [pinFieldOf_outOfRange f h h']

/-- Every outcome of `CFG_CORE`: a failure or a no-op on the same state, a freed pin, or an allocation to a
pin no other signal owns. -/
theorem cfgCore_cases (g : Signal) (f : BitVec 8) (s : State) :
    (∃ e, cfgCore g f s = ⟨s, e⟩) ∨ cfgCore g f s = ⟨deallocPin g s, none⟩ ∨
    ∃ p, (s.used p = true → s.owner p = some g) ∧ s.pinOf g ≠ some p ∧
      cfgCore g f s = ⟨allocatePin g p s, none⟩ := by
  rcases pinFieldOf_cases f with ⟨rfl, -⟩ | ⟨p, rfl, -⟩ | ⟨h, h', -⟩
  · exact .inr (.inl (cfgCore_free g s))
  · rw [cfgCore_pin]
    by_cases hc : s.used p = true ∧ s.owner p ≠ some g
    · exact .inl ⟨_, if_pos hc⟩
    · by_cases hp : s.pinOf g = some p
      · exact .inl ⟨_, by rw [if_neg hc, if_pos hp]⟩
      · refine .inr (.inr ⟨p, fun hu => ?_, hp, by rw [if_neg hc, if_neg hp]⟩)
        by_contra ho
        exact hc ⟨hu, ho⟩
  · exact .inl ⟨_, cfgCore_range g f s h h'⟩

theorem cfgCore_onlyDriver (g : Signal) (f : BitVec 8) (s : State) : OnlyDriver s (cfgCore g f s).state := by
  rcases cfgCore_cases g f s with ⟨e, h⟩ | h | ⟨p, -, -, h⟩ <;> rw [h]
  · exact .refl s
  · exact deallocPin_onlyDriver g s
  · exact allocatePin_onlyDriver g p s

/-- The events of `CFG_CORE`: pin configurations and one-bit writes that drive a latch low. -/
theorem cfgCore_events (g : Signal) (f : BitVec 8) (s : State) :
    ∃ new, (cfgCore g f s).state.events = s.events ++ new ∧
      ∀ e ∈ new, (∃ p c, e = .config p c) ∨ ∃ p, e = driveEvent p false := by
  have hfree : ∀ e ∈ freeEvents s g, (∃ p c, e = .config p c) ∨ ∃ p, e = driveEvent p false := by
    intro e he
    unfold freeEvents at he
    split at he
    · cases he
    · rcases List.mem_pair.mp he with rfl | rfl
      · exact .inl ⟨_, _, rfl⟩
      · exact .inr ⟨_, rfl⟩
  rcases cfgCore_cases g f s with ⟨e, h⟩ | h | ⟨p, -, -, h⟩ <;> rw [h]
  · exact ⟨[], by simp, by simp⟩
  · exact ⟨_, deallocPin_events g s, hfree⟩
  · refine ⟨freeEvents s g ++ claimEvents g p, by simp [allocatePin_events], fun e he => ?_⟩
    rcases List.mem_append.mp he with he | he
    · exact hfree e he
    · unfold claimEvents at he
      split at he
      · rcases List.mem_pair.mp he with rfl | rfl
        · exact .inr ⟨_, rfl⟩
        · exact .inl ⟨_, _, rfl⟩
      · rw [List.mem_singleton] at he
        exact .inl ⟨_, _, he⟩

end Sys2Proof.Machine
end

