-- ==== Sys2Proof/Laws/Tap.lean ====
section
/-! SUPPORT. What the sequencing procedures do, and the walk as a list of TMS levels
(41_tap_controller.md R146 to R148, R151, R154, R155). -/

namespace Sys2Proof.Machine

/-! ### The graph -/

theorem ieeeNext_nextRow (c t : TapNode) : ieeeNext c (nextRow c t).1 = (nextRow c t).2 := by
  cases c <;> cases t <;> rfl

theorem nextRow_ne (c t : TapNode) (h : c ≠ t) : (nextRow c t).2 ≠ c := by
  revert h; cases c <;> cases t <;> decide

/-- Whether at most `n` steps of the table lead from `c` to `t`. -/
def tableReaches : Nat → TapNode → TapNode → Bool
  | 0, c, t => decide (c = t)
  | n + 1, c, t => decide (c = t) || tableReaches n (nextRow c t).2 t

theorem tableReaches_bound (c t : TapNode) : tableReaches walkBound c t = true := by
  cases c <;> cases t <;> rfl

theorem runLevels_tableLevels (n : Nat) (c t : TapNode) (h : tableReaches n c t = true) :
    runLevels c (tableLevels n c t) = t := by
  induction n generalizing c with
  | zero => simpa [tableReaches, tableLevels, runLevels] using h
  | succ n ih =>
    by_cases hc : c = t
    · simp [tableLevels, hc, runLevels]
    · simp only [tableReaches, hc, decide_false, Bool.false_or] at h
      have := ih _ h
      simpa [tableLevels, hc, runLevels, ieeeNext_nextRow] using this

theorem runLevels_walkLevels (c t : TapNode) : runLevels c (walkLevels c t) = t :=
  runLevels_tableLevels _ c t (tableReaches_bound c t)

/-- One edge of the graph shortens a walk by at most one level. -/
theorem walkLevels_length_le (c t : TapNode) (v : Bool) :
    (walkLevels c t).length ≤ (walkLevels (ieeeNext c v) t).length + 1 := by
  cases c <;> cases t <;> cases v <;> decide

/-- Every walk is a shortest way in the full graph (41_tap_controller.md R155). -/
theorem walkLevels_length_min (levels : List Bool) (c : TapNode) :
    (walkLevels c (runLevels c levels)).length ≤ levels.length := by
  induction levels generalizing c with
  | nil => cases c <;> decide
  | cons v vs ih =>
    have h := ih (ieeeNext c v)
    exact (walkLevels_length_le c _ v).trans (Nat.succ_le_succ h)

/-! ### Transitions -/

theorem OnlyLatches.setCur {s t : State} (h : OnlyLatches s t) (x : TapState) :
    OnlyLatches (s.setCur x) (t.setCur x) :=
  ⟨h.port, h.completions, rfl, h.alloc, h.pinUsage, h.clkenReg, h.params, h.draws, h.cfg⟩

theorem issueTransition_onlyLatches (m : Bool) (n : TapNode) (s : State) :
    OnlyLatches (s.setCur (.node n)) (issueTransition m n s) :=
  ((setSignal_onlyLatches .tms m s).trans (clock_onlyLatches _)).setCur _

theorem clockEvents_congr {s t : State} (h : OnlyLatches s t) : clockEvents t = clockEvents s := by
  simp [clockEvents, h.setEvents]

theorem stepEvents_congr {s t : State} (h : OnlyLatches s t) (v : Bool) : stepEvents t v = stepEvents s v := by
  simp [stepEvents, h.setEvents, clockEvents_congr h]

theorem issueTransition_events (m : Bool) (n : TapNode) (s : State) :
    (issueTransition m n s).events = s.events ++ stepEvents s m := by
  simp [issueTransition, clock_events, setSignal_events, stepEvents,
    clockEvents_congr (setSignal_onlyLatches .tms m s)]

/-- The transitions of the table from `c` toward `t`, at most `n` of them. -/
def issueTable : Nat → TapNode → TapNode → State → State
  | 0, _, _, s => s
  | n + 1, c, t, s =>
    if c = t then s else issueTable n (nextRow c t).2 t (issueTransition (nextRow c t).1 (nextRow c t).2 s)

/-- The walk from a state is the table's transitions in a row (41_tap_controller.md R151). -/
theorem walk_eq_issueTable (n : Nat) (c t : TapNode) (s : State) (h : s.curState = some (.node c)) :
    walk n (.node t) s = if tableReaches n c t then some (issueTable n c t s) else none := by
  induction n generalizing c s with
  | zero => simp [walk, tableReaches, issueTable, h]
  | succ n ih =>
    by_cases hc : c = t
    · simp [walk, tableReaches, issueTable, h, hc]
    · have hs : walkIteration (.node t) s =
          some (issueTransition (nextRow c t).1 (nextRow c t).2 s) := by
        simp [walkIteration, tapStep, h, next, Ne.symm hc]
      have hcur : (issueTransition (nextRow c t).1 (nextRow c t).2 s).curState =
          some (.node (nextRow c t).2) := rfl
      simp only [walk, h, Option.some.injEq, TapState.node.injEq, hc, if_false, hs, Option.bind_some,
        ih _ _ hcur, tableReaches, issueTable, decide_false, Bool.false_or]

theorem walk_from_node (c t : TapNode) (s : State) (h : s.curState = some (.node c)) :
    walk walkBound (.node t) s = some (issueTable walkBound c t s) := by
  rw [walk_eq_issueTable _ c t s h, tableReaches_bound, if_pos rfl]

theorem tableReaches_seven (t : TapNode) : tableReaches 7 .reset t = true := by cases t <;> rfl

theorem walk_from_unknown (t : TapNode) (s : State) (h : s.curState = some .unknown) :
    walk walkBound (.node t) s = some (issueTable 7 .reset t (resyncReset s)) := by
  have hr : (resyncReset s).curState = some (.node .reset) := rfl
  have h1 : walk walkBound (.node t) s = walk 7 (.node t) (resyncReset s) := by
    rw [walkBound, walk.eq_2, h, if_neg (by simp), walkIteration, if_pos h, Option.bind_some]
  rw [h1, walk_eq_issueTable 7 .reset t _ hr, tableReaches_seven, if_pos rfl]

theorem issueTable_curState (n : Nat) (c t : TapNode) (s : State) (h : s.curState = some (.node c))
    (hr : tableReaches n c t = true) : (issueTable n c t s).curState = some (.node t) := by
  induction n generalizing c s with
  | zero => simp [tableReaches] at hr; simp [issueTable, h, hr]
  | succ n ih =>
    by_cases hc : c = t
    · simp [issueTable, hc, h]
    · simp only [tableReaches, hc, decide_false, Bool.false_or] at hr
      simpa [issueTable, hc] using ih _ _ rfl hr

theorem issueTable_events (n : Nat) (c t : TapNode) (s : State) :
    (issueTable n c t s).events = s.events ++ ((tableLevels n c t).map (stepEvents s)).flatten := by
  induction n generalizing c s with
  | zero => simp [issueTable, tableLevels]
  | succ n ih =>
    by_cases hc : c = t
    · simp [issueTable, tableLevels, hc]
    · have h := issueTransition_onlyLatches (nextRow c t).1 (nextRow c t).2 s
      have he : stepEvents (issueTransition (nextRow c t).1 (nextRow c t).2 s) = stepEvents s :=
        funext fun v => stepEvents_congr h v
      simp only [issueTable, tableLevels, hc, if_false, ih, issueTransition_events, he, List.map_cons,
        List.flatten_cons, List.append_assoc]

/-- `TAP_SETSTATE` on a written cache and table, with no hardware shortcut, is the walk
(41_tap_controller.md R151). -/
theorem exec_tapSetState_walk {s : State} {c : TapState} {n : TapNode} (hc : s.curState = some c)
    (ha : s.alloc.isSome = true) (hn : n = .reset → s.pinOf .trst = none) :
    exec (.tapSetState (.node n)) s =
      match walk walkBound (.node n) s with
      | some t => .next (t.completed (plainCompletion 0))
      | none => .fault .nextUndefined := by
  have h1 : (s.alloc.isNone && setStateReadsAlloc (.node n) s) = false := by
    simp [Option.isSome_iff_ne_none.mp ha]
  have h2 : ¬ (TapState.node n = .node .reset ∧ (s.pinOf .trst).isSome = true) := by
    rintro ⟨h3, h4⟩
    rw [hn (TapState.node.inj h3)] at h4
    exact Bool.noConfusion h4
  simp only [exec, execTapSetState, hc, h1, setStateWalk, if_neg h2, complete, Option.isNone_some,
    Bool.false_eq_true, if_false]
  exact (if_neg (by simp)).trans (by cases walk walkBound (.node n) s <;> rfl)

/-- From a state, that walk is the transitions of the table. -/
theorem exec_tapSetState_node {s : State} {c n : TapNode} (hc : s.curState = some (.node c))
    (ha : s.alloc.isSome = true) (hn : n = .reset → s.pinOf .trst = none) :
    exec (.tapSetState (.node n)) s =
      .next ((issueTable walkBound c n s).completed (plainCompletion 0)) := by
  rw [exec_tapSetState_walk hc ha hn, walk_from_node c n s hc]

theorem setCur_setCur (s : State) (x y : TapState) : (s.setCur x).setCur y = s.setCur y := rfl

theorem issueTable_onlyLatches (n : Nat) (c t : TapNode) (s : State) (x : TapState) :
    OnlyLatches (s.setCur x) ((issueTable n c t s).setCur x) := by
  induction n generalizing c s with
  | zero => exact .refl _
  | succ n ih =>
    by_cases hc : c = t
    · simp [issueTable, hc, OnlyLatches.refl]
    · simp only [issueTable, hc, if_false]
      exact ((issueTransition_onlyLatches (nextRow c t).1 (nextRow c t).2 s).setCur x).trans (ih _ _)

theorem hwReset_onlyLatches (s : State) : OnlyLatches s (hwReset s) :=
  (((setSignal_onlyLatches .tms true s).trans (setSignal_onlyLatches .trst false _)).trans
    (hold_onlyLatches _)).trans (setSignal_onlyLatches .trst true _)

theorem hwReset_events (s : State) : (hwReset s).events = s.events ++ hwResetEvents s := by
  have h1 := setSignal_onlyLatches .tms true s
  have h2 := (h1.trans (setSignal_onlyLatches .trst false _)).trans (hold_onlyLatches _)
  simp [hwReset, hwResetEvents, setSignal_events, h1.setEvents, h2.setEvents]

theorem clocks_onlyLatches (n : Nat) (s : State) : OnlyLatches s (clocks n s) := by
  induction n generalizing s with
  | zero => exact .refl s
  | succ n ih => exact (clock_onlyLatches s).trans (ih _)

theorem clocks_events (n : Nat) (s : State) :
    (clocks n s).events = s.events ++ (List.replicate n (clockEvents s)).flatten := by
  induction n generalizing s with
  | zero => simp [clocks]
  | succ n ih =>
    simp [clocks, ih, clock_events, clockEvents_congr (clock_onlyLatches s), List.replicate_succ]

theorem swReset_onlyLatches (s : State) : OnlyLatches s (swReset s) :=
  (setSignal_onlyLatches .tms true s).trans (clocks_onlyLatches _ _)

theorem swReset_events (s : State) : (swReset s).events = s.events ++ swResetEvents s := by
  simp [swReset, softResetClocks, swResetEvents, clocks_events, setSignal_events,
    clockEvents_congr (setSignal_onlyLatches .tms true s)]

theorem resyncReset_onlyLatches (s : State) : OnlyLatches (s.setCur (.node .reset)) (resyncReset s) := by
  unfold resyncReset
  split
  · exact (hwReset_onlyLatches s).setCur _
  · exact (swReset_onlyLatches s).setCur _

theorem resyncReset_events (s : State) :
    (resyncReset s).events =
      s.events ++ (if (s.pinOf .trst).isSome then hwResetEvents s else swResetEvents s) := by
  unfold resyncReset
  split <;> simp [hwReset_events, swReset_events]

end Sys2Proof.Machine
end

