-- ==== Sys2Proof/Laws/Drives.lean ====
section
/-! SUPPORT. Which pins and events the procedures built on `SET` touch (41_tap_controller.md R158), and that
they keep the invariants of 10_state.md R26 and R27. -/

namespace Sys2Proof.Machine

/-- From `s` to `t` only latches of the pins that the signals of `G` own changed, by set/reset writes to
those pins and holds. -/
structure Drives (G : List Signal) (s t : State) : Prop where
  latches : OnlyLatches s t
  pins : ∀ q, (∀ g ∈ G, s.pinOf g ≠ some q) → t.pin q = s.pin q
  events : ∃ new, t.events = s.events ++ new ∧
    ∀ e ∈ new, e = .hold .dSettle ∨ ∃ g ∈ G, ∃ p v, s.pinOf g = some p ∧ e = driveEvent p v

theorem Drives.refl (G : List Signal) (s : State) : Drives G s s :=
  ⟨.refl s, fun _ _ => rfl, [], by simp, by simp⟩

theorem Drives.trans {G : List Signal} {s t u : State} (h : Drives G s t) (k : Drives G t u) :
    Drives G s u := by
  obtain ⟨n₁, e₁, p₁⟩ := h.events
  obtain ⟨n₂, e₂, p₂⟩ := k.events
  refine ⟨h.latches.trans k.latches, fun q hq => ?_, n₁ ++ n₂, by simp [e₂, e₁], ?_⟩
  · rw [k.pins q (fun g hg => by rw [h.latches.pinOf]; exact hq g hg), h.pins q hq]
  · intro e he
    rcases List.mem_append.mp he with he | he
    · exact p₁ e he
    · simpa only [h.latches.pinOf] using p₂ e he

theorem Drives.mono {G H : List Signal} {s t : State} (h : Drives G s t) (hs : ∀ g ∈ G, g ∈ H) :
    Drives H s t := by
  obtain ⟨n, e, p⟩ := h.events
  refine ⟨h.latches, fun q hq => h.pins q fun g hg => hq g (hs g hg), n, e, fun x hx => ?_⟩
  rcases p x hx with hx | ⟨g, hg, q, v, hq⟩
  · exact .inl hx
  · exact .inr ⟨g, hs g hg, q, v, hq⟩

theorem Drives.setCur {G : List Signal} {s t : State} (h : Drives G s t) (x : TapState) :
    Drives G (s.setCur x) (t.setCur x) :=
  ⟨h.latches.setCur x, h.pins, h.events⟩

theorem setSignal_drives (g : Signal) (v : Bool) (s : State) : Drives [g] s (setSignal g v s) := by
  refine ⟨setSignal_onlyLatches g v s, fun q hq => ?_, _, setSignal_events g v s, fun e he => ?_⟩
  · have : s.pinOf g ≠ some q := hq g (by simp)
    simp [setSignal_pin, this]
  · rcases setSignal_cases g v s with ⟨-, h, -⟩ | ⟨p, hp, -, h, -⟩
    · simp [h] at he
    · rw [h, List.mem_singleton] at he
      exact .inr ⟨g, by simp, p, v, hp, he⟩

theorem hold_drives (G : List Signal) (s : State) : Drives G s (hold s) :=
  ⟨hold_onlyLatches s, fun _ _ => rfl, [.hold .dSettle], rfl, by simp⟩

theorem setSignal_tapDrives {g : Signal} (hg : g ∈ tapSignals) (v : Bool) (s : State) :
    Drives tapSignals s (setSignal g v s) :=
  (setSignal_drives g v s).mono (by simpa using hg)

theorem clock_drives (s : State) : Drives tapSignals s (clock s) :=
  ((setSignal_tapDrives (by decide) true s).trans (hold_drives _ _)).trans
    (setSignal_tapDrives (by decide) false _)

theorem hwReset_drives (s : State) : Drives tapSignals s (hwReset s) :=
  (((setSignal_tapDrives (by decide) true s).trans (setSignal_tapDrives (by decide) false _)).trans
    (hold_drives _ _)).trans (setSignal_tapDrives (by decide) true _)

theorem clocks_drives (n : Nat) (s : State) : Drives tapSignals s (clocks n s) := by
  induction n generalizing s with
  | zero => exact .refl _ s
  | succ n ih => exact (clock_drives s).trans (ih _)

theorem swReset_drives (s : State) : Drives tapSignals s (swReset s) :=
  (setSignal_tapDrives (by decide) true s).trans (clocks_drives _ _)

theorem issueTransition_drives (m : Bool) (n : TapNode) (s : State) (x : TapState) :
    Drives tapSignals (s.setCur x) ((issueTransition m n s).setCur x) :=
  ((setSignal_tapDrives (by decide) m s).trans (clock_drives _)).setCur x

theorem issueTable_drives (n : Nat) (c t : TapNode) (s : State) (x : TapState) :
    Drives tapSignals (s.setCur x) ((issueTable n c t s).setCur x) := by
  induction n generalizing c s with
  | zero => exact .refl _ _
  | succ n ih =>
    by_cases hc : c = t
    · simp [issueTable, hc, Drives.refl]
    · simp only [issueTable, hc, if_false]
      exact (issueTransition_drives _ _ s x).trans (ih _ _)

theorem resyncReset_drives (s : State) (x : TapState) :
    Drives tapSignals (s.setCur x) ((resyncReset s).setCur x) := by
  unfold resyncReset
  split
  · exact (hwReset_drives s).setCur x
  · exact (swReset_drives s).setCur x

/-- What a completing `TAP_SETSTATE` leaves, said once: `CUR_STATE` is the target, and on the way only the
latches of its three pins were driven (41_tap_controller.md R151, R158). -/
theorem exec_tapSetState_next {g : TapState} {s t : State} (h : exec (.tapSetState g) s = .next t) :
    ∃ u, t = u.completed (plainCompletion 0) ∧ u.curState = some g ∧ Drives tapSignals (s.setCur g) u := by
  simp only [exec, execTapSetState] at h
  cases hc : s.curState with
  | none => simp [hc] at h
  | some c =>
    simp only [hc, Option.isNone_some, Bool.false_eq_true, if_false] at h
    cases g with
    | unknown =>
      simp only [if_true, complete, Host.Outcome.next.injEq] at h
      exact ⟨_, h.symm, rfl, .refl _ _⟩
    | node n =>
      rw [if_neg (by simp)] at h
      split at h
      · simp at h
      · unfold setStateWalk at h
        split at h
        · rename_i hr
          simp only [complete, Host.Outcome.next.injEq] at h
          refine ⟨_, h.symm, by rw [hr.1]; rfl, ?_⟩
          rw [hr.1]
          exact (hwReset_drives s).setCur _
        · have key : ∃ u, walk walkBound (.node n) s = some u ∧ u.curState = some (.node n) ∧
              Drives tapSignals (s.setCur (.node n)) (u.setCur (.node n)) := by
            cases c with
            | unknown =>
              exact ⟨_, walk_from_unknown n s hc, issueTable_curState _ _ n _ rfl (tableReaches_seven n),
                (resyncReset_drives s _).trans (issueTable_drives _ _ _ _ _)⟩
            | node c =>
              exact ⟨_, walk_from_node c n s hc, issueTable_curState _ c n s hc (tableReaches_bound c n),
                issueTable_drives _ _ _ _ _⟩
          obtain ⟨u, hu, hcur, hd⟩ := key
          rw [hu] at h
          simp only [complete, Host.Outcome.next.injEq] at h
          have hset : u.setCur (.node n) = u := by cases u; simp_all [State.setCur]
          exact ⟨u, h.symm, hcur, hset ▸ hd⟩

/-! ### The invariants -/

/-- Driving owned latches keeps R26 and R27. -/
theorem Drives.inv {G : List Signal} {s t : State} (h : Drives G s t) (hi : Inv s) : Inv t := by
  refine ⟨by rw [h.latches.alloc, h.latches.pinUsage]; exact hi.1, fun a u ha hu => ?_⟩
  have ha' : s.alloc = some a := h.latches.alloc ▸ ha
  have hu' : s.pinUsage = some u := h.latches.pinUsage ▸ hu
  obtain ⟨hm, h1, h2, h3⟩ := hi.2 a u ha' hu'
  refine ⟨hm, fun g p ho hp => by rw [h.latches.cfg]; exact h1 g p ho hp,
    fun p hp => by rw [h.latches.cfg]; exact h2 p hp, fun p hp => ?_⟩
  have hfree : ∀ g ∈ G, s.pinOf g ≠ some p := by
    intro g _ hg
    have : u.getLsbD p.val = true := (hm.1 p).mpr ⟨g, by simpa [State.pinOf, ha'] using hg⟩
    exact Bool.noConfusion (hp.symm.trans this)
  rw [h.pins p hfree]
  exact h3 p hp

end Sys2Proof.Machine
end

