-- ==== Sys2Proof/Laws/Invariants.lean ====
section
/-! SUPPORT. `DEALLOC_PIN`, `CFG_CORE` and `DRV_INIT` keep or establish the invariants of 10_state.md R26 and
R27. -/

namespace Sys2Proof.Machine

/-- The invariants of a ready driver through the accessors. -/
structure ReadyInv (s : State) : Prop where
  alloc : s.alloc.isSome = true
  usage : s.pinUsage.isSome = true
  used : ∀ p, s.used p = true ↔ ∃ g, s.pinOf g = some p
  apart : ∀ p g h, s.pinOf g = some p → s.pinOf h = some p → g = h
  output : ∀ g p, outputCapable g = true → s.pinOf g = some p → (s.pin p).cfg = outputCfg
  tdo : ∀ p, s.pinOf .tdo = some p → (s.pin p).cfg.mode = .input ∧ (s.pin p).cfg.pull = .disabled
  free : ∀ p, s.used p = false → (s.pin p).cfg.mode = .input ∧ (s.pin p).out = false

theorem ReadyInv.inv {s : State} (h : ReadyInv s) : Inv s := by
  refine ⟨by rw [h.alloc, h.usage], fun a u ha hu => ⟨⟨fun p => ?_, fun p g k hg hk => ?_⟩, ?_, ?_, ?_⟩⟩
  · simpa [State.used, State.pinOf, ha, hu] using h.used p
  · exact h.apart p g k (by simpa [State.pinOf, ha] using hg) (by simpa [State.pinOf, ha] using hk)
  · exact fun g p ho hp => h.output g p ho (by simpa [State.pinOf, ha] using hp)
  · exact fun p hp => h.tdo p (by simpa [State.pinOf, ha, AllocTable.get] using hp)
  · exact fun p hp => h.free p (by simpa [State.used, hu] using hp)

theorem Inv.ready {s : State} (h : Inv s) (hr : s.driverReady = true) : ReadyInv s := by
  obtain ⟨ha, hu⟩ : s.alloc.isSome = true ∧ s.pinUsage.isSome = true := by simpa [State.driverReady] using hr
  obtain ⟨a, ha'⟩ := Option.isSome_iff_exists.mp ha
  obtain ⟨u, hu'⟩ := Option.isSome_iff_exists.mp hu
  obtain ⟨⟨h1, h2⟩, h3, h4, h5⟩ := h.2 a u ha' hu'
  have hp : ∀ g, s.pinOf g = a.get g := fun g => by simp [State.pinOf, ha']
  have hq : ∀ p, s.used p = u.getLsbD p.val := fun p => by simp only [State.used, hu']
  exact ⟨ha, hu, fun p => by rw [hq]; simpa only [hp] using h1 p,
    fun p g k hg hk => h2 p g k (hp g ▸ hg) (hp k ▸ hk), fun g p ho hg => h3 g p ho (hp g ▸ hg),
    fun p hg => h4 p (by rw [hp] at hg; exact hg), fun p hg => h5 p (hq p ▸ hg)⟩

theorem ReadyInv.driverReady {s : State} (h : ReadyInv s) : s.driverReady = true := by
  simp [State.driverReady, h.alloc, h.usage]

/-- Freeing a pin keeps the invariants (40_pin_driver.md R104). -/
theorem ReadyInv.dealloc {s : State} (h : ReadyInv s) (g : Signal) : ReadyInv (deallocPin g s) := by
  have hd := deallocPin_onlyDriver g s
  refine ⟨hd.allocWritten.trans h.alloc, hd.usageWritten.trans h.usage, fun p => ?_, fun p a b => ?_,
    fun a p ho => ?_, fun p => ?_, fun p => ?_⟩
  · rw [deallocPin_used g s p h.usage]
    simp only [deallocPin_pinOf]
    by_cases hp : s.pinOf g = some p
    · simp only [hp, if_true, Bool.false_eq_true, false_iff, not_exists]
      intro k hk
      split at hk
      · cases hk
      · rename_i hne; exact hne (h.apart p k g hk hp)
    · rw [if_neg hp, h.used]
      refine exists_congr fun k => ?_
      by_cases hk : k = g
      · simp [hk, hp]
      · simp [hk]
  · simp only [deallocPin_pinOf]
    intro h1 h2
    split at h1
    · cases h1
    · split at h2
      · cases h2
      · exact h.apart p a b h1 h2
  · rw [deallocPin_pinOf, deallocPin_pin]
    intro h1
    split at h1
    · cases h1
    · rename_i hne
      rw [if_neg fun hg => hne (h.apart p a g h1 hg)]
      exact h.output a p ho h1
  · rw [deallocPin_pinOf, deallocPin_pin]
    intro h1
    split at h1
    · cases h1
    · rename_i hne
      rw [if_neg fun hg => hne (h.apart p .tdo g h1 hg)]
      exact h.tdo p h1
  · rw [deallocPin_used g s p h.usage, deallocPin_pin]
    by_cases hp : s.pinOf g = some p
    · simp [hp, inputCfg]
    · simpa [hp] using h.free p

theorem owner_some {s : State} {p : Pin} {g : Signal} (h : s.owner p = some g) : s.pinOf g = some p := by
  cases ha : s.alloc with
  | none => simp [State.owner, ha] at h
  | some a =>
    simp only [State.owner, ha, Option.bind_some, AllocTable.owner] at h
    simpa [State.pinOf, ha] using List.find?_some h

/-- Under the invariants, a pin whose bit is set and whose owner is `g` is the pin of `g`, so an allocation
that passed both tests of `CFG_CORE` takes a free pin. -/
theorem ReadyInv.unused {s : State} (h : ReadyInv s) {g : Signal} {p : Pin}
    (ho : s.used p = true → s.owner p = some g) (hp : s.pinOf g ≠ some p) : ∀ k, s.pinOf k ≠ some p := by
  intro k hk
  exact hp (owner_some (ho ((h.used p).mpr ⟨k, hk⟩)))

/-- Allocating a free pin keeps the invariants (40_pin_driver.md R102). -/
theorem ReadyInv.allocate {s : State} (h : ReadyInv s) {g : Signal} {p : Pin}
    (hf : ∀ k, s.pinOf k ≠ some p) : ReadyInv (allocatePin g p s) := by
  have hd := allocatePin_onlyDriver g p s
  refine ⟨hd.allocWritten.trans h.alloc, hd.usageWritten.trans h.usage, fun q => ?_, fun q a b => ?_,
    fun a q ho => ?_, fun q => ?_, fun q => ?_⟩
  · rw [allocatePin_used g p q s h.usage]
    simp only [allocatePin_pinOf g _ p s h.alloc]
    by_cases hq : q = p
    · simp only [hq, if_true, true_iff]; exact ⟨g, by simp⟩
    · rw [if_neg hq]
      by_cases hg : s.pinOf g = some q
      · simp only [hg, if_true, Bool.false_eq_true, false_iff, not_exists]
        intro k hk
        split at hk
        · exact hq (Option.some.inj hk).symm
        · rename_i hne; exact hne (h.apart q k g hk hg)
      · rw [if_neg hg, h.used]
        refine exists_congr fun k => ?_
        by_cases hk : k = g
        · simp [hk, hg, Ne.symm hq]
        · simp [hk]
  · simp only [allocatePin_pinOf g _ p s h.alloc]
    intro h1 h2
    split at h1 <;> split at h2
    · rename_i e1 e2; rw [e1, e2]
    · exact absurd (h2.trans h1.symm) (hf b)
    · exact absurd (h1.trans h2.symm) (hf a)
    · exact h.apart q a b h1 h2
  · rw [allocatePin_pinOf g a p s h.alloc, allocatePin_pin g p q s (hf g)]
    intro h1
    split at h1
    · rename_i e1; cases h1; subst e1; simp [ho]
    · rename_i hne
      have hqp : q ≠ p := fun e => hf a (e ▸ h1)
      rw [if_neg hqp, if_neg fun hg => hne (h.apart q a g h1 hg)]
      exact h.output a q ho h1
  · rw [allocatePin_pinOf g _ p s h.alloc, allocatePin_pin g p q s (hf g)]
    intro h1
    split at h1
    · rename_i e1; cases h1; subst e1; simp [outputCapable, inputCfg]
    · rename_i hne
      have hqp : q ≠ p := fun e => hf .tdo (e ▸ h1)
      rw [if_neg hqp, if_neg fun hg => hne (h.apart q .tdo g h1 hg)]
      exact h.tdo q h1
  · rw [allocatePin_used g p q s h.usage, allocatePin_pin g p q s (hf g)]
    by_cases hq : q = p
    · simp [hq]
    · by_cases hg : s.pinOf g = some q
      · simp [hq, hg, inputCfg]
      · simpa [hq, hg] using h.free q

/-- `CFG_CORE` keeps the invariants, failing or not. -/
theorem ReadyInv.cfgCore {s : State} (h : ReadyInv s) (g : Signal) (f : BitVec 8) :
    ReadyInv (cfgCore g f s).state := by
  rcases cfgCore_cases g f s with ⟨e, hc⟩ | hc | ⟨p, ho, hp, hc⟩ <;> rw [hc]
  · exact h
  · exact h.dealloc g
  · exact h.allocate (h.unused ho hp)

theorem Inv.of_react {s : State} (h : Inv s) : Inv s.react := h

theorem Inv.completed {s : State} (h : Inv s) (c : Completion) : Inv (s.completed c) := h

theorem Inv.betweenCommands {s : State} (h : Inv s) : Inv (betweenCommands s) := h

theorem Inv.withPort {s : State} (h : Inv s) (l : List Word) : Inv { s with port := l } := h

/-! ### DRV_INIT -/

/-- The state of `DRV_INIT` before the default allocation (40_pin_driver.md R100). -/
theorem clearAlloc_initPort_pin (s : State) (q : Pin) : (clearAlloc (initPort s)).pin q = ⟨inputCfg, false⟩ := by
  have h : (clearAlloc (initPort s)).pin q = (writeSetReset 0xFFFF0000 (configAllInputs s)).pin q := rfl
  rw [h, writeSetReset_all_low_pin, configAllInputs, configInputs_pin]
  simp [List.mem_finRange]

theorem clearAlloc_initPort_events (s : State) : (clearAlloc (initPort s)).events =
    s.events ++ (List.finRange 16).map (fun p => .config p inputCfg) ++
      [.write .setReset 0xFFFF0000, .read .clken s.clkenReg,
       .write .clken (s.clkenReg ||| oneShl s.params.clkenBit.val)] := by
  have h := configInputs_fields (List.finRange 16) s
  simp only at h
  obtain ⟨-, -, -, -, -, h1, h2, -, h3⟩ := h
  simp [initPort, enableClock, configAllInputs, h1, h2, h3, clkenMask]

/-- The fields `DRV_INIT` leaves alone before the default allocation, and the port clock it enables. -/
theorem clearAlloc_initPort_fields (s : State) :
    let t := clearAlloc (initPort s)
    t.port = s.port ∧ t.completions = s.completions ∧ t.curState = s.curState ∧
    t.alloc = some AllocTable.empty ∧ t.pinUsage = some 0 ∧ t.params = s.params ∧ t.draws = s.draws ∧
    t.clkenReg = s.clkenReg ||| oneShl s.params.clkenBit.val := by
  have h := configInputs_fields (List.finRange 16) s
  simp only at h
  obtain ⟨h1, h2, h3, -, -, h4, h5, h6, -⟩ := h
  simp [initPort, configAllInputs, h1, h2, h3, h4, h5, h6, clkenMask]

theorem clearAlloc_initPort_ready (s : State) : ReadyInv (clearAlloc (initPort s)) := by
  have hp : ∀ g, (clearAlloc (initPort s)).pinOf g = none := fun g => by cases g <;> rfl
  have hu : ∀ p, (clearAlloc (initPort s)).used p = false := fun p => by simp [State.used, clearAlloc]
  exact ⟨rfl, rfl, fun p => by simp [hp, hu], fun p g h hg => by simp [hp] at hg,
    fun g p _ hg => by simp [hp] at hg, fun p hg => by simp [hp] at hg,
    fun p _ => by rw [clearAlloc_initPort_pin]; exact ⟨rfl, rfl⟩⟩

/-- The default allocation keeps the invariants. -/
theorem ReadyInv.defaultAlloc {s : State} (h : ReadyInv s) : ReadyInv (defaultAlloc s) :=
  (((h.cfgCore .tck 0).cfgCore .tms 1).cfgCore .tdi 2).cfgCore .tdo 3

/-- Allocating a signal that has no pin to a pin no signal has: what `CFG_CORE` leaves. -/
theorem cfgCore_fresh {s : State} {g : Signal} {p : Pin} (hp : s.pinOf g = none) (hu : s.used p = false) :
    (cfgCore g (BitVec.ofNat 8 p.val) s).state = allocatePin g p s := by
  rw [cfgCore_pin, if_neg (by simp [hu]), if_neg (by simp [hp])]

/-- What the default allocation does to a cleared table (40_pin_driver.md R100). -/
theorem defaultAlloc_chain {s : State} (ha : s.alloc = some AllocTable.empty) (hu : s.pinUsage = some 0) :
    defaultAlloc s = allocatePin .tdo 3 (allocatePin .tdi 2 (allocatePin .tms 1 (allocatePin .tck 0 s))) := by
  have ha' : s.alloc.isSome = true := by rw [ha]; rfl
  have hu' : s.pinUsage.isSome = true := by rw [hu]; rfl
  have hp : ∀ g, s.pinOf g = none := fun g => by simp only [State.pinOf, ha]; cases g <;> rfl
  have hq : ∀ p, s.used p = false := fun p => by simp [State.used, hu]
  have a1 := (allocatePin_onlyDriver .tck 0 s).allocWritten.trans ha'
  have u1 := (allocatePin_onlyDriver .tck 0 s).usageWritten.trans hu'
  have a2 := (allocatePin_onlyDriver .tms 1 _).allocWritten.trans a1
  have u2 := (allocatePin_onlyDriver .tms 1 _).usageWritten.trans u1
  have e1 : (cfgCore .tck 0 s).state = allocatePin .tck 0 s :=
    cfgCore_fresh (g := .tck) (p := 0) (hp _) (hq _)
  have e2 : (cfgCore .tms 1 (allocatePin .tck 0 s)).state = allocatePin .tms 1 (allocatePin .tck 0 s) :=
    cfgCore_fresh (g := .tms) (p := 1) (by simp [allocatePin_pinOf, ha', hp]) (by simp [allocatePin_used, hu', hp, hq])
  have e3 : (cfgCore .tdi 2 (allocatePin .tms 1 (allocatePin .tck 0 s))).state = _ :=
    cfgCore_fresh (g := .tdi) (p := 2) (by simp [allocatePin_pinOf, ha', a1, hp])
      (by simp [allocatePin_used, allocatePin_pinOf, ha', hu', u1, hp, hq])
  have e4 : (cfgCore .tdo 3 (allocatePin .tdi 2 (allocatePin .tms 1 (allocatePin .tck 0 s)))).state = _ :=
    cfgCore_fresh (g := .tdo) (p := 3) (by simp [allocatePin_pinOf, ha', a1, a2, hp])
      (by simp [allocatePin_used, allocatePin_pinOf, ha', hu', a1, u1, u2, hp, hq])
  rw [defaultAlloc, e1, e2, e3, e4]

end Sys2Proof.Machine
end

