-- ==== Sys2Proof/Laws/Link.lean ====
section
/-! SUPPORT. How the target moves when the sequencer drives all the wires it reacts to: each procedure as a
step on (`PHYS`, TCK level, TMS level, TRST level) (20_memory.md R62, 41_tap_controller.md R157). -/

namespace Sys2Proof.Machine

/-- TCK is on pin `k` and TMS on pin `m`, outputs wired to the target's terminals, and so is TRST on pin `r` if
there is one; else the pins of TMS, TCK and TRST are not wired to a TRST of the target. The timing premises
hold. -/
structure Link (s : State) (k m : Pin) (r : Option Pin) : Prop where
  tck : s.pinOf .tck = some k
  tms : s.pinOf .tms = some m
  trst : ∀ p, r = some p → s.pinOf .trst = some p
  wireTck : s.params.wiring.tck = some k
  wireTms : s.params.wiring.tms = some m
  wireTrst : ∀ p, r = some p → s.params.wiring.trst = some p
  hasTrst : r.isSome = true → s.params.targetHasTrst = true
  quiet : r = none → s.params.targetHasTrst = true →
    ∀ sig ∈ tapSignals, ApartFrom s sig s.params.wiring.trst
  outTck : (s.pin k).cfg.mode = .output
  outTms : (s.pin m).cfg.mode = .output
  outTrst : ∀ p, r = some p → (s.pin p).cfg.mode = .output
  apart : k ≠ m
  trstApart : ∀ p, r = some p → p ≠ k ∧ p ≠ m
  timing : TimingPremises s.params

/-- The link rests on the table, the modes and the parameters only. -/
theorem Link.congr {s t : State} {k m : Pin} {r : Option Pin} (h : Link s k m r) (ha : t.alloc = s.alloc)
    (hP : t.params = s.params) (hc : ∀ q, (t.pin q).cfg = (s.pin q).cfg) : Link t k m r where
  tck := (pinOf_congr ha _).trans h.tck
  tms := (pinOf_congr ha _).trans h.tms
  trst := fun p hp => (pinOf_congr ha _).trans (h.trst p hp)
  wireTck := by rw [hP]; exact h.wireTck
  wireTms := by rw [hP]; exact h.wireTms
  wireTrst := by rw [hP]; exact h.wireTrst
  hasTrst := by rw [hP]; exact h.hasTrst
  quiet := by
    rw [hP]
    exact fun hr hh sig hg p hp => h.quiet hr hh sig hg p ((pinOf_congr ha sig).symm.trans hp)
  outTck := by rw [hc]; exact h.outTck
  outTms := by rw [hc]; exact h.outTms
  outTrst := fun p hp => by rw [hc]; exact h.outTrst p hp
  apart := h.apart
  trstApart := h.trstApart
  timing := by rw [hP]; exact h.timing

theorem Link.of_latches {s t : State} {k m : Pin} {r : Option Pin} (h : Link s k m r)
    (o : OnlyLatches s t) : Link t k m r := h.congr o.alloc o.params o.cfg

/-- Whether the target is held in reset: TRST reaches it and its level is 0. -/
def heldInReset (r : Option Pin) (level : Bool) : Bool := r.isSome && !level

/-- The linked machine at a point: the target is in `ph`, TCK stands at `c` and is seen so, TMS at `v`, and
TRST at `h` if the sequencer's reaches the target; if not, the target sees its own at 1. -/
structure At (s : State) (k m : Pin) (r : Option Pin) (ph : TapNode) (c v h : Bool) : Prop where
  link : Link s k m r
  phys : s.target.phys = ph
  seen : s.target.tckSeen = c
  tck : (s.pin k).out = c
  tms : (s.pin m).out = v
  trst : ∀ p, r = some p → (s.pin p).out = h
  shows : r = none → s.params.targetHasTrst = true → ShowsLevel s s.params.wiring.trst true

/-- A point rests on the table, the pins, the parameters, and the target's state and seen clock only. -/
theorem At.congr {s t : State} {k m : Pin} {r : Option Pin} {ph ph' : TapNode} {c v h : Bool}
    (a : At s k m r ph c v h) (ha : t.alloc = s.alloc) (hP : t.params = s.params) (hpins : t.pins = s.pins)
    (hph : t.target.phys = ph') (hs : t.target.tckSeen = c) : At t k m r ph' c v h := by
  have hp : ∀ q, t.pin q = s.pin q := fun q => by simp only [State.pin, hpins]
  refine ⟨a.link.congr ha hP fun q => by rw [hp], hph, hs, by rw [hp]; exact a.tck, by rw [hp]; exact a.tms,
    fun p h => by rw [hp]; exact a.trst p h, ?_⟩
  unfold ShowsLevel
  rw [hpins, hP]
  exact a.shows

/-- One reaction of a linked target. -/
theorem Link.react {s : State} {k m : Pin} {r : Option Pin} {ph : TapNode} {h₀ : Bool} (h : Link s k m r)
    (hp : s.target.phys = ph) (ht : ∀ p, r = some p → (s.pin p).out = h₀)
    (hq : r = none → s.params.targetHasTrst = true → ShowsLevel s s.params.wiring.trst true) :
    s.react.target.phys =
      (if heldInReset r h₀ then .reset
       else if !s.target.tckSeen && (s.pin k).out then ieeeNext ph (s.pin m).out else ph) ∧
    s.react.target.tckSeen = (s.pin k).out := by
  have wk : ∀ i, levelSeen (terminalWire s.pins s.params.wiring.tck) i = (s.pin k).out := fun i => by
    rw [h.wireTck, terminalWire_output h.outTck]; rfl
  have wm : ∀ i, levelSeen (terminalWire s.pins s.params.wiring.tms) i = (s.pin m).out := fun i => by
    rw [h.wireTms, terminalWire_output h.outTms]; rfl
  have wr : s.params.targetHasTrst = true →
      ∀ i, levelSeen (terminalWire s.pins s.params.wiring.trst) i = !heldInReset r h₀ := fun hh i => by
    cases r with
    | none => exact hq rfl hh i
    | some p => rw [h.wireTrst p rfl, terminalWire_output (h.outTrst p rfl), ht p rfl]; simp [heldInReset, levelSeen]
  obtain ⟨h1, h2⟩ := observe_phys (t := s.target) h.timing wk wm wr
  refine ⟨?_, h2⟩
  rw [react_target, h1, hp]
  cases hr : heldInReset r h₀
  · simp
  · have : r.isSome = true := by cases r <;> simp_all [heldInReset]
    simp [h.hasTrst this]

/-- A one-bit write is a reaction of the state with that latch set. -/
theorem writeSetReset_as_react (p : Pin) (v : Bool) (s : State) :
    ∃ x : State, writeSetReset (levelWord p v) s = x.react ∧ OnlyLatches s x ∧ x.target = s.target ∧
      ∀ q, x.pin q = if q = p then { s.pin p with out := v } else s.pin q := by
  have hw : ∀ q, (writeSetReset (levelWord p v) s).pin q =
      (({ s with pins := writeLatches (levelWord p v) s.events.length s.pins } : State).emit
        (.write .setReset (levelWord p v))).pin q := fun q => by
    simp only [writeSetReset, react_pin]
  refine ⟨({ s with pins := writeLatches (levelWord p v) s.events.length s.pins } : State).emit
    (.write .setReset (levelWord p v)), by rw [writeSetReset], ?_, by simp, fun q => ?_⟩
  · refine ⟨by simp, by simp, by simp, by simp, by simp, by simp, by simp, by simp, fun q => ?_⟩
    rw [← hw, writeSetReset_pin]
  · rw [← hw]
    exact writeSetReset_levelWord_pin p q v s

/-- A one-bit write that does not drive a terminal to 0 keeps it showing 1. -/
theorem ShowsLevel.write {s : State} {e : Option Pin} (h : ShowsLevel s e true) {p : Pin} {b : Bool}
    (hw : e = some p → b = true) : ShowsLevel (writeSetReset (levelWord p b) s) e true := by
  by_cases he : e = some p
  · obtain rfl := hw he
    subst he
    intro i
    have hp := writeSetReset_levelWord_pin p p true s
    rw [if_pos rfl] at hp
    have hi := h i
    simp only [State.pin] at hp
    simp only [terminalWire, PinRegs.wire, hp] at hi ⊢
    revert hi
    cases s.pins[p.val].cfg.mode <;> simp [levelSeen]
  · intro i
    rw [writeSetReset_terminalWire b he]
    exact h i

/-- A write to a signal's pin, for a linked machine: the reaction to the new levels. -/
theorem At.write {s : State} {k m : Pin} {r : Option Pin} {ph : TapNode} {c v h : Bool}
    (a : At s k m r ph c v h) (p : Pin) (b c' v' h' : Bool)
    (hc : c' = if k = p then b else c) (hv : v' = if m = p then b else v)
    (hh : ∀ q, r = some q → h' = if q = p then b else h)
    (hw : r = none → s.params.targetHasTrst = true → s.params.wiring.trst = some p → b = true) :
    At (writeSetReset (levelWord p b) s) k m r
      (if heldInReset r h' then .reset else if !c && c' then ieeeNext ph v' else ph) c' v' h' := by
  have hshow : r = none → (writeSetReset (levelWord p b) s).params.targetHasTrst = true →
      ShowsLevel (writeSetReset (levelWord p b) s) (writeSetReset (levelWord p b) s).params.wiring.trst true := by
    rw [(writeSetReset_onlyLatches (levelWord p b) s).params]
    exact fun hr ht => (a.shows hr ht).write (hw hr ht)
  obtain ⟨x, hx, ho, ht, hpin⟩ := writeSetReset_as_react p b s
  rw [hx] at hshow ⊢
  have hl : Link x k m r := a.link.of_latches ho
  have ek : (x.pin k).out = c' := by
    rw [hpin, hc]; by_cases e : k = p
    · simp [e]
    · simp [e, a.tck]
  have em : (x.pin m).out = v' := by
    rw [hpin, hv]; by_cases e : m = p
    · simp [e]
    · simp [e, a.tms]
  have er : ∀ q, r = some q → (x.pin q).out = h' := by
    intro q hq
    rw [hpin, hh q hq]; by_cases e : q = p
    · simp [e]
    · simp [e, a.trst q hq]
  obtain ⟨h1, h2⟩ := hl.react (ph := ph) (by rw [ht]; exact a.phys) er hshow
  refine ⟨hl.congr rfl rfl fun _ => rfl, ?_, ?_, ek, em, er, hshow⟩
  · rw [h1, ht, a.seen, ek, em]
  · rw [h2, ek]

theorem At.setTms {s : State} {k m : Pin} {r : Option Pin} {ph : TapNode} {c v h : Bool}
    (a : At s k m r ph c v h) (b : Bool) :
    At (setSignal .tms b s) k m r (if heldInReset r h then .reset else ph) c b h := by
  rw [setSignal_of_output b a.link.tms (by simp [a.link.outTms])]
  have := a.write m b c b h (by simp [a.link.apart]) (by simp)
    (fun q hq => by simp [(a.link.trstApart q hq).2])
    (fun hr ht hw => absurd hw (a.link.quiet hr ht .tms (by decide) m a.link.tms))
  cases c <;> simpa using this

theorem At.setTck {s : State} {k m : Pin} {r : Option Pin} {ph : TapNode} {c v h : Bool}
    (a : At s k m r ph c v h) (b : Bool) :
    At (setSignal .tck b s) k m r
      (if heldInReset r h then .reset else if !c && b then ieeeNext ph v else ph) b v h := by
  rw [setSignal_of_output b a.link.tck (by simp [a.link.outTck])]
  exact a.write k b b v h (by simp) (by simp [Ne.symm a.link.apart])
    (fun q hq => by simp [(a.link.trstApart q hq).1])
    (fun hr ht hw => absurd hw (a.link.quiet hr ht .tck (by decide) k a.link.tck))

theorem At.setTrst {s : State} {k m p : Pin} {ph : TapNode} {c v h : Bool}
    (a : At s k m (some p) ph c v h) (b : Bool) :
    At (setSignal .trst b s) k m (some p) (if b then ph else .reset) c v b := by
  rw [setSignal_of_output b (a.link.trst p rfl) (by simp [a.link.outTrst p rfl])]
  have hne := a.link.trstApart p rfl
  have := a.write p b c v b (by simp [Ne.symm hne.1]) (by simp [Ne.symm hne.2])
    (fun q hq => by simp [Option.some.inj hq]) (fun hr => by cases hr)
  cases b <;> cases c <;> simpa [heldInReset] using this

theorem At.hold {s : State} {k m : Pin} {r : Option Pin} {ph : TapNode} {c v h : Bool}
    (a : At s k m r ph c v h) :
    At (hold s) k m r (if heldInReset r h then .reset else ph) c v h := by
  have hl : Link ({ s.emit (.hold .dSettle) with target := s.target.afterHold } : State) k m r :=
    a.link.congr rfl rfl fun _ => rfl
  obtain ⟨h1, h2⟩ := hl.react (ph := ph) a.phys a.trst a.shows
  refine a.congr rfl rfl rfl (h1.trans ?_) (h2.trans a.tck)
  have e1 : s.target.afterHold.tckSeen = c := a.seen
  show (if heldInReset r h then _ else if !s.target.afterHold.tckSeen && (s.pin k).out then _ else ph) = _
  rw [e1, a.tck]
  cases c <;> simp

theorem At.setCur {s : State} {k m : Pin} {r : Option Pin} {ph : TapNode} {c v h : Bool}
    (a : At s k m r ph c v h) (x : TapState) : At (s.setCur x) k m r ph c v h :=
  a.congr rfl rfl rfl a.phys a.seen

theorem At.completed {s : State} {k m : Pin} {r : Option Pin} {ph : TapNode} {c v h : Bool}
    (a : At s k m r ph c v h) (x : Completion) : At (s.completed x) k m r ph c v h :=
  a.congr rfl rfl rfl a.phys a.seen

/-- One `CLOCK` from TCK low with TRST released: one transition, TCK low again (40_pin_driver.md R117). -/
theorem At.clock {s : State} {k m : Pin} {r : Option Pin} {ph : TapNode} {v : Bool}
    (a : At s k m r ph false v true) : At (clock s) k m r (ieeeNext ph v) false v true := by
  have h : heldInReset r true = false := by simp [heldInReset]
  have b := ((a.setTck true).hold).setTck false
  simp only [h, Bool.false_eq_true, if_false, Bool.not_false, Bool.and_self, if_true, Bool.not_true] at b
  exact b

/-- One transition (41_tap_controller.md R157). -/
theorem At.issueTransition {s : State} {k m : Pin} {r : Option Pin} {ph : TapNode} {v : Bool}
    (a : At s k m r ph false v true) (b : Bool) (n : TapNode) :
    At (issueTransition b n s) k m r (ieeeNext ph b) false b true := by
  have h : heldInReset r true = false := by simp [heldInReset]
  have := a.setTms b
  simp only [h, Bool.false_eq_true, if_false] at this
  exact this.clock.setCur _

/-- The transitions of the table take a linked target along their levels, wherever it is. -/
theorem At.issueTable_levels {s : State} {k m : Pin} {r : Option Pin} {ph : TapNode} {v : Bool} (n : Nat)
    (c t : TapNode) (a : At s k m r ph false v true) :
    ∃ v', At (issueTable n c t s) k m r (runLevels ph (tableLevels n c t)) false v' true := by
  induction n generalizing c s v ph with
  | zero => exact ⟨v, a⟩
  | succ n ih =>
    by_cases hc : c = t
    · simp only [Machine.issueTable, tableLevels, hc, if_true]; exact ⟨v, a⟩
    · simp only [Machine.issueTable, tableLevels, hc, if_false]
      exact ih _ (a.issueTransition (nextRow c t).1 (nextRow c t).2)

theorem At.issueTable {s : State} {k m : Pin} {r : Option Pin} {v : Bool} (n : Nat) (c t : TapNode)
    (a : At s k m r c false v true) (hr : tableReaches n c t = true) :
    ∃ v', At (issueTable n c t s) k m r t false v' true := by
  have h := a.issueTable_levels n c t
  rwa [runLevels_tableLevels n c t hr] at h

/-- `HW_RESET` resets a target whatever its state was (41_tap_controller.md R157). -/
theorem At.hwReset {s : State} {k m p : Pin} {ph : TapNode} {c v h : Bool}
    (a : At s k m (some p) ph c v h) : At (hwReset s) k m (some p) .reset c true true := by
  have b := (((a.setTms true).setTrst false).hold).setTrst true
  simp only [heldInReset, Option.isSome_some, Bool.not_false, Bool.and_self, if_true,
    Bool.false_eq_true, if_false] at b
  exact b

/-- Five TMS=1 pulses reset a target whatever its state was (41_tap_controller.md R159). -/
theorem ieeeNext_five (x : TapNode) : runLevels x [true, true, true, true, true] = .reset := by
  cases x <;> rfl

/-- Where the sequencer's TRST does not reach the target, or is released, its level may be taken as 1. -/
theorem At.high {s : State} {k m : Pin} {r : Option Pin} {ph : TapNode} {c v h : Bool}
    (a : At s k m r ph c v h) (hr : heldInReset r h = false) : At s k m r ph c v true := by
  refine ⟨a.link, a.phys, a.seen, a.tck, a.tms, fun p hp => ?_, a.shows⟩
  subst hp
  rw [a.trst p rfl]
  simpa [heldInReset] using hr

theorem At.swReset {s : State} {k m : Pin} {ph : TapNode} {v h : Bool}
    (a : At s k m none ph false v h) : At (swReset s) k m none .reset false true true := by
  have a1 : At (setSignal .tms true s) k m none ph false true true := (a.setTms true).high rfl
  have := a1.clock.clock.clock.clock.clock
  rw [show ieeeNext (ieeeNext (ieeeNext (ieeeNext (ieeeNext ph true) true) true) true) true = .reset from
    ieeeNext_five ph] at this
  exact this

/-- The time between two commands moves a linked target only if it is held in reset. -/
theorem At.betweenCommands {s : State} {k m : Pin} {r : Option Pin} {ph : TapNode} {c v h : Bool}
    (a : At s k m r ph c v h) :
    At (Machine.betweenCommands s) k m r (if heldInReset r h then .reset else ph) c v h := by
  obtain ⟨h1, h2⟩ := a.link.react (ph := ph) a.phys a.trst a.shows
  have e : (Machine.betweenCommands s).target = s.react.target := rfl
  refine a.congr rfl rfl rfl ?_ (by rw [e, h2, a.tck])
  rw [e, h1, a.seen, a.tck]; cases c <;> simp

/-- A write to a pin that none of the three signals has moves a linked target only if it is held in reset. -/
theorem At.writeElsewhere {s : State} {k m : Pin} {r : Option Pin} {ph : TapNode} {c v h : Bool}
    (a : At s k m r ph c v h) {p : Pin} (b : Bool) (hk : k ≠ p) (hm : m ≠ p) (hr : r ≠ some p)
    (hw : r = none → s.params.targetHasTrst = true → s.params.wiring.trst = some p → b = true) :
    At (writeSetReset (levelWord p b) s) k m r (if heldInReset r h then .reset else ph) c v h := by
  have := a.write p b c v h (by simp [hk]) (by simp [hm])
    (fun q hq => by simp [show q ≠ p from fun e => hr (e ▸ hq)]) hw
  cases c <;> simpa using this

/-! ### The premises as a linked machine -/

/-- A written table, from an allocated signal. -/
theorem Wired.ready {s : State} (h : Wired s) : s.driverReady = true := by
  obtain ⟨⟨k, hk, -⟩, -⟩ := h.clock
  have ha := pinOf_some_written hk
  simp [State.driverReady, ha, ← h.inv.1]

/-- The premises put the machine at a point of the linked machine, with TRST at 1 there if it is released. -/
theorem Wired.at {s : State} (w : Wired s) :
    ∃ k m r v h, At s k m r s.target.phys (s.pin k).out v h ∧ (TrstReleased s → h = true) ∧
      (TrstWired s → r.isSome = true) := by
  have hr := w.inv.ready w.ready
  obtain ⟨⟨k, hk, wk⟩, m, hm, wm⟩ := w.clock
  have out : ∀ {g p}, outputCapable g = true → s.pinOf g = some p → (s.pin p).cfg.mode = .output :=
    fun ho hp => by rw [hr.output _ _ ho hp]; rfl
  have apart : k ≠ m := fun e => Signal.noConfusion (hr.apart _ _ _ (e ▸ hk) hm)
  have seen : s.target.tckSeen = (s.pin k).out :=
    w.seen.1 (s.pin k).out (by rw [wk]; exact terminalWire_output (out rfl hk))
  by_cases hw : TrstWired s
  · obtain ⟨hh, p, hp, wp⟩ := hw
    have hne : p ≠ k ∧ p ≠ m :=
      ⟨fun e => Signal.noConfusion (hr.apart _ _ _ (e ▸ hp) hk),
       fun e => Signal.noConfusion (hr.apart _ _ _ (e ▸ hp) hm)⟩
    refine ⟨k, m, some p, (s.pin m).out, (s.pin p).out, ⟨⟨hk, hm, ?_, wk, wm, ?_, fun _ => hh, nofun,
      out rfl hk, out rfl hm, ?_, apart, ?_, w.timing⟩, rfl, seen, rfl, rfl, ?_, nofun⟩,
      fun hl => hl hh p hp wp, fun _ => rfl⟩ <;> intro q hq <;> cases hq
    · exact hp
    · exact wp
    · exact out rfl hp
    · exact hne
    · rfl
  · have hq : TrstQuiet s := w.trst.resolve_left hw
    exact ⟨k, m, none, (s.pin m).out, true, ⟨⟨hk, hm, by simp, wk, wm, by simp, by simp, fun _ hh => (hq hh).2,
      out rfl hk, out rfl hm, by simp, apart, by simp, w.timing⟩, rfl, seen, rfl, rfl, by simp,
      fun _ hh => (hq hh).1⟩, fun _ => rfl, fun h => absurd h hw⟩

/-- With TCK low. -/
theorem Linked.at {s : State} (w : Linked s) :
    ∃ k m r v h, At s k m r s.target.phys false v h ∧ (TrstReleased s → h = true) ∧
      (TrstWired s → r.isSome = true) := by
  obtain ⟨k, m, r, v, h, a, h1, h2⟩ := w.toWired.at
  rw [w.tckLow k a.link.tck] at a
  exact ⟨k, m, r, v, h, a, h1, h2⟩

/-- With TCK left high, likewise, for a machine whose TRST is released. -/
theorem LinkedTckHigh.at {s : State} (w : LinkedTckHigh s) (hl : TrstReleased s) :
    ∃ k m r v, At s k m r s.target.phys true v true := by
  obtain ⟨k, m, r, v, h, a, h1, -⟩ := w.toWired.at
  rw [w.tckHigh k a.link.tck, h1 hl] at a
  exact ⟨k, m, r, v, a⟩

/-- A `CLOCK` with TCK left high makes no rising edge, and leaves TCK low (40_pin_driver.md R117(c)). -/
theorem At.clock_high {s : State} {k m : Pin} {r : Option Pin} {ph : TapNode} {v : Bool}
    (a : At s k m r ph true v true) : At (Machine.clock s) k m r ph false v true := by
  have h : heldInReset r true = false := by simp [heldInReset]
  have b := ((a.setTck true).hold).setTck false
  simp only [h, Bool.false_eq_true, if_false, Bool.not_true, Bool.false_and] at b
  exact b

/-- And back. -/
theorem At.wired {s : State} {k m : Pin} {r : Option Pin} {ph : TapNode} {c v h : Bool}
    (a : At s k m r ph c v h) (hi : Inv s) (hs : SeenLevels s) : Wired s where
  inv := hi
  clock := ⟨⟨k, a.link.tck, a.link.wireTck⟩, m, a.link.tms, a.link.wireTms⟩
  trst := by
    cases r with
    | none => exact .inr fun hh => ⟨a.shows rfl hh, a.link.quiet rfl hh⟩
    | some p => exact .inl ⟨a.link.hasTrst rfl, p, a.link.trst p rfl, a.link.wireTrst p rfl⟩
  timing := a.link.timing
  seen := hs

theorem At.linked {s : State} {k m : Pin} {r : Option Pin} {ph : TapNode} {v h : Bool}
    (a : At s k m r ph false v h) (hi : Inv s) (hs : SeenLevels s) : Linked s :=
  ⟨a.wired hi hs, fun p hp => by rw [a.link.tck] at hp; cases hp; exact a.tck⟩

/-- A released TRST, with the cache at the target's state. -/
theorem At.cacheTrue {s : State} {k m : Pin} {r : Option Pin} {ph : TapNode} {c v : Bool}
    (a : At s k m r ph c v true) (hc : ∀ n, s.curState = some (.node n) → ph = n) : CacheTrue s := by
  refine fun n hn => ⟨a.phys.trans (hc n hn), fun hh p hp hw => ?_⟩
  cases hr : r with
  | none => exact absurd hw (a.link.quiet hr hh .trst (by decide) p hp)
  | some q =>
    rw [a.link.trst q hr] at hp
    cases hp
    exact a.trst _ hr

end Sys2Proof.Machine
end

