-- ==== Sys2Proof/Laws/Seen.lean ====
section
/-! SUPPORT. Every procedure leaves the target with the levels the port drives seen, if it began so
(20_memory.md R62). -/

namespace Sys2Proof.Machine

theorem writeSetReset_seen (v : RegWord) (s : State) : SeenLevels (writeSetReset v s) := by
  rw [writeSetReset]; exact react_seen _

theorem pinConfig_seen (p : Pin) (c : PinCfg) (s : State) : SeenLevels (pinConfig p c s) := by
  rw [pinConfig]; exact react_seen _

theorem hold_seen (s : State) : SeenLevels (hold s) := by
  rw [hold]; exact react_seen _

theorem betweenCommands_seen (s : State) : SeenLevels (betweenCommands s) := by
  rw [betweenCommands]; exact react_seen _

theorem setSignal_seen {s : State} (h : SeenLevels s) (g : Signal) (v : Bool) :
    SeenLevels (setSignal g v s) := by
  rcases setSignal_cases g v s with ⟨e, -⟩ | ⟨p, -, -, -, e⟩ <;> rw [e]
  · exact h
  · exact writeSetReset_seen _ s

theorem clock_seen (s : State) : SeenLevels (clock s) := setSignal_seen (hold_seen _) .tck false

theorem deallocPin_seen {s : State} (h : SeenLevels s) (g : Signal) : SeenLevels (deallocPin g s) := by
  cases hp : s.pinOf g with
  | none => rw [deallocPin_none hp]; exact h
  | some p =>
    rw [deallocPin_some hp]
    exact seen_congr (writeSetReset_seen (resetBit p) (pinConfig p inputCfg s)) rfl rfl rfl

theorem configFor_seen (g : Signal) (p : Pin) (s : State) : SeenLevels (configFor g p s) := by
  unfold configFor configOut configIn
  split <;> exact pinConfig_seen _ _ _

theorem cfgCore_seen {s : State} (h : SeenLevels s) (g : Signal) (f : BitVec 8) :
    SeenLevels (cfgCore g f s).state := by
  rcases cfgCore_cases g f s with ⟨e, hc⟩ | hc | ⟨p, -, -, hc⟩ <;> rw [hc]
  · exact h
  · exact deallocPin_seen h g
  · exact seen_congr (configFor_seen g p (deallocPin g s)) rfl rfl rfl

theorem initPort_seen (s : State) : SeenLevels (clearAlloc (initPort s)) :=
  seen_congr (writeSetReset_seen 0xFFFF0000 (configAllInputs s)) rfl rfl rfl

theorem completed_seen {s : State} (h : SeenLevels s) (c : Completion) : SeenLevels (s.completed c) :=
  seen_congr h rfl rfl rfl

theorem defaultAlloc_seen {s : State} (h : SeenLevels s) : SeenLevels (defaultAlloc s) :=
  cfgCore_seen (cfgCore_seen (cfgCore_seen (cfgCore_seen h .tck 0) .tms 1) .tdi 2) .tdo 3

theorem issueTransition_seen (m : Bool) (n : TapNode) (s : State) : SeenLevels (issueTransition m n s) :=
  seen_congr (clock_seen (setSignal .tms m s)) rfl rfl rfl

theorem issueTable_seen (n : Nat) (c t : TapNode) {s : State} (h : SeenLevels s) :
    SeenLevels (issueTable n c t s) := by
  induction n generalizing c s with
  | zero => exact h
  | succ n ih =>
    by_cases hc : c = t
    · simpa [issueTable, hc] using h
    · simp only [issueTable, hc, if_false]
      exact ih _ (issueTransition_seen _ _ s)

theorem hwReset_seen (s : State) : SeenLevels (hwReset s) := setSignal_seen (hold_seen _) .trst true

theorem clocks_seen (n : Nat) {s : State} (h : SeenLevels s) : SeenLevels (clocks n s) := by
  induction n generalizing s with
  | zero => exact h
  | succ n ih => exact ih (clock_seen s)

theorem resyncReset_seen {s : State} (h : SeenLevels s) : SeenLevels (resyncReset s) := by
  unfold resyncReset
  split
  · exact seen_congr (hwReset_seen s) rfl rfl rfl
  · exact seen_congr (clocks_seen softResetClocks (setSignal_seen h .tms true)) rfl rfl rfl

/-- `TAP_SETSTATE` leaves the driven levels seen. -/
theorem exec_tapSetState_seen {s t : State} {g : TapState} (hs : SeenLevels s)
    (h : exec (.tapSetState g) s = .next t) : SeenLevels t := by
  simp only [exec, execTapSetState] at h
  cases hc : s.curState with
  | none => simp [hc] at h
  | some c =>
    simp only [hc, Option.isNone_some, Bool.false_eq_true, if_false] at h
    cases g with
    | unknown =>
      simp only [if_true, complete, Host.Outcome.next.injEq] at h
      subst h; exact completed_seen (seen_congr (t := s.setCur .unknown) hs rfl rfl rfl) _
    | node n =>
      rw [if_neg (by simp)] at h
      split at h
      · simp at h
      · unfold setStateWalk at h
        split at h
        · simp only [complete, Host.Outcome.next.injEq] at h
          subst h
          exact completed_seen (seen_congr (t := (hwReset s).setCur _) (hwReset_seen s) rfl rfl rfl) _
        · cases c with
          | unknown =>
            rw [walk_from_unknown n s hc] at h
            simp only [complete, Host.Outcome.next.injEq] at h
            subst h
            exact completed_seen (issueTable_seen 7 .reset n (resyncReset_seen hs)) _
          | node c =>
            rw [walk_from_node c n s hc] at h
            simp only [complete, Host.Outcome.next.injEq] at h
            subst h
            exact completed_seen (issueTable_seen walkBound c n hs) _

end Sys2Proof.Machine
end

