-- ==== Sys2Proof/Laws/Coherence.lean ====
section
/-! SUPPORT. What keeps the wiring premises and a true cache: the time between commands, and a `SET` that keeps P2
and P3 (10_state.md R34). -/

namespace Sys2Proof.Machine

/-- The time between commands keeps the premises and a true cache, and moves no target that the cache knows. -/
theorem Wired.betweenCommands {s : State} (w : Wired s) (hT : CacheTrue s) :
    Wired (betweenCommands s) ∧ CacheTrue (betweenCommands s) ∧
      ∀ n, s.curState = some (.node n) → (betweenCommands s).target.phys = s.target.phys := by
  obtain ⟨k, m, r, v, h, a, hrel, -⟩ := w.at
  have b := a.betweenCommands
  have hph : ∀ n, s.curState = some (.node n) → (Machine.betweenCommands s).target.phys = s.target.phys := by
    intro n hn
    rw [b.phys, hrel (hT n hn).2]
    simp [heldInReset]
  exact ⟨b.wired w.inv.betweenCommands (betweenCommands_seen s),
    fun n hn => ⟨(hph n hn).trans (hT n hn).1, (hT n hn).2⟩, hph⟩

/-- A write of a signal's level to a pin that is not one of the three leaves the three apart from it. -/
theorem At.setElsewhere {s : State} {k m : Pin} {r : Option Pin} {ph : TapNode} {c v h : Bool}
    (a : At s k m r ph c v h) (hi : ReadyInv s) {g : Signal} (hk : g ≠ .tck) (hm : g ≠ .tms)
    (hr : ∀ p, r = some p → g ≠ .trst) (b : Bool)
    (hw : r = none → s.params.targetHasTrst = true → ApartFrom s g s.params.wiring.trst ∨ b = true) :
    ∃ ph', At (setSignal g b s) k m r ph' c v h ∧ (heldInReset r h = false → ph' = ph) := by
  rcases setSignal_cases g b s with ⟨e, -⟩ | ⟨p, hp, -, -, e⟩ <;> rw [e]
  · exact ⟨ph, a, fun _ => rfl⟩
  · refine ⟨_, a.writeElsewhere b (fun e => hk (hi.apart p _ _ hp (e ▸ a.link.tck)))
      (fun e => hm (hi.apart p _ _ hp (e ▸ a.link.tms)))
      (fun e => hr p e (hi.apart p _ _ hp (a.link.trst p e)))
      (fun hr hh hwire => (hw hr hh).resolve_left fun h => h p hp hwire), fun hf => by simp [hf]⟩

/-- TDO's pin is an input, so `SET` on it does nothing (40_pin_driver.md R111 a). -/
theorem ReadyInv.setTdo {s : State} (h : ReadyInv s) (b : Bool) : setSignal .tdo b s = s := by
  unfold setSignal
  cases hp : s.pinOf .tdo with
  | none => rfl
  | some p => simp [(h.tdo p hp).1]

/-- Where a `SET` leaves a wired machine: a point of it, at the same target state and with TRST released if the
cache is true, the caller's edge holds that state, and the target's TRST is spared. -/
theorem Wired.set_at {s : State} {g : Signal} {b : Bool} (w : Wired s) (hT : CacheTrue s)
    (hg : g = .tck → b = true → ∀ n, s.curState = some (.node n) → EdgeHolds s)
    (hs : g = .tdi ∨ g = .trst → SparesTrst s g b) :
    ∃ k m r ph c v h, At (setSignal g b s) k m r ph c v h ∧
      ∀ n, s.curState = some (.node n) → ph = s.target.phys ∧ h = true := by
  have hi := w.inv.ready w.ready
  obtain ⟨k, m, r, v, h, a, hrel, -⟩ := w.at
  have high : ∀ n, s.curState = some (.node n) → h = true := fun n hn => hrel (hT n hn).2
  have free : ∀ n, s.curState = some (.node n) → heldInReset r h = false := fun n hn => by
    simp [heldInReset, high n hn]
  cases g with
  | tms => exact ⟨_, _, _, _, _, _, _, a.setTms b, fun n hn => ⟨by simp [free n hn], high n hn⟩⟩
  | tck =>
    refine ⟨_, _, _, _, _, _, _, a.setTck b, fun n hn => ⟨?_, high n hn⟩⟩
    simp only [free n hn, Bool.false_eq_true, if_false]
    split
    · rename_i e
      simp only [Bool.and_eq_true, Bool.not_eq_true'] at e
      have low : LatchHolds .tck false s := fun p hp => by rw [a.link.tck] at hp; cases hp; exact e.1
      have := hg rfl e.2 n hn low m a.link.tms
      rwa [a.tms] at this
    · rfl
  | tdo => rw [hi.setTdo]; exact ⟨_, _, _, _, _, _, _, a, fun n hn => ⟨rfl, high n hn⟩⟩
  | tdi =>
    obtain ⟨ph, a', hp⟩ := a.setElsewhere hi (g := .tdi) (by decide) (by decide) (by simp) b
      fun _ hh => (hs (.inl rfl)).symm.imp_left fun h => h hh
    exact ⟨_, _, _, _, _, _, _, a', fun n hn => ⟨hp (free n hn), high n hn⟩⟩
  | trst =>
    cases r with
    | none =>
      obtain ⟨ph, a', hp⟩ := a.setElsewhere hi (g := .trst) (by decide) (by decide) nofun b
        fun _ hh => .inl (a.link.quiet rfl hh .trst (by decide))
      exact ⟨_, _, _, _, _, _, _, a', fun n hn => ⟨hp (free n hn), high n hn⟩⟩
    | some p =>
      obtain rfl : b = true := (hs (.inr rfl)).resolve_right fun h =>
        h (a.link.hasTrst rfl) p (a.link.trst p rfl) (a.link.wireTrst p rfl)
      exact ⟨_, _, _, _, _, _, _, a.setTrst true, fun n hn => ⟨rfl, rfl⟩⟩

/-- A `SET` that keeps P2 and P3 keeps the premises and a true cache (10_state.md R34). -/
theorem Wired.setSignal {s : State} {g : Signal} {b : Bool} (w : Wired s) (hT : CacheTrue s)
    (hg : g = .tck → b = true → ∀ n, s.curState = some (.node n) → EdgeHolds s)
    (hs : g = .tdi ∨ g = .trst → SparesTrst s g b) :
    Wired (setSignal g b s) ∧ CacheTrue (setSignal g b s) := by
  obtain ⟨k, m, r, ph, c, v, h, a, hk⟩ := w.set_at hT hg hs
  have o := setSignal_onlyLatches g b s
  refine ⟨a.wired ((setSignal_drives g b s).inv w.inv) (setSignal_seen w.seen g b), fun n hn => ?_⟩
  obtain ⟨rfl, rfl⟩ := hk n (o.curState ▸ hn)
  exact a.cacheTrue (fun n' hn' => (hT n' (o.curState ▸ hn')).1) n hn

end Sys2Proof.Machine
end

