-- ==== Sys2Proof/Laws/Encoding.lean ====
section
/-! SUPPORT. The fields of a command word and the value codes, said once (30_encoding.md R80, R83, R84;
20_memory.md R64). -/

namespace Sys2Proof

@[simp] theorem opField_cmd16 (a b : BitVec 4) (c : BitVec 8) : opField (cmd16 a b c) = a := by
  ext i hi
  simp only [opField, cmd16, BitVec.getElem_extractLsb', BitVec.getLsbD_append]
  rw [if_neg (by omega), if_neg (by omega), show 12 + i - 8 - 4 = i by omega, BitVec.getLsbD_eq_getElem hi]

@[simp] theorem sigField_cmd16 (a b : BitVec 4) (c : BitVec 8) : sigField (cmd16 a b c) = b := by
  ext i hi
  simp only [sigField, cmd16, BitVec.getElem_extractLsb', BitVec.getLsbD_append]
  rw [if_neg (by omega), if_pos (by omega), show 8 + i - 8 = i by omega, BitVec.getLsbD_eq_getElem hi]

@[simp] theorem argField_cmd16 (a b : BitVec 4) (c : BitVec 8) : argField (cmd16 a b c) = c := by
  ext i hi
  simp only [argField, cmd16, BitVec.getElem_extractLsb', BitVec.getLsbD_append]
  rw [if_pos (by omega), show 0 + i = i by omega, BitVec.getLsbD_eq_getElem hi]

/-- A word is its three fields. -/
theorem cmd16_fields (w : Word) : cmd16 (opField w) (sigField w) (argField w) = w := by
  ext i hi
  simp only [cmd16, opField, sigField, argField]
  rw [← BitVec.getLsbD_eq_getElem, BitVec.getLsbD_append, BitVec.getLsbD_append, ← BitVec.getLsbD_eq_getElem]
  simp only [BitVec.getLsbD_extractLsb']
  by_cases h : i < 8
  · simp [h]
  · by_cases h2 : i < 12
    · simp [h, show i - 8 < 4 by omega, show 8 + (i - 8) = i by omega]
    · simp [h, show ¬ i - 8 < 4 by omega, show i - 8 - 4 < 4 by omega, show 12 + (i - 8 - 4) = i by omega]

/-- A word is its two bytes, low byte first on the transport. -/
theorem word_of_bytes (w : Word) : (w.extractLsb' 8 8 ++ w.extractLsb' 0 8 : Word) = w := by
  ext i hi
  rw [← BitVec.getLsbD_eq_getElem, BitVec.getLsbD_append, ← BitVec.getLsbD_eq_getElem]
  simp only [BitVec.getLsbD_extractLsb']
  by_cases h : i < 8
  · simp [h]
  · simp [h, show i - 8 < 8 by omega, show 8 + (i - 8) = i by omega]

theorem decodeBytes_bytesOfWord (w : Word) (rest : List Byte) :
    decodeBytes (bytesOfWord w ++ rest) = some (decode w, rest) := by
  simp [bytesOfWord, decodeBytes, word_of_bytes]

@[simp] theorem Signal.ofCode_code (s : Signal) : Signal.ofCode s.code = some s := by cases s <;> rfl

@[simp] theorem TapState.ofCode_code (t : TapState) : TapState.ofCode t.code = some t := by
  cases t with
  | unknown => rfl
  | node n => cases n <;> rfl

theorem Signal.code_of_ofCode {c : BitVec 4} {s : Signal} (h : Signal.ofCode c = some s) : s.code = c := by
  have all : ∀ c, ∀ s ∈ Machine.allSignals, Signal.ofCode c = some s → s.code = c := by decide
  exact all c s (by cases s <;> decide) h

theorem TapState.code_of_ofCode {c : BitVec 5} {t : TapState} (h : TapState.ofCode c = some t) :
    t.code = c := by
  have all : ∀ c, ∀ t ∈ Machine.allStates, TapState.ofCode c = some t → t.code = c := by decide
  refine all c t ?_ h
  cases t with
  | unknown => decide
  | node n => cases n <;> decide

theorem Signal.ofCode_none_iff (c : BitVec 4) : Signal.ofCode c = none ↔ 5 ≤ c.toNat := by
  revert c; decide

theorem TapState.ofCode_none_iff (c : BitVec 5) : TapState.ofCode c = none ↔ 17 ≤ c.toNat := by
  revert c; decide

/-- The decoder on a word given by its fields. -/
theorem decode_cmd16 (op sig : BitVec 4) (arg : BitVec 8) :
    decode (cmd16 op sig arg) = decodeFields op sig arg := by
  simp [decode]

end Sys2Proof
end

