-- ==== Sys2Proof/Laws/Hidden.lean ====
section
/-! SUPPORT. No procedure reads the target: two states that differ in the target only are taken to two such
states (10_state.md R33). -/

namespace Sys2Proof.Machine

/-- The state with another target. -/
def State.withTarget (s : State) (u : Target) : State := { s with target := u }

/-- `t` is `s` but for the target. -/
def SameButTarget (s t : State) : Prop := ∃ u, t = s.withTarget u

theorem SameButTarget.refl (s : State) : SameButTarget s s := ⟨s.target, rfl⟩

theorem SameButTarget.curState {s t : State} (h : SameButTarget s t) : t.curState = s.curState := by
  obtain ⟨u, rfl⟩ := h; rfl

theorem SameButTarget.alloc {s t : State} (h : SameButTarget s t) : t.alloc = s.alloc := by
  obtain ⟨u, rfl⟩ := h; rfl

theorem SameButTarget.pinUsage {s t : State} (h : SameButTarget s t) : t.pinUsage = s.pinUsage := by
  obtain ⟨u, rfl⟩ := h; rfl

theorem SameButTarget.pinOf {s t : State} (h : SameButTarget s t) (g : Signal) : t.pinOf g = s.pinOf g :=
  pinOf_congr h.alloc g

theorem SameButTarget.owner {s t : State} (h : SameButTarget s t) (p : Pin) : t.owner p = s.owner p :=
  owner_congr h.alloc p

theorem SameButTarget.used {s t : State} (h : SameButTarget s t) (p : Pin) : t.used p = s.used p :=
  used_congr h.pinUsage p

theorem SameButTarget.pin {s t : State} (h : SameButTarget s t) (p : Pin) : t.pin p = s.pin p := by
  obtain ⟨u, rfl⟩ := h; rfl

theorem SameButTarget.setCur {s t : State} (h : SameButTarget s t) (x : TapState) :
    SameButTarget (s.setCur x) (t.setCur x) := by
  obtain ⟨u, rfl⟩ := h; exact ⟨u, rfl⟩

theorem SameButTarget.completed {s t : State} (h : SameButTarget s t) (c : Completion) :
    SameButTarget (s.completed c) (t.completed c) := by
  obtain ⟨u, rfl⟩ := h; exact ⟨u, rfl⟩

theorem SameButTarget.writeSetReset {s t : State} (h : SameButTarget s t) (v : RegWord) :
    SameButTarget (writeSetReset v s) (writeSetReset v t) := by
  obtain ⟨u, rfl⟩ := h
  rw [Machine.writeSetReset, Machine.writeSetReset]
  exact ⟨_, rfl⟩

theorem SameButTarget.pinConfig {s t : State} (h : SameButTarget s t) (p : Pin) (c : PinCfg) :
    SameButTarget (pinConfig p c s) (pinConfig p c t) := by
  obtain ⟨u, rfl⟩ := h
  rw [Machine.pinConfig, Machine.pinConfig]
  exact ⟨_, rfl⟩

theorem SameButTarget.hold {s t : State} (h : SameButTarget s t) : SameButTarget (hold s) (hold t) := by
  obtain ⟨u, rfl⟩ := h
  rw [Machine.hold, Machine.hold]
  exact ⟨_, rfl⟩

theorem SameButTarget.enableClock {s t : State} (h : SameButTarget s t) :
    SameButTarget (enableClock s) (enableClock t) := by
  obtain ⟨u, rfl⟩ := h; exact ⟨u, rfl⟩

theorem SameButTarget.setAlloc {s t : State} (h : SameButTarget s t) (g : Signal) (e : Option Pin) :
    SameButTarget (s.setAlloc g e) (t.setAlloc g e) := by
  obtain ⟨u, rfl⟩ := h; exact ⟨u, rfl⟩

theorem SameButTarget.setUsage {s t : State} (h : SameButTarget s t) (p : Pin) (b : Bool) :
    SameButTarget (s.setUsage p b) (t.setUsage p b) := by
  obtain ⟨u, rfl⟩ := h; exact ⟨u, rfl⟩

theorem SameButTarget.setSignal {s t : State} (h : SameButTarget s t) (g : Signal) (v : Bool) :
    SameButTarget (setSignal g v s) (setSignal g v t) := by
  unfold Machine.setSignal
  rw [h.pinOf]
  split
  · exact h
  · rw [h.pin]
    split
    · exact h
    · exact h.writeSetReset _

theorem SameButTarget.clock {s t : State} (h : SameButTarget s t) : SameButTarget (clock s) (clock t) :=
  ((h.setSignal .tck true).hold).setSignal .tck false

theorem SameButTarget.deallocPin {s t : State} (h : SameButTarget s t) (g : Signal) :
    SameButTarget (deallocPin g s) (deallocPin g t) := by
  unfold Machine.deallocPin
  rw [h.pinOf]
  split
  · exact h
  · exact (((h.pinConfig _ _).writeSetReset _).setUsage _ _).setAlloc _ _

theorem SameButTarget.allocatePin {s t : State} (h : SameButTarget s t) (g : Signal) (p : Pin) :
    SameButTarget (allocatePin g p s) (allocatePin g p t) := by
  have hc : SameButTarget (configFor g p (Machine.deallocPin g s)) (configFor g p (Machine.deallocPin g t)) := by
    unfold configFor configOut configIn
    split
    · exact ((h.deallocPin g).writeSetReset _).pinConfig _ _
    · exact (h.deallocPin g).pinConfig _ _
  exact (hc.setUsage _ _).setAlloc _ _

theorem SameButTarget.cfgCore {s t : State} (h : SameButTarget s t) (g : Signal) (f : BitVec 8) :
    SameButTarget (cfgCore g f s).state (cfgCore g f t).state ∧
    (cfgCore g f t).failure = (cfgCore g f s).failure := by
  unfold Machine.cfgCore
  cases pinFieldOf f with
  | notAllocated => exact ⟨h.deallocPin g, rfl⟩
  | outOfRange => exact ⟨h, rfl⟩
  | pin p =>
    simp only [h.used, h.owner, h.pinOf]
    split
    · exact ⟨h, rfl⟩
    · split
      · exact ⟨h, rfl⟩
      · exact ⟨h.allocatePin g p, rfl⟩

theorem SameButTarget.initPort {s t : State} (h : SameButTarget s t) :
    SameButTarget (clearAlloc (initPort s)) (clearAlloc (initPort t)) := by
  have hc : ∀ l : List Pin, SameButTarget (l.foldl (fun t p => Machine.pinConfig p inputCfg t) s)
      (l.foldl (fun t p => Machine.pinConfig p inputCfg t) t) := by
    intro l
    induction l generalizing s t with
    | nil => exact h
    | cons p l ih => exact ih (h.pinConfig p inputCfg)
  obtain ⟨u, hu⟩ := ((hc (List.finRange 16)).writeSetReset 0xFFFF0000).enableClock
  exact ⟨u, congrArg clearAlloc hu⟩

theorem SameButTarget.issueTransition {s t : State} (h : SameButTarget s t) (m : Bool) (n : TapNode) :
    SameButTarget (issueTransition m n s) (issueTransition m n t) :=
  ((h.setSignal .tms m).clock).setCur _

theorem SameButTarget.issueTable {s t : State} (h : SameButTarget s t) (n : Nat) (c g : TapNode) :
    SameButTarget (issueTable n c g s) (issueTable n c g t) := by
  induction n generalizing c s t with
  | zero => exact h
  | succ n ih =>
    by_cases hc : c = g
    · simpa [Machine.issueTable, hc] using h
    · simp only [Machine.issueTable, hc, if_false]
      exact ih (h.issueTransition _ _) _

theorem SameButTarget.hwReset {s t : State} (h : SameButTarget s t) :
    SameButTarget (hwReset s) (hwReset t) :=
  (((h.setSignal .tms true).setSignal .trst false).hold).setSignal .trst true

theorem SameButTarget.clocks {s t : State} (h : SameButTarget s t) (n : Nat) :
    SameButTarget (clocks n s) (clocks n t) := by
  induction n generalizing s t with
  | zero => exact h
  | succ n ih => exact ih h.clock

theorem SameButTarget.resyncReset {s t : State} (h : SameButTarget s t) :
    SameButTarget (resyncReset s) (resyncReset t) := by
  unfold Machine.resyncReset
  rw [h.pinOf]
  split
  · exact h.hwReset.setCur _
  · exact ((h.setSignal .tms true).clocks softResetClocks).setCur _

/-- A walk from two states that differ in the target only. -/
theorem SameButTarget.walk {s t : State} (h : SameButTarget s t) (n : TapNode) {c : TapState}
    (hc : s.curState = some c) :
    ∃ x y, Machine.walk walkBound (.node n) s = some x ∧ Machine.walk walkBound (.node n) t = some y ∧
      SameButTarget x y := by
  have hc' : t.curState = some c := h.curState.trans hc
  cases c with
  | unknown =>
    exact ⟨_, _, walk_from_unknown n s hc, walk_from_unknown n t hc', h.resyncReset.issueTable _ _ _⟩
  | node c => exact ⟨_, _, walk_from_node c n s hc, walk_from_node c n t hc', h.issueTable _ _ _⟩

end Sys2Proof.Machine
end

