-- ==== Sys2Proof/Laws/PerInstr.lean ====
section
/-! SUPPORT. The per-instruction family EncodeRoundTrip: decoding an encoded command gives it back
(30_encoding.md R82, R88). -/

namespace Sys2Proof.Laws.EncodeRoundTrip

/-- The statement about one command. -/
def Statement (i : Instr) : Prop := decode (encode i) = .command i

theorem drvInit : Statement .drvInit := by rfl

theorem drvCfg (sig : Signal) (pin : BitVec 8) : Statement (.drvCfg sig pin) := by
  simp [Statement, encode, decode_cmd16, decodeFields, decodeDrvCfg]

theorem drvSet (sig : Signal) (value : Bool) : Statement (.drvSet sig value) := by
  cases value <;> simp [Statement, encode, decode_cmd16, decodeFields, decodeDrvSet, valueArg]

theorem drvGet (sig : Signal) : Statement (.drvGet sig) := by
  simp [Statement, encode, decode_cmd16, decodeFields, decodeSignalOnly]

theorem drvIsAlloc (sig : Signal) : Statement (.drvIsAlloc sig) := by
  simp [Statement, encode, decode_cmd16, decodeFields, decodeSignalOnly]

theorem tapInit : Statement .tapInit := by rfl

theorem tapSetState (target : TapState) : Statement (.tapSetState target) := by
  cases target with
  | unknown => rfl
  | node n => cases n <;> rfl

theorem tapGetState : Statement .tapGetState := by rfl

end Sys2Proof.Laws.EncodeRoundTrip
end

