-- ==== Sys2Proof/Laws/Still.lean ====
section
/-! SUPPORT. Targets that procedures leave where they are: one whose TCK terminal shows one level while TCK is
unallocated, and one held in `Reset` by TRST (70_reset_and_hazards.md R231, R233). -/

namespace Sys2Proof.Machine

/-! ### A still target -/

/-- What stays while TCK is unallocated: a still target in a state. -/
structure StillAt (s : State) (v : Bool) (ph : TapNode) : Prop where
  still : TerminalsStill s v
  noTck : s.pinOf .tck = none
  phys : s.target.phys = ph

theorem StillAt.write {s : State} {v : Bool} {ph : TapNode} (h : StillAt s v ph) {p : Pin}
    (hp : s.pinOf .tms = some p) (b : Bool) : StillAt (writeSetReset (levelWord p b) s) v ph := by
  have o := writeSetReset_onlyLatches (levelWord p b) s
  have hc : ShowsLevel (writeSetReset (levelWord p b) s) s.params.wiring.tck v := fun k => by
    rw [writeSetReset_terminalWire b (h.still.tckApart p hp)]; exact h.still.tck k
  have hr : s.params.targetHasTrst = true →
      ShowsLevel (writeSetReset (levelWord p b) s) s.params.wiring.trst true := fun hh k => by
    rw [writeSetReset_terminalWire b (h.still.trstApart hh p hp)]; exact h.still.trst hh k
  have ht := writeSetReset_target (levelWord p b) s
  obtain ⟨h1, h2⟩ := observe_still (t := s.target) hc h.still.tckSeen hr
  rw [← ht] at h1 h2
  refine ⟨⟨?_, h2, ?_, ?_, ?_⟩, (o.pinOf _).trans h.noTck, h1.trans h.phys⟩ <;> rw [o.params]
  · exact hc
  · exact fun m hm => h.still.tckApart m ((o.pinOf _).symm.trans hm)
  · exact hr
  · exact fun hh m hm => h.still.trstApart hh m ((o.pinOf _).symm.trans hm)

theorem StillAt.setTms {s : State} {v : Bool} {ph : TapNode} (h : StillAt s v ph) (b : Bool) :
    StillAt (setSignal .tms b s) v ph := by
  rcases setSignal_cases .tms b s with ⟨e, -⟩ | ⟨p, hp, -, -, e⟩ <;> rw [e]
  · exact h
  · exact h.write hp b

theorem StillAt.clock {s : State} {v : Bool} {ph : TapNode} (h : StillAt s v ph) : StillAt (clock s) v ph := by
  have e : Machine.clock s = Machine.hold s := by simp [Machine.clock, setSignal, h.noTck]
  obtain ⟨h1, h2⟩ := observe_still (P := s.params) (b := s.pins) (t := s.target.afterHold)
    h.still.tck h.still.tckSeen h.still.trst
  rw [e]
  exact ⟨⟨h.still.tck, h2, h.still.tckApart, h.still.trst, h.still.trstApart⟩, h.noTck, h1.trans h.phys⟩

theorem StillAt.issueTransition {s : State} {v : Bool} {ph : TapNode} (h : StillAt s v ph) (m : Bool)
    (n : TapNode) : StillAt (issueTransition m n s) v ph := by
  have k := (h.setTms m).clock
  exact ⟨⟨k.still.tck, k.still.tckSeen, k.still.tckApart, k.still.trst, k.still.trstApart⟩, k.noTck, k.phys⟩

/-- A walk with TCK unallocated leaves a still target where it was (95_test_vectors.md P5). -/
theorem StillAt.issueTable {s : State} {v : Bool} {ph : TapNode} (n : Nat) (c t : TapNode)
    (h : StillAt s v ph) : StillAt (issueTable n c t s) v ph := by
  induction n generalizing c s with
  | zero => exact h
  | succ n ih =>
    by_cases hc : c = t
    · simpa [Machine.issueTable, hc] using h
    · simp only [Machine.issueTable, hc, if_false]
      exact ih _ (h.issueTransition _ _)

/-! ### A target held in reset -/

/-- TRST driven low at the target, which is in `Reset`. -/
structure HeldAt (s : State) (r : Pin) : Prop where
  driven : TrstDriven s r
  low : (s.pin r).out = false
  phys : s.target.phys = .reset

theorem TrstDriven.of_latches {s t : State} {r : Pin} (h : TrstDriven s r) (o : OnlyLatches s t) :
    TrstDriven t r :=
  ⟨by rw [o.params]; exact h.hasTrst, by rw [o.params]; exact h.wired, (o.pinOf _).trans h.allocated,
   by rw [o.cfg]; exact h.output⟩

theorem TrstDriven.shows_low {s : State} {r : Pin} (h : TrstDriven s r) (hl : (s.pin r).out = false) :
    ShowsLevel s s.params.wiring.trst false := fun k => by
  rw [h.wired, terminalWire_output h.output, hl]; rfl

/-- A one-bit write that leaves TRST's latch low leaves the target held. -/
theorem TrstDriven.write_held {s : State} {r p : Pin} {b : Bool} (h : TrstDriven s r)
    (hl : ((writeSetReset (levelWord p b) s).pin r).out = false) :
    HeldAt (writeSetReset (levelWord p b) s) r := by
  have k := h.of_latches (writeSetReset_onlyLatches (levelWord p b) s)
  have e := k.hasTrst
  rw [(writeSetReset_onlyLatches (levelWord p b) s).params] at e
  have w := k.shows_low hl
  rw [(writeSetReset_onlyLatches (levelWord p b) s).params] at w
  exact ⟨k, hl, by rw [writeSetReset_target]; exact observe_held _ e w⟩

/-- Driving TRST low holds the target (70_reset_and_hazards.md R231). -/
theorem TrstDriven.setLow {s : State} {r : Pin} (h : TrstDriven s r) :
    HeldAt (setSignal .trst false s) r := by
  rw [setSignal_of_output false h.allocated (by simp [h.output])]
  exact h.write_held (by simp [writeSetReset_levelWord_pin])

theorem HeldAt.setOther {s : State} {r : Pin} (h : HeldAt s r) {g : Signal} (hg : s.pinOf g ≠ some r)
    (b : Bool) : HeldAt (setSignal g b s) r := by
  rcases setSignal_cases g b s with ⟨e, -⟩ | ⟨p, hp, -, -, e⟩ <;> rw [e]
  · exact h
  · have hne : r ≠ p := fun e => hg (e ▸ hp)
    exact h.driven.write_held (by rw [writeSetReset_levelWord_pin, if_neg hne]; exact h.low)

theorem HeldAt.hold {s : State} {r : Pin} (h : HeldAt s r) : HeldAt (hold s) r :=
  ⟨h.driven.of_latches (hold_onlyLatches s), h.low,
   observe_held (b := s.pins) s.target.afterHold h.driven.hasTrst (h.driven.shows_low h.low)⟩

theorem HeldAt.issueTransition {s : State} {r : Pin} (h : HeldAt s r) (hm : s.pinOf .tms ≠ some r)
    (hk : s.pinOf .tck ≠ some r) (m : Bool) (n : TapNode) : HeldAt (issueTransition m n s) r := by
  have o1 := setSignal_onlyLatches .tms m s
  have h1 := (h.setOther hm m).setOther (g := .tck) (by rw [o1.pinOf]; exact hk) true
  have o2 := (o1.trans (setSignal_onlyLatches .tck true _)).trans (hold_onlyLatches _)
  have h2 := h1.hold.setOther (g := .tck) (by rw [o2.pinOf]; exact hk) false
  exact ⟨⟨h2.driven.hasTrst, h2.driven.wired, h2.driven.allocated, h2.driven.output⟩, h2.low, h2.phys⟩

/-- A walk with TRST driven low leaves the target in `Reset` (70_reset_and_hazards.md R231). -/
theorem HeldAt.issueTable {s : State} {r : Pin} (n : Nat) (c t : TapNode) (h : HeldAt s r)
    (hm : s.pinOf .tms ≠ some r) (hk : s.pinOf .tck ≠ some r) : HeldAt (issueTable n c t s) r := by
  induction n generalizing c s with
  | zero => exact h
  | succ n ih =>
    by_cases hc : c = t
    · simpa [Machine.issueTable, hc] using h
    · have o := issueTransition_onlyLatches (nextRow c t).1 (nextRow c t).2 s
      simp only [Machine.issueTable, hc, if_false]
      exact ih _ (h.issueTransition hm hk _ _) (by rw [o.pinOf]; exact hm) (by rw [o.pinOf]; exact hk)

end Sys2Proof.Machine
end

