-- ==== Sys2Proof/Tests/Slice0.lean ====
section
/-! SUPPORT. Tests on small states, and for each statement with hypotheses a state and operands that meet
them. Expected values come from 30_encoding.md R94, 95_test_vectors.md and the rules named; no value here is
the model's own answer. -/

namespace Sys2Proof.Tests

open Sys2Proof Sys2Proof.Machine

/-! ### Helper states -/

/-- The default wiring of 95_test_vectors.md, with TRST on pin 4 if the target has one; every timing premise
holds. -/
def params (hasTrst : Bool) : Params where
  regAddr := ⟨0, 4, 8, 12⟩
  clkenBit := 17
  wiring := ⟨some 0, some 1, some 2, some 3, if hasTrst then some 4 else none⟩
  targetHasTrst := hasTrst
  tmsSetupMet := true
  tckLowMet := true
  trstRecoveryMet := true

/-- A target in a state, which has seen TCK low, a TMS level and a TRST level. -/
def target (phys : TapNode) (tms trst : Bool) : Target :=
  ⟨phys, false, tms, trst, false, false, false, 0⟩

/-- Pins that agree with an allocation: outputs where an output-capable signal is, with the given latches. -/
def pins (a : AllocTable) (outs : BitVec 16) : Vector PinRegs 16 :=
  Vector.ofFn fun p =>
    ⟨if a.tck = some p ∨ a.tms = some p ∨ a.tdi = some p ∨ a.trst = some p then outputCfg else inputCfg,
     outs.getLsbD p.val⟩

/-- The allocation `DRV_INIT` leaves, with TRST's entry as given. -/
def alloc (trst : Option Pin) : AllocTable := ⟨some 0, some 1, some 2, some 3, trst⟩

/-- Nothing initialised. -/
def blank : State :=
  ⟨[], [], none, none, none, pins AllocTable.empty 0, 0x40, [], target .drPause false true, params false, 0⟩

/-- A ready driver. -/
def ready (hasTrst : Bool) (cur : TapState) (a : AllocTable) (u outs : BitVec 16) (phys : TapNode) : State :=
  ⟨[], [], some cur, some a, some u, pins a outs, 0x40, [], target phys (outs.getLsbD 1) true,
    params hasTrst, 0⟩

/-- After `DRV_INIT`, without TRST, both sides in one state. -/
def plain (n : TapNode) : State := ready false (.node n) (alloc none) 0x000F 0 n

/-- The same with a cached state of `Unknown`. -/
def lost (phys : TapNode) : State := ready false .unknown (alloc none) 0x000F 0 phys

/-- TRST on pin 4 and released, both sides in one state. -/
def withTrst (n : TapNode) : State := ready true (.node n) (alloc (some 4)) 0x001F 0x0010 n

/-- TCK freed. -/
def noTck (n : TapNode) : State := ready false (.node n) ⟨none, some 1, some 2, some 3, none⟩ 0x000E 0 n

/-- The state with a stream of words. -/
def issued (l : List Word) (s : State) : State := { s with port := l }

/-- A field of the next state. -/
def after {α : Type} (o : Host.Outcome State Fault Refusal) (f : State → α) : Option α :=
  match o with
  | .next t => some (f t)
  | .fault _ => none
  | .refused _ => none

/-- A set/reset write. -/
def wr (v : RegWord) : Event := .write .setReset v

/-- The settle hold. -/
def hd : Event := .hold .dSettle

/-! ### Words (30_encoding.md R82, R94; 95_test_vectors.md 2.4) -/

theorem test_word_drvInit : decode 0b0001000000000000 = .command .drvInit := by decide
theorem test_word_drvCfg : decode 0b0010010000000100 = .command (.drvCfg .trst 4) := by decide
theorem test_word_drvCfg_free : decode 0b0010001011111111 = .command (.drvCfg .tdi 0xFF) := by decide
theorem test_word_drvCfg_range : decode 0b0010000000010000 = .command (.drvCfg .tck 16) := by decide
theorem test_word_drvSet : decode 0b0011000100000001 = .command (.drvSet .tms true) := by decide
theorem test_word_drvGet : decode 0b0100001100000000 = .command (.drvGet .tdo) := by decide
theorem test_word_drvIsAlloc : decode 0b0101010000000000 = .command (.drvIsAlloc .trst) := by decide
theorem test_word_tapInit : decode 0b1001000000000000 = .command .tapInit := by decide
theorem test_word_tapSetState : decode 0b1010000000010000 = .command (.tapSetState (.node .irUpdate)) := by
  decide
theorem test_word_tapGetState : decode 0b1011000000000000 = .command .tapGetState := by decide

/-- The refused words of 95_test_vectors.md 2.4. -/
theorem test_refused_words :
    decode 0x1001 = .refuse .reservedBits ∧ decode 0x2500 = .refuse .badSignal ∧
    decode 0x3102 = .refuse .reservedBits ∧ decode 0x3F01 = .refuse .badSignal ∧
    decode 0x4301 = .refuse .reservedBits ∧ decode 0xA011 = .refuse .badState ∧
    decode 0xA01F = .refuse .badState ∧ decode 0xA020 = .refuse .reservedBits ∧
    decode 0xA100 = .refuse .reservedBits ∧
    [0x0000, 0x6000, 0x7ABC, 0x8000, 0xC000, 0xFFFF].all
      (fun w => decide (decode w = .refuse .reservedOpcode)) = true := by decide

/-- Low byte first (20_memory.md R64): 0x2404 travels as 04, 24. -/
theorem test_bytes : bytesOfWord 0x2404 = [0x04, 0x24] ∧ wordsOfBytes [0x04, 0x24, 0x00] = [0x2404] := by decide

/-- The host's two entries, on the words of R94. -/
theorem test_tableWord :
    decodeTableWord 16 0xA005 = some (.tapSetState (.node .drShift)) ∧ decodeTableWord 16 0x3202 = none ∧
    (State.withFetchWord blank 16 0x2404).port = [0x2404] := by decide

/-! ### WellFormed: each check refuses an ill-formed word -/

theorem test_wf_opcode : wellFormedWord 0x7000 = false := by decide
theorem test_wf_reserved_arg : wellFormedWord 0x3202 = false := by decide
theorem test_wf_reserved_sig : wellFormedWord 0xA100 = false := by decide
theorem test_wf_signal : wellFormedWord 0x2500 = false := by decide
theorem test_wf_state : wellFormedWord 0xA011 = false := by decide
theorem test_wf_accepts :
    [0x1000, 0x2404, 0x20FF, 0x3101, 0x4300, 0x5400, 0x9000, 0xA010, 0xB000].all wellFormedWord = true := by
  decide

/-- No word agrees with two rows of the opcode table. -/
theorem test_rows_apart :
    opRows.Pairwise fun a b => a.value &&& (a.mask &&& b.mask) ≠ b.value &&& (a.mask &&& b.mask) := by decide

/-! ### Assembler (30_encoding.md R92, R93) -/

theorem test_assemble :
    assemble ⟨"DRV_CFG", ["TRST", "4"]⟩ = some (.drvCfg .trst 4) ∧
    assemble ⟨"DRV_FREE", ["TDI"]⟩ = some (.drvCfg .tdi 0xFF) ∧
    assemble ⟨"DRV_SET", ["TDI", "2"]⟩ = none ∧
    lineText (asmLine (.drvCfg .trst 4)) = "DRV_CFG TRST, 4" := by decide

/-! ### The graph -/

/-- T1 to T26 of 95_test_vectors.md 2.2. -/
theorem test_next_rows :
    ([(.reset, .drShift, false, .idle), (.idle, .reset, true, .drScan),
      (.drScan, .drUpdate, false, .drCapture), (.drScan, .irScan, true, .irScan),
      (.drCapture, .drShift, false, .drShift), (.drCapture, .drPause, true, .drExit1),
      (.drShift, .idle, true, .drExit1), (.drExit1, .drShift, false, .drPause),
      (.drExit1, .drCapture, true, .drUpdate), (.drPause, .drExit1, true, .drExit2),
      (.drExit2, .drExit1, false, .drShift), (.drExit2, .idle, true, .drUpdate),
      (.drUpdate, .idle, false, .idle), (.drUpdate, .irShift, true, .drScan),
      (.irScan, .irUpdate, false, .irCapture), (.irScan, .drUpdate, true, .reset),
      (.irCapture, .irShift, false, .irShift), (.irCapture, .irPause, true, .irExit1),
      (.irShift, .irCapture, true, .irExit1), (.irExit1, .irShift, false, .irPause),
      (.irExit1, .irCapture, true, .irUpdate), (.irPause, .irShift, true, .irExit2),
      (.irExit2, .irPause, false, .irShift), (.irExit2, .irCapture, true, .irUpdate),
      (.irUpdate, .idle, false, .idle), (.irUpdate, .drScan, true, .drScan)] :
      List (TapNode × TapNode × Bool × TapNode)).all
      (fun (c, t, m, n) => decide (next (.node c) (.node t) = some (m, n))) = true := by decide

/-- One cell of the walk table: a character per level, `-` for none. -/
def cell (c t : TapNode) : String :=
  match walkLevels c t with
  | [] => "-"
  | l => l.foldl (fun text v => text ++ valueText v) ""

/-- The 16 states in listing order. -/
def nodes : List TapNode := allStates.filterMap fun | .node n => some n | .unknown => none

/-- A row of the walk table. -/
def row (c : TapNode) : String := " ".intercalate (nodes.map (cell c))

/-- The whole walk table of 95_test_vectors.md 2.1, its DR half. -/
theorem test_walk_table_dr : (nodes.take 9).map row =
    ["- 0 01 010 0100 0101 01010 010101 01011 011 0110 01100 01101 011010 0110101 011011",
     "111 - 1 10 100 101 1010 10101 1011 11 110 1100 1101 11010 110101 11011",
     "11 110 - 0 00 01 010 0101 011 1 10 100 101 1010 10101 1011",
     "11111 110 111 - 0 1 10 101 11 1111 11110 111100 111101 1111010 11110101 1111011",
     "11111 110 111 1110 - 1 10 101 11 1111 11110 111100 111101 1111010 11110101 1111011",
     "1111 10 11 110 010 - 0 01 1 111 1110 11100 11101 111010 1110101 111011",
     "11111 110 111 1110 10 101 - 1 11 1111 11110 111100 111101 1111010 11110101 1111011",
     "1111 10 11 110 0 01 010 - 1 111 1110 11100 11101 111010 1110101 111011",
     "111 0 1 10 100 101 1010 10101 - 11 110 1100 1101 11010 110101 11011"] := by decide +kernel

/-- Its IR half. -/
theorem test_walk_table_ir : (nodes.drop 9).map row =
    ["1 10 101 1010 10100 10101 101010 1010101 101011 - 0 00 01 010 0101 011",
     "11111 110 111 1110 11100 11101 111010 1110101 111011 1111 - 0 1 10 101 11",
     "11111 110 111 1110 11100 11101 111010 1110101 111011 1111 11110 - 1 10 101 11",
     "1111 10 11 110 1100 1101 11010 110101 11011 111 1110 010 - 0 01 1",
     "11111 110 111 1110 11100 11101 111010 1110101 111011 1111 11110 10 101 - 1 11",
     "1111 10 11 110 1100 1101 11010 110101 11011 111 1110 0 01 010 - 1",
     "111 0 1 10 100 101 1010 10101 1011 11 110 1100 1101 11010 110101 -"] := by decide +kernel

/-- How many pairs have a walk of each length (41_tap_controller.md R155). -/
theorem test_walk_lengths :
    let lengths := nodes.flatMap fun c => nodes.map fun t => (walkLevels c t).length
    (List.range 9).map (fun n => lengths.count n) = [16, 26, 38, 52, 42, 40, 26, 13, 3] := by decide +kernel

/-- Two drain paths of 95_test_vectors.md 2.3 (41_tap_controller.md R159). -/
theorem test_drain :
    runLevels .irPause [true, true, true, true, true] = .reset ∧
    runLevels .irPause [true, true, true, true] = .irScan := by decide

/-! ### Commands -/

/-- E1, the trace. -/
theorem test_drvInit_trace : after (exec .drvInit blank) State.events = some (
    (List.finRange 16).map (fun p => Event.config p inputCfg) ++
    [wr 0xFFFF0000, .read .clken 0x00000040, .write .clken 0x00020040,
     wr 0x00010000, .config 0 outputCfg, wr 0x00020000, .config 1 outputCfg,
     wr 0x00040000, .config 2 outputCfg, .config 3 inputCfg]) := by decide

/-- E1, the state. -/
theorem test_drvInit_state :
    after (exec .drvInit blank) (fun t => (t.alloc, t.pinUsage)) = some (some (alloc none), some 0x000F) := by
  decide

/-- E5: TCK moves to pin 5. -/
theorem test_drvCfg_move :
    after (exec (.drvCfg .tck 5) (plain .idle)) (fun t => (t.events, t.pinUsage)) =
      some ([.config 0 inputCfg, wr 0x00010000, wr 0x00200000, .config 5 outputCfg], some 0x002E) := by decide

/-- 2.5: TDO moves to pin 7, with no write for the new pin. -/
theorem test_drvCfg_tdo :
    after (exec (.drvCfg .tdo 7) (plain .idle)) (fun t => (t.events, t.pinUsage)) =
      some ([.config 3 inputCfg, wr 0x00080000, .config 7 inputCfg], some 0x0087) := by decide

/-- 2.6: TDI high. -/
theorem test_drvSet_tdi :
    after (exec (.drvSet .tdi true) (plain .idle)) State.events = some [wr 0x00000004] := by decide

/-- 2.6: an unallocated TRST. -/
theorem test_drvSet_free :
    after (exec (.drvSet .trst false) (plain .idle)) State.events = some [] := by decide

/-- E7: the level read is bit 3 of the word drawn. -/
theorem test_drvGet_tdo :
    after (exec (.drvGet .tdo) (plain .idle)) State.completions =
      some [⟨if (Config.inputOracle 0).getLsbD 3 then 1 else 0, none⟩] := rfl

/-- E7: an unallocated TRST reads 0 with no event. -/
theorem test_drvGet_free :
    after (exec (.drvGet .trst) (plain .idle)) (fun t => (t.completions, t.events)) = some ([⟨0, none⟩], []) := by
  decide

/-- 2.6. -/
theorem test_drvIsAlloc :
    after (exec (.drvIsAlloc .tdo) (plain .idle)) State.completions = some [⟨1, none⟩] ∧
    after (exec (.drvIsAlloc .trst) (plain .idle)) State.completions = some [⟨0, none⟩] := by decide

/-- R150's example: from DR_Shift, `Unknown` with no event. -/
theorem test_tapInit :
    after (exec .tapInit (plain .drShift)) (fun t => (t.curState, t.events)) = some (some .unknown, []) := by
  decide

/-- E10, corrected: Reset to DR_Shift. -/
theorem test_tapSetState_walk :
    after (exec (.tapSetState (.node .drShift)) (plain .reset)) (fun t => (t.events, t.target.phys)) =
      some ([wr 0x00020000, wr 0x00000001, hd, wr 0x00010000, wr 0x00000002, wr 0x00000001, hd, wr 0x00010000,
             wr 0x00020000, wr 0x00000001, hd, wr 0x00010000, wr 0x00020000, wr 0x00000001, hd, wr 0x00010000],
            .drShift) := by decide

/-- E9 with TRST on pin 4. -/
theorem test_tapSetState_trst :
    after (exec (.tapSetState (.node .reset)) (withTrst .irShift)) (fun t => (t.events, t.target.phys)) =
      some ([wr 0x00000002, wr 0x00100000, hd, wr 0x00000010], .reset) := by decide

/-- 2.8: after a walk to IR_Pause the response is 0x000E. -/
theorem test_tapGetState :
    after (exec .tapGetState (plain .irPause)) State.completions = some [⟨0x000E, none⟩] := by decide

/-- 2.8: the two faults. -/
theorem test_faults :
    exec .tapGetState blank = .fault .uninitTap ∧
    exec (.tapSetState (.node .idle)) { blank with curState := some .unknown } = .fault .uninitDriver :=
  ⟨rfl, rfl⟩

/-! ### The target -/

/-- P4, step 7: a caller's TCK edge with TMS high takes the target from Idle to DR_Scan. -/
theorem test_caller_edge :
    after (exec (.drvSet .tck true) (ready false (.node .idle) (alloc none) 0x000F 0x0002 .idle))
      (fun t => (t.curState, t.target.phys)) = some (some (.node .idle), .drScan) := by decide

/-- P2, step 2: allocating TRST resets the target at once. -/
theorem test_trst_allocation :
    after (exec (.drvCfg .trst 4) (ready true .unknown (alloc none) 0x000F 0 .irPause))
      (fun t => (t.events, t.target.phys)) =
      some ([wr 0x00100000, .config 4 outputCfg], .reset) := by decide

/-- TRST driven low by the caller resets the target, and the cache stays (40_pin_driver.md R111 d). -/
theorem test_trst_low :
    after (exec (.drvSet .trst false) (withTrst .irPause))
      (fun t => (t.events, t.target.phys, t.curState)) =
      some ([wr 0x00100000], .reset, some (.node .irPause)) := by decide

/-- Without TRST a target takes its edges whatever TRST_RECOVERY_MET is (93_implementation_defined.md I7). -/
theorem test_recovery_without_trst :
    ((target .idle false true).sampleLevels { params false with trstRecoveryMet := false } true true true).phys =
      .drScan := by decide

/-- With TRST, only the first edge after its release is free: the second is a transition again (I7). -/
theorem test_recovery_first_edge_only :
    let P : Params := { params true with trstRecoveryMet := false }
    let released := (target .reset false false).sampleLevels P false false true
    let fallen := (released.sampleLevels P true false true).sampleLevels P false false true
    released.afterRelease = true ∧
    ({ fallen with phys := .idle } : Target).sampleLevels P true true true =
      { fallen with phys := .drScan, tckSeen := true, tmsSeen := true, tmsFresh := true,
                    draws := fallen.draws + 3 } := ⟨rfl, rfl⟩

/-- P1, step 3: the five-clock reset drains the target from DR_Pause. -/
theorem test_software_reset :
    after (exec (.tapSetState (.node .reset)) (lost .drPause)) (fun t => (t.events.length, t.target.phys)) =
      some (16, .reset) := by decide

/-- P5, step 5: with TCK free, TMS writes and holds only. -/
theorem test_walk_without_tck :
    after (exec (.tapSetState (.node .drShift)) (noTck .idle)) (fun t => (t.events, t.curState)) =
      some ([wr 0x00000002, hd, wr 0x00020000, hd, wr 0x00020000, hd], some (.node .drShift)) := by decide

/-! ### WITNESSES: every statement's hypotheses can be met together

One theorem per statement with hypotheses, named after it; a statement with several clauses has a conjunct or
a theorem for each. -/

theorem forall_signal {P : Signal → Prop} (h : ∀ g ∈ allSignals, P g) : ∀ g, P g :=
  fun g => h g (by cases g <;> decide)

/-- A state with the driver invariants: TRST on pin 4 and high, TDI low or high. -/
theorem readyInv_trst (n : TapNode) (tdi : Bool) :
    ReadyInv (ready true (.node n) (alloc (some 4)) 0x001F (if tdi then 0x0014 else 0x0010) n) := by
  refine ⟨rfl, rfl, fun p => ?_, fun p g k hg hk => ?_, fun g p => ?_, fun p => ?_, fun p => ?_⟩
  · have hu : (0x001F#16).getLsbD p.val = allSignals.any fun g => (alloc (some 4)).get g == some p := by
      revert p; decide
    show (0x001F#16).getLsbD p.val = true ↔ ∃ g, (alloc (some 4)).get g = some p
    rw [hu, List.any_eq_true]
    exact ⟨fun ⟨g, _, h⟩ => ⟨g, by simpa using h⟩, fun ⟨g, h⟩ => ⟨g, by cases g <;> decide, by simpa using h⟩⟩
  · have h : (alloc (some 4)).get g = (alloc (some 4)).get k := hg.trans hk.symm
    cases g <;> cases k <;> first | rfl | exact absurd h (by decide)
  · exact (forall_signal (P := fun g => ∀ (b : Bool) (p : Pin), outputCapable g = true →
      (alloc (some 4)).get g = some p →
      ((pins (alloc (some 4)) (if b then 0x0014 else 0x0010))[p.val]).cfg = outputCfg) (by decide)) g tdi p
  · exact (by decide : ∀ (b : Bool) (p : Pin), (alloc (some 4)).tdo = some p →
      ((pins (alloc (some 4)) (if b then 0x0014 else 0x0010))[p.val]).cfg.mode = .input ∧
      ((pins (alloc (some 4)) (if b then 0x0014 else 0x0010))[p.val]).cfg.pull = .disabled) tdi p
  · exact (by decide : ∀ (b : Bool) (p : Pin), (0x001F#16).getLsbD p.val = false →
      ((pins (alloc (some 4)) (if b then 0x0014 else 0x0010))[p.val]).cfg.mode = .input ∧
      ((pins (alloc (some 4)) (if b then 0x0014 else 0x0010))[p.val]).out = false) tdi p

theorem readyInv_withTrst (n : TapNode) : ReadyInv (withTrst n) := readyInv_trst n false

/-- A state with the driver invariants, without TRST, whatever the two sides believe. -/
theorem readyInv_noTrst (c : TapState) (n : TapNode) : ReadyInv (ready false c (alloc none) 0x000F 0 n) := by
  have hu : ∀ p, (ready false c (alloc none) 0x000F 0 n).used p =
      allSignals.any fun g => (ready false c (alloc none) 0x000F 0 n).pinOf g == some p := by
    intro p; revert p; exact (by decide : ∀ p : Pin, (0x000F#16).getLsbD p.val =
      allSignals.any fun g => (alloc none).get g == some p)
  refine ⟨rfl, rfl, fun p => ?_, fun p g k hg hk => ?_, fun g p => ?_, fun p => ?_, fun p => ?_⟩
  · rw [hu, List.any_eq_true]
    exact ⟨fun ⟨g, _, h⟩ => ⟨g, by simpa using h⟩, fun ⟨g, h⟩ => ⟨g, by cases g <;> decide, by simpa using h⟩⟩
  · have h : (alloc none).get g = (alloc none).get k := hg.trans hk.symm
    cases g <;> cases k <;> first | rfl | exact absurd h (by decide)
  · exact (forall_signal (P := fun g => ∀ p : Pin, outputCapable g = true → (alloc none).get g = some p →
      ((pins (alloc none) 0)[p.val]).cfg = outputCfg) (by decide)) g p
  · exact (by decide : ∀ p : Pin, (alloc none).tdo = some p →
      ((pins (alloc none) 0)[p.val]).cfg.mode = .input ∧ ((pins (alloc none) 0)[p.val]).cfg.pull = .disabled) p
  · exact (by decide : ∀ p : Pin, (0x000F#16).getLsbD p.val = false →
      ((pins (alloc none) 0)[p.val]).cfg.mode = .input ∧ ((pins (alloc none) 0)[p.val]).out = false) p

theorem linked_withTrst (n : TapNode) : Linked (withTrst n) where
  inv := (readyInv_withTrst n).inv
  clock := ⟨⟨0, rfl, rfl⟩, 1, rfl, rfl⟩
  trst := .inl ⟨rfl, 4, rfl, rfl⟩
  timing := ⟨rfl, rfl, fun _ => rfl⟩
  tckLow := by intro p hp; cases hp; rfl
  seen := ⟨fun v hv => by cases hv; rfl, fun v hv => by cases hv; rfl, fun v hv => by cases hv; rfl⟩

theorem linked_noTrst (c : TapState) (n : TapNode) : Linked (ready false c (alloc none) 0x000F 0 n) where
  inv := (readyInv_noTrst c n).inv
  clock := ⟨⟨0, rfl, rfl⟩, 1, rfl, rfl⟩
  trst := .inr fun h => Bool.noConfusion h
  timing := ⟨rfl, rfl, fun _ => rfl⟩
  tckLow := by intro p hp; cases hp; rfl
  seen := ⟨fun v hv => by cases hv; rfl, fun v hv => by cases hv; rfl, fun v hv => by cases hv⟩

theorem released_withTrst (n : TapNode) : TrstReleased (withTrst n) := fun _ p hp _ => by cases hp; rfl

theorem cacheTrue_withTrst (n : TapNode) : CacheTrue (withTrst n) := by
  intro m hm
  have : n = m := TapState.node.inj (Option.some.inj hm)
  exact ⟨this, released_withTrst n⟩

theorem cacheTrue_lost (n : TapNode) : CacheTrue (lost n) := fun m hm => by cases hm

theorem withPort_linked {s : State} (h : Linked s) (l : List Word) : Linked (issued l s) :=
  ⟨⟨h.inv, h.clock, h.trst, h.timing, h.seen⟩, h.tckLow⟩

/-- TRST driven low by the caller, with the cached state left at Idle. -/
def trstLow : State := setSignal .trst false (withTrst .idle)

theorem witness_DecodedWordEncodesBack : decode 0xA010 = .command (.tapSetState (.node .irUpdate)) := by decide

/-- A boundary word for each clause. -/
theorem witness_MeaninglessWordsAreRefused :
    (issued [0xFFFF] blank).port = 0xFFFF :: [] ∧
    opField 0xFFFF ∈ ([0x0, 0x6, 0x7, 0x8, 0xC, 0xD, 0xE, 0xF] : List (BitVec 4)) ∧
    (opField 0x2500 ∈ ([0x2, 0x3, 0x4, 0x5] : List (BitVec 4)) ∧ 5 ≤ (sigField 0x2500).toNat) ∧
    (opField 0x1001 ∈ ([0x1, 0x9, 0xB] : List (BitVec 4)) ∧ (sigField 0x1001 ≠ 0 ∨ argField 0x1001 ≠ 0)) ∧
    (opField 0x3402 = 0x3 ∧ (sigField 0x3402).toNat ≤ 4 ∧ (argField 0x3402).extractLsb' 1 7 ≠ 0) ∧
    (opField 0x5401 ∈ ([0x4, 0x5] : List (BitVec 4)) ∧ (sigField 0x5401).toNat ≤ 4 ∧ argField 0x5401 ≠ 0) ∧
    (opField 0xA020 = 0xA ∧ (sigField 0xA020 ≠ 0 ∨ (argField 0xA020).extractLsb' 5 3 ≠ 0)) ∧
    (opField 0xA011 = 0xA ∧ sigField 0xA011 = 0 ∧ (argField 0xA011).extractLsb' 5 3 = 0 ∧
      17 ≤ ((argField 0xA011).extractLsb' 0 5).toNat) := by decide

theorem witness_StepRunsTheDecodedCommand :
    (issued [0xA005] (withTrst .idle)).port = [0xA005] ∧
    decode 0xA005 = .command (.tapSetState (.node .drShift)) ∧
    steadyWires (withTrst .idle).params (withTrst .idle).pins = true ∧ SeenLevels (withTrst .idle) :=
  ⟨rfl, by decide, by decide, (linked_withTrst .idle).seen⟩

/-- TRST released, and TRST driven low. -/
theorem witness_WaitingChangesNothingAtTheSequencer :
    ((withTrst .idle).port = [] ∧ steadyWires (withTrst .idle).params (withTrst .idle).pins = true ∧
      SeenLevels (withTrst .idle)) ∧
    (trstLow.port = [] ∧ steadyWires trstLow.params trstLow.pins = true ∧ SeenLevels trstLow ∧
      terminalWire trstLow.pins trstLow.params.wiring.trst = .driven false) :=
  ⟨⟨rfl, by decide, (linked_withTrst .idle).seen⟩, rfl, by decide,
   setSignal_seen (linked_withTrst .idle).seen .trst false, rfl⟩

/-- The three patterns of a pin's two bits, at pins 0 and 15. -/
theorem witness_SetResetWriteDrivesLatches :
    ((0x00008000#32).getLsbD 15 = true ∧ (0x00008000#32).getLsbD (15 + 16) = false) ∧
    ((0x00010000#32).getLsbD 0 = false ∧ (0x00010000#32).getLsbD (0 + 16) = true) ∧
    ((0x00010000#32).getLsbD 15 = false ∧ (0x00010000#32).getLsbD (15 + 16) = false) := by decide

theorem witness_WireFollowsModeAndLatch :
    (⟨outputCfg, true⟩ : PinRegs).cfg.mode = .output ∧ (⟨inputCfg, true⟩ : PinRegs).cfg.mode = .input ∧
    (⟨⟨.other, .other, .other, .other⟩, true⟩ : PinRegs).cfg.mode = .other := ⟨rfl, rfl, rfl⟩

/-- The third clause also for a target with TRST whose release is past, with the recovery premise false. -/
theorem witness_TargetFollowsRisingEdges :
    (params true).targetHasTrst = true ∧ TimingPremises (params true) ∧
    (params false).targetHasTrst = false ∧ (target .idle false true).tckSeen = false ∧
    (let P : Params := { params true with trstRecoveryMet := false }
     P.tmsSetupMet = true ∧ P.tckLowMet = true ∧ (target .idle false true).trstSeen = true ∧
       (target .idle false true).afterRelease = false) :=
  ⟨rfl, ⟨rfl, rfl, fun _ => rfl⟩, rfl, rfl, rfl, rfl, rfl, rfl⟩

theorem witness_StepLeavesLevelsSeen : ∃ t, step (issued [0x1000] blank) = .next t := ⟨_, rfl⟩

theorem witness_CfgFreesThePin :
    (plain .idle).driverReady = true ∧ (plain .idle).pinOf .tck = some 0 := ⟨rfl, rfl⟩

/-- TRST fresh on the highest pin, TMS moved to a free pin, and TDO moved. -/
theorem witness_CfgAllocatesThePin :
    (plain .idle).driverReady = true ∧
    ((plain .idle).used 15 = true → (plain .idle).owner 15 = some .trst) ∧
    (plain .idle).pinOf .trst ≠ some 15 ∧ (plain .idle).pinOf .tms ≠ some 15 ∧
    (plain .idle).pinOf .tdo ≠ some 15 := by decide

theorem witness_CfgFailuresChangeNothing :
    (plain .idle).driverReady = true ∧ (0x10 ≤ (0x10#8).toNat ∧ (0x10#8) ≠ 0xFF) ∧
    (0x10 ≤ (0xFE#8).toNat ∧ (0xFE#8) ≠ 0xFF) ∧
    ((plain .idle).used 0 = true ∧ (plain .idle).owner 0 ≠ some .tms) := by decide

theorem witness_CfgFailuresChangeNothing_reason :
    ∃ t, exec (.drvCfg .tms 0) (plain .idle) = .next t ∧
      t.completions = (plain .idle).completions ++ [⟨0, some .pinConflict⟩] := ⟨_, rfl, rfl⟩

theorem witness_CfgNoOpsSucceed :
    (plain .idle).driverReady = true ∧ (plain .idle).pinOf .trst = none ∧
    ((plain .idle).used 1 = true → (plain .idle).owner 1 = some .tms) ∧ (plain .idle).pinOf .tms = some 1 := by
  decide

theorem witness_CfgAlwaysCompletes : (plain .idle).driverReady = true := rfl

theorem witness_DrvSetDrivesOnePin :
    blank.alloc = none ∧ ((plain .idle).alloc.isSome = true ∧ (plain .idle).pinOf .trst = none) ∧
    ((plain .idle).pinOf .tdo = some 3 ∧ ((plain .idle).pin 3).cfg.mode = .input) ∧
    ((plain .idle).pinOf .tck = some 0 ∧ ((plain .idle).pin 0).cfg.mode ≠ .input) := by decide

theorem witness_DrvGetReturnsTheDrawnLevel :
    blank.alloc = none ∧ ((plain .idle).alloc.isSome = true ∧ (plain .idle).pinOf .trst = none) ∧
    (plain .idle).pinOf .tdo = some 3 := by decide

theorem witness_DrvIsAllocReportsTheEntry :
    blank.alloc = none ∧ (plain .idle).alloc.isSome = true := ⟨rfl, rfl⟩

theorem witness_TapGetStateReadsTheCache :
    blank.curState = none ∧ (lost .idle).curState = some .unknown ∧
    (plain .irUpdate).curState = some (.node .irUpdate) := ⟨rfl, rfl, rfl⟩

/-- The third clause's state: `TAP_INIT` has run and `DRV_INIT` has not. -/
theorem witness_UnwrittenReadsFault :
    (blank.alloc = none ∧ blank.curState = none) ∧
    (({ blank with curState := some (.node .idle) } : State).alloc = none ∧
      (TapNode.reset = .reset ∨ TapState.node .idle ≠ .node .reset)) := by decide

theorem witness_SetStateUnknownOnlyMarks :
    (lost .idle).curState = some .unknown ∧
    ({ blank with curState := some (.node .idle) } : State).curState = some (.node .idle) := ⟨rfl, rfl⟩

/-- Target Idle with no table written, and target Reset with a table without TRST. -/
theorem witness_SetStateHereIssuesNothing :
    (({ blank with curState := some (.node .idle) } : State).curState = some (.node .idle)) ∧
    ((plain .reset).curState = some (.node .reset) ∧ (plain .reset).alloc.isSome = true ∧
      (plain .reset).pinOf .trst = none) := by decide

theorem witness_SetStateResetPulsesTrst :
    (withTrst .reset).curState = some (.node .reset) ∧ (withTrst .reset).pinOf .trst = some 4 ∧
    ((withTrst .reset).pin 4).cfg.mode ≠ .input ∧
    ((withTrst .reset).pinOf .tms = some 1 ∧ ((withTrst .reset).pin 1).cfg.mode ≠ .input) := by decide

/-- The longest walk, and the walk to Reset without TRST. -/
theorem witness_SetStateWalksAShortestWay :
    (withTrst .drShift).curState = some (.node .drShift) ∧ (withTrst .drShift).alloc.isSome = true ∧
    (plain .drShift).curState = some (.node .drShift) ∧ (plain .drShift).pinOf .trst = none := by decide

theorem witness_SetStateFromUnknownResetsFirst :
    (lost .drPause).curState = some .unknown ∧ (lost .drPause).alloc.isSome = true := ⟨rfl, rfl⟩

theorem witness_WalksTakeAtMostEightSteps :
    (plain .drCapture).curState = some (.node .drCapture) ∧ (plain .drCapture).alloc.isSome = true ∧
    (plain .drCapture).pinOf .trst = none := by decide

theorem witness_SetStateTouchesOnlyItsThreePins :
    ∃ t, exec (.tapSetState (.node .drShift)) (plain .idle) = .next t := ⟨_, rfl⟩

theorem witness_WalkLeavesTmsHoldingTheState :
    (plain .idle).curState = some (.node .idle) ∧ stableNode .reset = true ∧ stableNode .irPause = true ∧
    (plain .idle).pinOf .trst = none ∧ (plain .idle).pinOf .tms = some 1 ∧
    ((plain .idle).pin 1).cfg.mode = .output ∧ (plain .idle).pinOf .tck ≠ some 1 := by decide

theorem witness_NextFollowsTheGraph : next (.node .irScan) (.node .drUpdate) = some (true, .reset) := by decide

/-- TDI now drives the pin of the target's TCK, low. -/
theorem witness_WalkWithoutTckLeavesAStillTarget :
    let s := ready false (.node .idle) ⟨none, some 1, some 0, some 3, none⟩ 0x000B 0 .idle
    s.curState = some (.node .idle) ∧ s.alloc.isSome = true ∧ s.pinOf .trst = none ∧ s.pinOf .tck = none ∧
    TerminalsStill s false :=
  ⟨rfl, rfl, rfl, rfl, fun _ => rfl, rfl, fun m hm => (by cases hm; decide),
   fun h => absurd h (by decide), fun h => absurd h (by decide)⟩

/-- A target whose TRST shares the pin of TDI, which holds it at 1, with a spare TRST on pin 4. -/
def quiet (n : TapNode) : State :=
  { ready true (.node n) (alloc (some 4)) 0x001F 0x0014 n with
    params := { params true with wiring := ⟨some 0, some 1, some 2, some 3, some 2⟩ } }

theorem linked_quiet (n : TapNode) : Linked (quiet n) where
  inv := (readyInv_trst n true).inv
  clock := ⟨⟨0, rfl, rfl⟩, 1, rfl, rfl⟩
  trst := .inr fun _ => ⟨fun _ => rfl, by
    have apart : ∀ g ∈ tapSignals, (alloc (some 4)).get g ≠ some 2 := by decide
    intro g hg p hp hw
    cases hw
    exact apart g hg hp⟩
  timing := ⟨rfl, rfl, fun _ => rfl⟩
  seen := ⟨fun v hv => by cases hv; rfl, fun v hv => by cases hv; rfl, fun v hv => by cases hv; rfl⟩
  tckLow := by intro p hp; cases hp; rfl

theorem cacheTrue_quiet (n : TapNode) : CacheTrue (quiet n) := fun m hm =>
  ⟨TapState.node.inj (Option.some.inj hm), fun _ p hp hw =>
    absurd ((Option.some.inj hp).trans (Option.some.inj hw).symm) (by decide : (4 : Pin) ≠ 2)⟩

/-- With TRST from a state, without TRST from `Unknown` with the target elsewhere, and with a spare TRST. -/
theorem witness_SetStateMovesTheTarget :
    (Linked (withTrst .irShift) ∧ CacheTrue (withTrst .irShift) ∧ (withTrst .irShift).curState.isSome = true ∧
      HardResetReaches (withTrst .irShift) .reset) ∧
    (Linked (lost .drPause) ∧ CacheTrue (lost .drPause) ∧ (lost .drPause).curState.isSome = true ∧
      HardResetReaches (lost .drPause) .idle) ∧
    (Linked (quiet .irShift) ∧ CacheTrue (quiet .irShift) ∧ (quiet .irShift).curState.isSome = true ∧
      HardResetReaches (quiet .irShift) .idle) :=
  ⟨⟨linked_withTrst _, cacheTrue_withTrst _, rfl, fun _ _ => ⟨rfl, 4, rfl, rfl⟩⟩,
   ⟨linked_noTrst _ _, cacheTrue_lost _, rfl, fun _ h => absurd h (by decide)⟩,
   linked_quiet _, cacheTrue_quiet _, rfl, fun h => absurd h (by decide)⟩

/-- No command waiting; a caller's edge that holds DR_Shift; a walk; a spare TRST driven low. -/
theorem witness_StepKeepsTheCacheTrue :
    ((withTrst .drShift).port = [] ∧ Wired (withTrst .drShift) ∧ CacheTrue (withTrst .drShift) ∧
      ∃ t, step (withTrst .drShift) = .next t) ∧
    (decode 0x3001 = .command (.drvSet .tck true) ∧ KeepsLink (issued [0x3001] (withTrst .drShift)) (.drvSet .tck true) ∧
      Wired (issued [0x3001] (withTrst .drShift)) ∧ CacheTrue (issued [0x3001] (withTrst .drShift)) ∧
      ∃ t, step (issued [0x3001] (withTrst .drShift)) = .next t) ∧
    (decode 0xA002 = .command (.tapSetState (.node .idle)) ∧
      KeepsLink (withTrst .drShift) (.tapSetState (.node .idle))) ∧
    (decode 0x3400 = .command (.drvSet .trst false) ∧ KeepsLink (quiet .idle) (.drvSet .trst false) ∧
      Wired (quiet .idle) ∧ CacheTrue (quiet .idle)) :=
  ⟨⟨rfl, (linked_withTrst _).toWired, cacheTrue_withTrst _, _, rfl⟩,
   ⟨by decide, fun _ _ m hm => by cases hm; decide, (withPort_linked (linked_withTrst _) _).toWired,
    cacheTrue_withTrst _, _, rfl⟩,
   ⟨by decide, (linked_withTrst _).tckLow, fun _ _ => ⟨rfl, 4, rfl, rfl⟩⟩,
   by decide, .inr fun _ p hp => (by cases hp; decide), (linked_quiet _).toWired, cacheTrue_quiet _⟩

theorem witness_EveryWriteIsOneBit :
    ∃ t new, exec (.drvSet .tdi true) (plain .idle) = .next t ∧ t.events = (plain .idle).events ++ new ∧
      Event.write .setReset 0x00000004 ∈ new := ⟨_, [wr 0x00000004], rfl, by decide, by decide⟩

/-- The clock-enable bit already set. -/
theorem witness_ClockEnableIsAReadModifyWrite :
    ({ blank with clkenReg := 0x00020000 } : State).clken = true := by decide

/-- The edges of the two Scan ranges. -/
theorem witness_NextIsTheTwentySixRowTable :
    TapNode.drCapture ≠ .drScan ∧ TapNode.drUpdate ≠ .drScan ∧ TapNode.irScan ≠ .drScan ∧
    TapNode.irCapture ≠ .irScan ∧ TapNode.irUpdate ≠ .irScan ∧ TapNode.drUpdate ≠ .irScan := by decide

theorem witness_FivePulsesDrainEveryState :
    TapNode.reset ∈ [TapNode.reset] ∧
    TapNode.irPause ∈ [TapNode.drCapture, .drShift, .drPause, .irCapture, .irShift, .irPause] := by decide

theorem witness_ClockPulsesTck :
    ((plain .idle).pinOf .tck = some 0 ∧ ((plain .idle).pin 0).cfg.mode ≠ .input) ∧
    (noTck .idle).pinOf .tck = none := by decide

theorem witness_OneStepOfAWalk :
    (plain .idle).curState = some (.node .idle) ∧
    next (.node .idle) (.node .drShift) = some (true, .drScan) ∧ (plain .idle).pinOf .tms = some 1 ∧
    (plain .idle).pinOf .tck = some 0 ∧ ((plain .idle).pin 1).cfg.mode = .output ∧
    ((plain .idle).pin 0).cfg.mode = .output := by decide

theorem witness_ResetSequences :
    (withTrst .idle).pinOf .tms = some 1 ∧ ((withTrst .idle).pin 1).cfg.mode = .output ∧
    (withTrst .idle).pinOf .tck = some 0 ∧ ((withTrst .idle).pin 0).cfg.mode = .output ∧
    (1 : Pin) ≠ 0 ∧ (withTrst .idle).pinOf .trst = some 4 ∧ ((withTrst .idle).pin 4).cfg.mode = .output ∧
    (4 : Pin) ≠ 1 ∧ (4 : Pin) ≠ 0 := by decide

/-- Raising TCK keeps the wiring premises. -/
theorem setTck_wired {s : State} (h : Linked s) : Wired (setSignal .tck true s) := by
  obtain ⟨k, m, r, v, l, a, -, -⟩ := h.at
  exact (a.setTck true).wired ((setSignal_drives .tck true s).inv h.inv) (setSignal_seen h.seen .tck true)

/-- TCK left high by the caller, and seen so by the target. -/
theorem linkedTckHigh {s : State} (h : Linked s) (hh : LatchHolds .tck true (setSignal .tck true s)) :
    LinkedTckHigh (setSignal .tck true s) := ⟨setTck_wired h, hh⟩

theorem witness_TckLeftHighLosesAPulse :
    let s := setSignal .tck true (withTrst .idle)
    LinkedTckHigh s ∧ TrstReleased s ∧ s.curState = some (.node .idle) ∧
    TapNode.irExit2 ≠ .reset :=
  ⟨linkedTckHigh (linked_withTrst _) (by intro p hp; cases hp; rfl), fun _ p hp _ => (by cases hp; rfl), rfl,
   by decide⟩

theorem witness_TckLeftHighShortensTheSoftwareReset :
    let s := setSignal .tck true (lost .drPause)
    LinkedTckHigh s ∧ s.pinOf .trst = none ∧ s.curState = some .unknown :=
  ⟨linkedTckHigh (linked_noTrst _ _) (by intro p hp; cases hp; rfl), rfl, rfl⟩

/-- TRST released, to be driven low, and TRST driven low. -/
theorem witness_TrstLowHoldsTheTarget :
    TrstDriven (withTrst .drShift) 4 ∧
    (TrstDriven trstLow 4 ∧ Inv trstLow ∧ (trstLow.pin 4).out = false ∧ trstLow.target.phys = .reset ∧
      trstLow.curState = some (.node .idle) ∧ TapNode.drShift ≠ .reset) :=
  ⟨⟨rfl, rfl, rfl, rfl⟩, ⟨rfl, rfl, rfl, rfl⟩,
   (setSignal_drives .trst false (withTrst .idle)).inv (readyInv_withTrst .idle).inv, rfl, by decide, rfl,
   by decide⟩

theorem witness_AllocatingTrstResetsTheTarget :
    let s := ready true .unknown (alloc none) 0x000F 0 .irPause
    s.driverReady = true ∧ (s.used 4 = true → s.owner 4 = some .trst) ∧ s.pinOf .trst ≠ some 4 ∧
    s.params.targetHasTrst = true ∧ s.params.wiring.trst = some 4 := by decide

theorem witness_CallerClockMovesOnlyTheTarget :
    Linked (withTrst .drShift) ∧ TrstReleased (withTrst .drShift) ∧
    (withTrst .drShift).pinOf .tms = some 1 :=
  ⟨linked_withTrst _, released_withTrst _, rfl⟩

theorem witness_CommandsDoNotReadTheTarget :
    (∃ t, exec (.tapSetState (.node .drShift)) (plain .idle) = .next t) ∧
    exec .tapGetState blank = .fault .uninitTap := ⟨⟨_, rfl⟩, rfl⟩

theorem witness_StepKeepsAllocAndPins :
    Inv (issued [0x2005] (plain .idle)) ∧ ∃ t, step (issued [0x2005] (plain .idle)) = .next t :=
  ⟨(readyInv_noTrst (.node .idle) .idle).inv, _, rfl⟩

theorem witness_AllocAndPinsStart : ∃ t, exec .drvInit blank = .next t := ⟨_, rfl⟩

theorem witness_OneWriterPerRegister : ∃ t, exec (.drvSet .tdi true) (plain .idle) = .next t := ⟨_, rfl⟩

theorem witness_OneResponseAndAGrowingTrace : ∃ t, exec (.drvCfg .tck 5) (plain .idle) = .next t := ⟨_, rfl⟩

theorem witness_InitialisedNeverFaults : Initialised (plain .idle) := ⟨rfl, rfl, rfl⟩

theorem witness_SettingTdoHasNoEffect : Inv (plain .idle) ∧ (plain .idle).driverReady = true :=
  ⟨(readyInv_noTrst (.node .idle) .idle).inv, rfl⟩

end Sys2Proof.Tests
end

section
/-! Proofs about the step and the time between commands (00_scope.md R5, 10_state.md R21). -/

namespace Sys2Proof.Machine

/-- Other code writes around the mask that holds `CLKEN` (20_memory.md R50, R55). -/
theorem clkenAfterOthers_getLsbD_clkenBit (P : Params) (old fresh : RegWord) :
    (clkenAfterOthers P old fresh).getLsbD P.clkenBit.val = old.getLsbD P.clkenBit.val := by
  simp [clkenAfterOthers, clkenMask, oneShl]

@[simp] theorem betweenCommands_clken (s : State) : (betweenCommands s).clken = s.clken :=
  clkenAfterOthers_getLsbD_clkenBit _ _ _

/-- Between commands a target whose driven levels are seen stays, or is in `Reset` where TRST is driven low
(20_memory.md R59, R62). -/
theorem betweenCommands_phys_driven {s : State} (hd : steadyWires s.params s.pins = true) (hl : SeenLevels s) :
    (betweenCommands s).target.phys =
      if s.params.targetHasTrst = true ∧ terminalWire s.pins s.params.wiring.trst = .driven false then .reset
      else s.target.phys :=
  observe_driven hd hl

theorem step_eq_exec {s : State} {w : Word} {rest : List Word} {i : Instr} (hp : s.port = w :: rest)
    (hw : decode w = .command i) : step s = exec i (betweenCommands { s with port := rest }) := by
  simp [step, hp, hw]

/-- Settles O8: the state in the middle is `betweenCommands` after the word is taken, which keeps `CLKEN` and
lets the target only react to wires it has seen. -/
theorem stepRunsTheDecodedCommand : Obligations.StepRunsTheDecodedCommand := by
  intro s w rest i hp hw
  refine ⟨betweenCommands { s with port := rest }, step_eq_exec hp hw, rfl, rfl, rfl, rfl, rfl, rfl, rfl, rfl,
    ?clken, rfl, ?phys⟩
  case clken => exact betweenCommands_clken { s with port := rest }
  case phys => exact fun hd hl => betweenCommands_phys_driven (s := { s with port := rest }) hd hl

end Sys2Proof.Machine
end

section
/-! Proofs about what a completing command and a step leave, said once for each command (00_scope.md R5,
60_exceptions.md R203, R207). -/

namespace Sys2Proof.Machine

/-! ### What each command can do -/

theorem exec_drvInit_next {s t : State} (h : exec .drvInit s = .next t) :
    t = (defaultAlloc (clearAlloc (initPort s))).completed (plainCompletion 0) :=
  (Host.Outcome.next.inj h).symm

theorem exec_drvCfg_next {s t : State} {g : Signal} {f : BitVec 8} (h : exec (.drvCfg g f) s = .next t) :
    s.driverReady = true ∧ t = (cfgCore g f s).state.completed (cfgCompletion (cfgCore g f s).failure) := by
  simp only [exec, execDrvCfg] at h
  split at h
  case isTrue hr => exact ⟨hr, (Host.Outcome.next.inj h).symm⟩
  case isFalse => cases h

theorem exec_drvSet_next {s t : State} {g : Signal} {v : Bool} (h : exec (.drvSet g v) s = .next t) :
    s.alloc.isSome = true ∧ t = (setSignal g v s).completed (plainCompletion 0) := by
  simp only [exec, execDrvSet] at h
  split at h
  case isTrue ha => exact ⟨ha, (Host.Outcome.next.inj h).symm⟩
  case isFalse => cases h

theorem exec_drvGet_next {s t : State} {g : Signal} (h : exec (.drvGet g) s = .next t) :
    s.alloc.isSome = true ∧
      (s.pinOf g = none ∧ t = s.completed (plainCompletion (boolWord false)) ∨
       ∃ p, s.pinOf g = some p ∧
         t = (readInput s).completed (plainCompletion (boolWord ((inputDraw s).getLsbD p.val)))) := by
  simp only [exec, execDrvGet] at h
  split at h
  case isTrue ha =>
    cases hp : s.pinOf g with
    | none => rw [hp] at h; exact ⟨ha, .inl ⟨rfl, (Host.Outcome.next.inj h).symm⟩⟩
    | some p => rw [hp] at h; exact ⟨ha, .inr ⟨p, rfl, (Host.Outcome.next.inj h).symm⟩⟩
  case isFalse => cases h

theorem exec_drvIsAlloc_next {s t : State} {g : Signal} (h : exec (.drvIsAlloc g) s = .next t) :
    s.alloc.isSome = true ∧ t = s.completed (plainCompletion (boolWord (s.pinOf g).isSome)) := by
  simp only [exec, execDrvIsAlloc] at h
  split at h
  case isTrue ha => exact ⟨ha, (Host.Outcome.next.inj h).symm⟩
  case isFalse => cases h

theorem exec_tapInit_next {s t : State} (h : exec .tapInit s = .next t) :
    t = (s.setCur .unknown).completed (plainCompletion 0) :=
  (Host.Outcome.next.inj h).symm

theorem exec_tapGetState_next {s t : State} (h : exec .tapGetState s = .next t) :
    ∃ c, s.curState = some c ∧ t = s.completed (plainCompletion (stateWord c)) := by
  simp only [exec, execTapGetState] at h
  cases hc : s.curState with
  | none => rw [hc] at h; cases h
  | some c => rw [hc] at h; exact ⟨c, rfl, (Host.Outcome.next.inj h).symm⟩

/-- Resynchronising the cache touches nothing else (41_tap_controller.md R151). -/
theorem exec_tapSetState_unknown_next {s t : State} (h : exec (.tapSetState .unknown) s = .next t) :
    t = (s.setCur .unknown).completed (plainCompletion 0) := by
  simp only [exec, execTapSetState, if_true] at h
  split at h
  case isTrue => cases h
  case isFalse => exact (Host.Outcome.next.inj h).symm

/-- A completing `TAP_SETSTATE` to a state: `HW_RESET` alone, a reset and the walk from `Reset`, or the walk
(41_tap_controller.md R151). -/
theorem exec_tapSetState_node_next {s t : State} {n : TapNode} (h : exec (.tapSetState (.node n)) s = .next t) :
    ∃ u, t = u.completed (plainCompletion 0) ∧
      ((n = .reset ∧ (s.pinOf .trst).isSome = true ∧ u = (hwReset s).setCur (.node .reset)) ∨
       (s.curState = some .unknown ∧ u = issueTable 7 .reset n (resyncReset s)) ∨
       ∃ c, s.curState = some (.node c) ∧ u = issueTable walkBound c n s) := by
  simp only [exec, execTapSetState] at h
  split at h
  case isTrue => cases h
  case isFalse hc =>
  rw [if_neg (by simp)] at h
  split at h
  case isTrue => cases h
  case isFalse =>
  unfold setStateWalk at h
  split at h
  case isTrue hr => exact ⟨_, (Host.Outcome.next.inj h).symm, .inl ⟨TapState.node.inj hr.1, hr.2, rfl⟩⟩
  case isFalse =>
    cases hs : s.curState with
    | none => simp [hs] at hc
    | some c =>
      cases c with
      | unknown =>
        rw [walk_from_unknown n s hs] at h
        exact ⟨_, (Host.Outcome.next.inj h).symm, .inr (.inl ⟨rfl, rfl⟩)⟩
      | node c =>
        rw [walk_from_node c n s hs] at h
        exact ⟨_, (Host.Outcome.next.inj h).symm, .inr (.inr ⟨c, rfl, rfl⟩)⟩

/-- A step that answers a next state waits, or runs the command of the first word. -/
theorem step_next {s t : State} (h : step s = .next t) :
    s.port = [] ∧ t = betweenCommands s ∨
    ∃ w rest i, s.port = w :: rest ∧ decode w = .command i ∧
      exec i (betweenCommands { s with port := rest }) = .next t := by
  unfold step at h
  cases hp : s.port with
  | nil => rw [hp] at h; exact .inl ⟨rfl, (Host.Outcome.next.inj h).symm⟩
  | cons w rest =>
    simp only [hp] at h
    cases hd : decode w with
    | command i => rw [hd] at h; exact .inr ⟨w, rest, i, rfl, hd, h⟩
    | refuse r => rw [hd] at h; cases h

/-! ### One writer per register (10_state.md R28) -/

theorem defaultAlloc_onlyDriver (s : State) : OnlyDriver s (defaultAlloc s) :=
  (((cfgCore_onlyDriver .tck 0 s).trans (cfgCore_onlyDriver .tms 1 _)).trans
    (cfgCore_onlyDriver .tdi 2 _)).trans (cfgCore_onlyDriver .tdo 3 _)

/-- `DRV_INIT` does not write `CUR_STATE`. -/
theorem exec_drvInit_curState {s t : State} (h : exec .drvInit s = .next t) : t.curState = s.curState := by
  obtain ⟨-, -, hcur, -⟩ := clearAlloc_initPort_fields s
  rw [exec_drvInit_next h]
  exact (defaultAlloc_onlyDriver _).curState.trans hcur

/-- Settles O56: command by command, `CFG_CORE` leaves `CUR_STATE`, and what only drives latches leaves the table
and the mask. -/
theorem oneWriterPerRegister : Obligations.OneWriterPerRegister := by
  intro i s t h
  cases i with
  | drvInit => exact ⟨fun hi => absurd rfl hi, fun _ _ => exec_drvInit_curState h⟩
  | drvCfg g f =>
    obtain ⟨-, rfl⟩ := exec_drvCfg_next h
    exact ⟨fun _ hc => absurd rfl (hc g f), fun _ _ => (cfgCore_onlyDriver g f s).curState⟩
  | drvSet g v =>
    obtain ⟨-, rfl⟩ := exec_drvSet_next h
    have o := setSignal_onlyLatches g v s
    exact ⟨fun _ _ => ⟨o.alloc, o.pinUsage⟩, fun _ _ => o.curState⟩
  | drvGet g =>
    obtain ⟨-, ⟨-, rfl⟩ | ⟨p, -, rfl⟩⟩ := exec_drvGet_next h
    · exact ⟨fun _ _ => ⟨rfl, rfl⟩, fun _ _ => rfl⟩
    · exact ⟨fun _ _ => ⟨rfl, rfl⟩, fun _ _ => rfl⟩
  | drvIsAlloc g =>
    obtain ⟨-, rfl⟩ := exec_drvIsAlloc_next h
    exact ⟨fun _ _ => ⟨rfl, rfl⟩, fun _ _ => rfl⟩
  | tapInit =>
    obtain rfl := exec_tapInit_next h
    exact ⟨fun _ _ => ⟨rfl, rfl⟩, fun hi => absurd rfl hi⟩
  | tapSetState g =>
    obtain ⟨u, rfl, -, d⟩ := exec_tapSetState_next h
    exact ⟨fun _ _ => ⟨d.latches.alloc, d.latches.pinUsage⟩, fun _ hg => absurd rfl (hg g)⟩
  | tapGetState =>
    obtain ⟨c, -, rfl⟩ := exec_tapGetState_next h
    exact ⟨fun _ _ => ⟨rfl, rfl⟩, fun _ _ => rfl⟩

end Sys2Proof.Machine
end

section
/-! Proofs about the invariants of 10_state.md R26 and R27: where they start, and that every step keeps them. -/

namespace Sys2Proof.Machine

theorem Inv.reset : Inv State.reset := ⟨rfl, nofun⟩

theorem Inv.setCur {s : State} (h : Inv s) (x : TapState) : Inv (s.setCur x) := h

theorem Inv.readInput {s : State} (h : Inv s) : Inv (readInput s) := h

/-- `DRV_INIT` establishes the invariants, whatever state it starts from (40_pin_driver.md R100). -/
theorem exec_drvInit_inv {s t : State} (h : exec .drvInit s = .next t) : Inv t := by
  rw [exec_drvInit_next h]
  exact (clearAlloc_initPort_ready s).defaultAlloc.inv.completed _

/-- Every command that completes keeps the invariants. -/
theorem Inv.exec {i : Instr} {s t : State} (hi : Inv s) (h : exec i s = .next t) : Inv t := by
  cases i with
  | drvInit => exact exec_drvInit_inv h
  | drvCfg g f =>
    obtain ⟨hr, rfl⟩ := exec_drvCfg_next h
    exact ((hi.ready hr).cfgCore g f).inv.completed _
  | drvSet g v =>
    obtain ⟨-, rfl⟩ := exec_drvSet_next h
    exact ((setSignal_drives g v s).inv hi).completed _
  | drvGet g =>
    obtain ⟨-, ⟨-, rfl⟩ | ⟨p, -, rfl⟩⟩ := exec_drvGet_next h
    · exact hi.completed _
    · exact hi.readInput.completed _
  | drvIsAlloc g =>
    obtain ⟨-, rfl⟩ := exec_drvIsAlloc_next h
    exact hi.completed _
  | tapInit =>
    obtain rfl := exec_tapInit_next h
    exact (hi.setCur _).completed _
  | tapSetState g =>
    obtain ⟨u, rfl, -, d⟩ := exec_tapSetState_next h
    exact (d.inv (hi.setCur g)).completed _
  | tapGetState =>
    obtain ⟨c, -, rfl⟩ := exec_tapGetState_next h
    exact hi.completed _

/-- Settles O54: the time between commands changes no pin and no table, and every command keeps the invariants. -/
theorem stepKeepsAllocAndPins : Obligations.StepKeepsAllocAndPins := by
  intro s t hi h
  rcases step_next h with ⟨-, rfl⟩ | ⟨w, rest, i, -, -, he⟩
  · exact hi.betweenCommands
  · exact (hi.withPort rest).betweenCommands.exec he

/-- Settles O55: at power-on neither register is written, and `DRV_INIT` configures every pin afresh. -/
theorem allocAndPinsStart : Obligations.AllocAndPinsStart :=
  ⟨Inv.reset, fun _ _ => exec_drvInit_inv⟩

end Sys2Proof.Machine
end

section
/-! Proof that no command reads the target (10_state.md R33): two runs that differ in it only end the same way. -/

namespace Sys2Proof.Machine

/-- Two outcomes of one kind: next states that differ in the target only, or one and the same fault. -/
inductive SameOutcome : Host.Outcome State Fault Refusal → Host.Outcome State Fault Refusal → Prop
  | next {s t : State} (h : SameButTarget s t) : SameOutcome (.next s) (.next t)
  | fault (f : Fault) : SameOutcome (.fault f) (.fault f)

theorem SameButTarget.complete {s t : State} (h : SameButTarget s t) (c : Completion) :
    SameOutcome (complete c s) (complete c t) := .next (h.completed c)

theorem SameButTarget.readInput {s t : State} (h : SameButTarget s t) :
    SameButTarget (readInput s) (readInput t) := by
  obtain ⟨u, rfl⟩ := h; exact ⟨u, rfl⟩

/-- The next draw is no function of the target (notes/assumptions/7.md). -/
theorem SameButTarget.inputDraw {s t : State} (h : SameButTarget s t) : inputDraw t = inputDraw s := by
  obtain ⟨u, rfl⟩ := h; rfl

theorem SameButTarget.driverReady {s t : State} (h : SameButTarget s t) : t.driverReady = s.driverReady := by
  simp only [State.driverReady, h.alloc, h.pinUsage]

theorem SameButTarget.defaultAlloc {s t : State} (h : SameButTarget s t) :
    SameButTarget (defaultAlloc s) (defaultAlloc t) := by
  have h1 := (h.cfgCore .tck 0).1
  have h2 := (h1.cfgCore .tms 1).1
  have h3 := (h2.cfgCore .tdi 2).1
  exact (h3.cfgCore .tdo 3).1

/-- A command that stops before `DRV_INIT` does so in both runs. -/
theorem SameOutcome.guard {b : Bool} {x y : Host.Outcome State Fault Refusal} (f : Fault)
    (h : SameOutcome x y) : SameOutcome (if b then x else .fault f) (if b then y else .fault f) := by
  cases b
  · exact .fault f
  · exact h

theorem SameButTarget.setStateWalk {s t : State} (h : SameButTarget s t) (n : TapNode) {c : TapState}
    (hc : s.curState = some c) : SameOutcome (setStateWalk (.node n) s) (setStateWalk (.node n) t) := by
  unfold Machine.setStateWalk
  rw [h.pinOf]
  split
  · exact (h.hwReset.setCur _).complete _
  · obtain ⟨x, y, hx, hy, hxy⟩ := h.walk n hc
    rw [hx, hy]
    exact hxy.complete _

theorem SameButTarget.execTapSetState {s t : State} (h : SameButTarget s t) (g : TapState) :
    SameOutcome (execTapSetState g s) (execTapSetState g t) := by
  have hr : setStateReadsAlloc g t = setStateReadsAlloc g s := by
    simp only [setStateReadsAlloc, h.curState]
  unfold Machine.execTapSetState
  rw [h.curState, h.alloc, hr]
  cases hc : s.curState with
  | none => exact .fault _
  | some c =>
    cases g with
    | unknown => exact (h.setCur _).complete _
    | node n =>
      simp only [Option.isNone_some, Bool.false_eq_true, if_false, reduceCtorEq]
      split
      · exact .fault _
      · exact h.setStateWalk n hc

/-- No command reads the target. -/
theorem SameButTarget.exec {s t : State} (h : SameButTarget s t) (i : Instr) :
    SameOutcome (exec i s) (exec i t) := by
  cases i with
  | drvInit => exact h.initPort.defaultAlloc.complete _
  | drvCfg g f =>
    obtain ⟨hs, hf⟩ := h.cfgCore g f
    simp only [Machine.exec, execDrvCfg, h.driverReady, hf]
    exact (hs.complete _).guard _
  | drvSet g v =>
    simp only [Machine.exec, execDrvSet, h.alloc]
    exact ((h.setSignal g v).complete _).guard _
  | drvGet g =>
    simp only [Machine.exec, execDrvGet, h.alloc, h.pinOf, h.inputDraw]
    refine SameOutcome.guard _ ?_
    cases s.pinOf g with
    | none => exact h.complete _
    | some p => exact h.readInput.complete _
  | drvIsAlloc g =>
    simp only [Machine.exec, execDrvIsAlloc, h.alloc, h.pinOf]
    exact (h.complete _).guard _
  | tapInit => exact (h.setCur _).complete _
  | tapSetState g => exact h.execTapSetState g
  | tapGetState =>
    simp only [Machine.exec, execTapGetState, h.curState]
    cases s.curState with
    | none => exact .fault _
    | some c => exact h.complete _

/-- Settles O53: the two runs' outcomes are of one kind. -/
theorem commandsDoNotReadTheTarget : Obligations.CommandsDoNotReadTheTarget := by
  intro i s u
  have h : SameOutcome (exec i s) (exec i { s with target := u }) := SameButTarget.exec ⟨u, rfl⟩ i
  refine ⟨fun t ht => ?_, fun f hf => ?_⟩
  · rw [ht] at h
    generalize exec i { s with target := u } = o at h
    cases h with
    | next hs =>
      obtain ⟨u', rfl⟩ := hs
      exact ⟨u', rfl⟩
  · rw [hf] at h
    generalize exec i { s with target := u } = o at h
    cases h
    rfl

end Sys2Proof.Machine
end

section
/-! Proof that steps which keep P1 to P3 keep the cache true (10_state.md R34, 41_tap_controller.md R157). -/

namespace Sys2Proof.Machine

/-! ### What the premises do not rest on -/

theorem Wired.withPort {s : State} (w : Wired s) (l : List Word) : Wired { s with port := l } :=
  ⟨w.inv, w.clock, w.trst, w.timing, w.seen⟩

theorem Wired.completed {s : State} (w : Wired s) (c : Completion) : Wired (s.completed c) :=
  ⟨w.inv, w.clock, w.trst, w.timing, w.seen⟩

theorem Wired.readInput {s : State} (w : Wired s) : Wired (readInput s) :=
  ⟨w.inv, w.clock, w.trst, w.timing, w.seen⟩

theorem Wired.setCur {s : State} (w : Wired s) (x : TapState) : Wired (s.setCur x) :=
  ⟨w.inv, w.clock, w.trst, w.timing, w.seen⟩

theorem CacheTrue.completed {s : State} (h : CacheTrue s) (c : Completion) : CacheTrue (s.completed c) := h

theorem CacheTrue.readInput {s : State} (h : CacheTrue s) : CacheTrue (readInput s) := h

/-- An `Unknown` cache claims nothing. -/
theorem cacheTrue_setCur_unknown (s : State) : CacheTrue (s.setCur .unknown) := nofun

/-! ### The walk -/

/-- The reset from `Unknown` reaches a linked target, by TRST or by five clocks (41_tap_controller.md R157,
R159). -/
theorem At.resyncReset {s : State} {k m : Pin} {r : Option Pin} {ph : TapNode} {v h : Bool}
    (a : At s k m r ph false v h) (hr : (s.pinOf .trst).isSome = true → r.isSome = true) :
    At (resyncReset s) k m r .reset false true true := by
  unfold Machine.resyncReset
  split
  case isTrue ht =>
    obtain ⟨p, rfl⟩ := Option.isSome_iff_exists.mp (hr ht)
    exact a.hwReset.setCur _
  case isFalse ht =>
    cases r with
    | none => exact a.swReset.setCur _
    | some p => exact absurd (by rw [a.link.trst p rfl]; rfl) ht

/-- A completing `TAP_SETSTATE` takes a linked target to its state, with TCK low and TRST released
(41_tap_controller.md R157). -/
theorem Linked.execTapSetState_at {s t : State} {n : TapNode} (w : Linked s) (hT : CacheTrue s)
    (hr : HardResetReaches s n) (h : exec (.tapSetState (.node n)) s = .next t) :
    ∃ k m r v, At t k m r n false v true := by
  obtain ⟨k, m, r, v, l, a, hrel, hwired⟩ := w.at
  obtain ⟨u, rfl, ⟨rfl, ht, rfl⟩ | ⟨hc, rfl⟩ | ⟨c, hc, rfl⟩⟩ := exec_tapSetState_node_next h
  · obtain ⟨p, rfl⟩ := Option.isSome_iff_exists.mp (hwired (hr (.inl rfl) ht))
    exact ⟨k, m, some p, true, (a.hwReset.setCur _).completed _⟩
  · have b := a.resyncReset fun ht => hwired (hr (.inr hc) ht)
    obtain ⟨v', d⟩ := b.issueTable 7 .reset n (tableReaches_seven n)
    exact ⟨k, m, r, v', d.completed _⟩
  · obtain ⟨hph, hrl⟩ := hT c hc
    rw [hph, hrel hrl] at a
    obtain ⟨v', d⟩ := a.issueTable walkBound c n (tableReaches_bound c n)
    exact ⟨k, m, r, v', d.completed _⟩

/-- The premises hold again after `TAP_SETSTATE`, TCK low among them, and the cache is the target's state. -/
theorem Linked.execTapSetState {s t : State} {n : TapNode} (w : Linked s) (hT : CacheTrue s)
    (hr : HardResetReaches s n) (h : exec (.tapSetState (.node n)) s = .next t) : Linked t ∧ CacheTrue t := by
  obtain ⟨k, m, r, v, a⟩ := w.execTapSetState_at hT hr h
  refine ⟨a.linked (w.inv.exec h) (exec_tapSetState_seen w.seen h), a.cacheTrue fun n' hn' => ?_⟩
  obtain ⟨u, rfl, hcur, -⟩ := exec_tapSetState_next h
  exact TapState.node.inj (Option.some.inj (hcur.symm.trans hn'))

/-! ### Commands and steps -/

/-- A `SET` other than of TCK to 1 leaves TCK low, since no other signal has its pin. -/
theorem ReadyInv.setSignal_tckLow {s : State} {g : Signal} {v : Bool} (hi : ReadyInv s)
    (hl : LatchHolds .tck false s) (hne : g = .tck → v = false) : LatchHolds .tck false (setSignal g v s) := by
  intro p hp
  rw [(setSignal_onlyLatches g v s).pinOf] at hp
  rw [setSignal_pin]
  split
  case isTrue hg => exact hne (hi.apart p g .tck hg.1 hp)
  case isFalse => exact hl p hp

/-- A command that keeps P1 to P3 keeps the premises and a true cache; P3 is asked only where the cache is a
state. TCK stays low but for `DRV_SET TCK, 1`. -/
theorem Wired.exec {s t : State} {i : Instr} (w : Wired s) (hT : CacheTrue s)
    (hk : (∃ n, s.curState = some (.node n)) ∨ i ≠ .drvSet .tck true → KeepsLink s i)
    (h : exec i s = .next t) :
    Wired t ∧ CacheTrue t ∧
      (LatchHolds .tck false s → i ≠ .drvSet .tck true → LatchHolds .tck false t) := by
  cases i with
  | drvInit => exact (hk (.inr nofun)).elim
  | drvCfg g f => exact (hk (.inr nofun)).elim
  | drvSet g v =>
    obtain ⟨-, rfl⟩ := exec_drvSet_next h
    have edge : g = .tck → v = true → ∀ n, s.curState = some (.node n) → EdgeHolds s := by
      rintro rfl rfl n hn
      exact hk (.inl ⟨n, hn⟩) rfl
    have spares : g = .tdi ∨ g = .trst → SparesTrst s g v := by
      rintro (rfl | rfl)
      · exact hk (.inr (by simp))
      · exact hk (.inr (by simp))
    obtain ⟨w', hT'⟩ := w.setSignal hT edge spares
    refine ⟨w'.completed _, hT'.completed _, fun hl hne => ?_⟩
    exact (w.inv.ready w.ready).setSignal_tckLow hl (by rintro rfl; simpa using hne)
  | drvGet g =>
    obtain ⟨-, ⟨-, rfl⟩ | ⟨p, -, rfl⟩⟩ := exec_drvGet_next h
    · exact ⟨w.completed _, hT.completed _, fun hl _ => hl⟩
    · exact ⟨w.readInput.completed _, hT.readInput.completed _, fun hl _ => hl⟩
  | drvIsAlloc g =>
    obtain ⟨-, rfl⟩ := exec_drvIsAlloc_next h
    exact ⟨w.completed _, hT.completed _, fun hl _ => hl⟩
  | tapInit =>
    obtain rfl := exec_tapInit_next h
    exact ⟨(w.setCur _).completed _, (cacheTrue_setCur_unknown s).completed _, fun hl _ => hl⟩
  | tapSetState g =>
    cases g with
    | unknown =>
      obtain rfl := exec_tapSetState_unknown_next h
      exact ⟨(w.setCur _).completed _, (cacheTrue_setCur_unknown s).completed _, fun hl _ => hl⟩
    | node n =>
      obtain ⟨low, reaches⟩ := hk (.inr nofun)
      obtain ⟨l, hT'⟩ := Linked.execTapSetState ⟨w, low⟩ hT reaches h
      exact ⟨l.toWired, hT', fun _ _ => l.tckLow⟩
  | tapGetState =>
    obtain ⟨c, -, rfl⟩ := exec_tapGetState_next h
    exact ⟨w.completed _, hT.completed _, fun hl _ => hl⟩

/-- What a command must keep is asked of the state before the wait; it carries over, for the wait moves no target
that the cache knows. -/
theorem KeepsLink.afterWait {s : State} {i : Instr} (hk : KeepsLink s i) (rest : List Word)
    (hph : ∀ n, s.curState = some (.node n) →
      (betweenCommands { s with port := rest }).target.phys = s.target.phys)
    (hor : (∃ n, s.curState = some (.node n)) ∨ i ≠ .drvSet .tck true) :
    KeepsLink (betweenCommands { s with port := rest }) i := by
  cases i with
  | drvSet g v =>
    cases g with
    | tck =>
      rintro rfl hl m hm
      obtain ⟨n, hn⟩ := hor.resolve_right (absurd rfl)
      rw [hph n hn]
      exact hk rfl hl m hm
    | tms | tdi | tdo | trst => exact hk
  | tapSetState g =>
    cases g with
    | unknown | node n => exact hk
  | drvInit | drvCfg | drvGet | drvIsAlloc | tapInit | tapGetState => exact hk

/-- Settles O47: the wait keeps the premises and moves no target the cache knows, and then the command keeps
them. -/
theorem stepKeepsTheCacheTrue : Obligations.StepKeepsTheCacheTrue := by
  intro s t hport w hT h
  rcases step_next h with ⟨-, rfl⟩ | ⟨w₀, rest, i, hp, hd, he⟩
  · obtain ⟨w', hT', -⟩ := w.betweenCommands hT
    exact ⟨w', hT', fun hl _ => hl⟩
  · have hk : KeepsLink s i := by
      rcases hport with hnil | ⟨w₁, rest₁, j, hp₁, hd₁, hk⟩
      · exact absurd (hp.symm.trans hnil) (List.cons_ne_nil _ _)
      · obtain ⟨rfl, -⟩ := List.cons.inj (hp.symm.trans hp₁)
        obtain rfl := DecodeResult.command.inj (hd.symm.trans hd₁)
        exact hk
    obtain ⟨w', hT', hph⟩ := (w.withPort rest).betweenCommands hT
    obtain ⟨wt, hTt, low⟩ := w'.exec hT' (hk.afterWait rest hph) he
    exact ⟨wt, hTt, fun hl hne => low hl fun hi => hne w₀ rest hp (hi ▸ hd)⟩

end Sys2Proof.Machine
end

section
/-! Proofs about the GPIO primitives and the wires (20_memory.md R52, R54, R55, R58). -/

namespace Sys2Proof.Machine

/-- Settles O11: a write changes each pin's latch alone, by the four cases of the pin's two bits. -/
theorem setResetWriteDrivesLatches : Obligations.SetResetWriteDrivesLatches := by
  intro v s p
  simp only [writeSetReset_pin, writeSetReset_events, true_and, and_true]
  refine ⟨fun hset hreset => ?_, fun hset hreset => ?_, fun hset hreset => ?_⟩
  all_goals simp only [latchAfter, hset, hreset]

theorem enableClock_events (s : State) :
    (enableClock s).events = s.events ++
      [.read .clken s.clkenReg, .write .clken (s.clkenReg ||| clkenMask s.params)] := by
  simp [enableClock]

/-- The clock-enable write sets the block's bit and keeps the others. -/
theorem enableClock_clkenReg_getLsbD (s : State) (b : Nat) :
    (enableClock s).clkenReg.getLsbD b = (s.clkenReg.getLsbD b || decide (s.params.clkenBit.val = b)) := by
  simp [clkenMask, oneShl, BitVec.getLsbD_twoPow]

/-- Settles O13: bit by bit, the register ends as it was but for the block's bit. -/
theorem clockEnableIsAReadModifyWrite : Obligations.ClockEnableIsAReadModifyWrite := by
  intro s
  refine ⟨enableClock_events s, ?_, fun b hb => ?_, fun hset => BitVec.eq_of_getLsbD_eq fun b _ => ?_⟩
  · simp only [State.clken, enableClock_params, enableClock_clkenReg_getLsbD, decide_true, Bool.or_true]
  · rw [enableClock_clkenReg_getLsbD, decide_eq_false (Ne.symm hb), Bool.or_false]
  · rw [enableClock_clkenReg_getLsbD]
    by_cases hb : s.params.clkenBit.val = b
    · have : s.clkenReg.getLsbD b = true := hb ▸ hset
      simp [this]
    · simp [hb]

/-- Settles O14, by the port's law for one pin and the event of the operation. -/
theorem pinConfigWritesOnePin : Obligations.PinConfigWritesOnePin :=
  fun p q c s => ⟨pinConfig_pin p q c s, pinConfig_events s p c⟩

/-- Settles O15: the mode chooses among the three rows of R58. -/
theorem wireFollowsModeAndLatch : Obligations.WireFollowsModeAndLatch := by
  intro r
  refine ⟨fun hm => ?_, fun hm => ?_, fun hm => ?_⟩
  all_goals simp only [PinRegs.wire, hm]

end Sys2Proof.Machine
end

section
/-! Proof that every set/reset write of a command is a one-bit write, but for the one of `DRV_INIT`
(20_memory.md R52, R69). -/

namespace Sys2Proof.Machine

/-- From `s` to `t` the trace grew by events that all satisfy `P`. -/
def Appends (P : Event → Prop) (s t : State) : Prop :=
  ∃ new, t.events = s.events ++ new ∧ ∀ e ∈ new, P e

theorem Appends.of_events_eq {P : Event → Prop} {s t : State} (h : t.events = s.events) : Appends P s t :=
  ⟨[], by simp [h], by simp⟩

theorem Appends.single {P : Event → Prop} {s t : State} {e : Event} (h : t.events = s.events ++ [e]) (he : P e) :
    Appends P s t :=
  ⟨[e], h, by simpa using he⟩

theorem Appends.trans {P : Event → Prop} {s t u : State} (h : Appends P s t) (k : Appends P t u) :
    Appends P s u := by
  obtain ⟨n₁, e₁, p₁⟩ := h
  obtain ⟨n₂, e₂, p₂⟩ := k
  exact ⟨n₁ ++ n₂, by rw [e₂, e₁, List.append_assoc], fun e he => (List.mem_append.mp he).elim (p₁ e) (p₂ e)⟩

theorem Appends.mono {P Q : Event → Prop} {s t : State} (h : Appends P s t) (hPQ : ∀ e, P e → Q e) :
    Appends Q s t := by
  obtain ⟨new, he, hp⟩ := h
  exact ⟨new, he, fun e hm => hPQ e (hp e hm)⟩

/-- The events that `P` is proved of are the new ones, however these were split off the trace. -/
theorem Appends.of_mem {P : Event → Prop} {s t : State} (h : Appends P s t) {new : List Event}
    (hnew : t.events = s.events ++ new) {e : Event} (he : e ∈ new) : P e := by
  obtain ⟨new', hnew', hp⟩ := h
  obtain rfl : new = new' := List.append_cancel_left (hnew.symm.trans hnew')
  exact hp e he

/-- The word drives one pin: it is `1 << p` or `1 << (p+16)` (20_memory.md R52). -/
def OneBitWord (v : RegWord) : Prop := ∃ p : Pin, v = oneShl p.val ∨ v = oneShl (p.val + 16)

theorem levelWord_oneBit (p : Pin) (v : Bool) : OneBitWord (levelWord p v) := by
  cases v
  · exact ⟨p, .inr rfl⟩
  · exact ⟨p, .inl rfl⟩

/-- The event is no set/reset write, or writes a word of `ok`. -/
def WritesOnly (ok : RegWord → Prop) (e : Event) : Prop := ∀ v, e = .write .setReset v → ok v

theorem driveEvent_writesOnly (p : Pin) (v : Bool) : WritesOnly OneBitWord (driveEvent p v) := by
  intro w hw
  obtain rfl : levelWord p v = w := by simpa [driveEvent] using hw
  exact levelWord_oneBit p v

theorem Drives.writesOneBit {G : List Signal} {s t : State} (h : Drives G s t) :
    Appends (WritesOnly OneBitWord) s t := by
  obtain ⟨new, he, hp⟩ := h.events
  refine ⟨new, he, fun e hm => ?_⟩
  rcases hp e hm with rfl | ⟨g, -, p, v, -, rfl⟩
  · exact nofun
  · exact driveEvent_writesOnly p v

theorem cfgCore_writesOneBit (g : Signal) (f : BitVec 8) (s : State) :
    Appends (WritesOnly OneBitWord) s (cfgCore g f s).state := by
  obtain ⟨new, he, hp⟩ := cfgCore_events g f s
  refine ⟨new, he, fun e hm => ?_⟩
  rcases hp e hm with ⟨p, c, rfl⟩ | ⟨p, rfl⟩
  · exact nofun
  · exact driveEvent_writesOnly p false

theorem defaultAlloc_writesOneBit (s : State) : Appends (WritesOnly OneBitWord) s (defaultAlloc s) :=
  (((cfgCore_writesOneBit .tck 0 s).trans (cfgCore_writesOneBit .tms 1 _)).trans
    (cfgCore_writesOneBit .tdi 2 _)).trans (cfgCore_writesOneBit .tdo 3 _)

/-- The port part of `DRV_INIT` has one set/reset write, which drives every latch low (40_pin_driver.md R100). -/
theorem initPort_writesAllLow (s : State) :
    Appends (WritesOnly fun v => v = 0xFFFF0000) s (clearAlloc (initPort s)) := by
  refine ⟨_, (clearAlloc_initPort_events s).trans (List.append_assoc _ _ _), fun e he v hv => ?_⟩
  subst hv
  simpa using he

/-- The set/reset words a command may write: the one-bit words, and in `DRV_INIT` the word that drives every latch
low. -/
def CommandWord (i : Instr) (v : RegWord) : Prop := (i = .drvInit ∧ v = 0xFFFF0000) ∨ OneBitWord v

theorem WritesOnly.commandWord {e : Event} (h : WritesOnly OneBitWord e) (i : Instr) :
    WritesOnly (CommandWord i) e := fun v hv => .inr (h v hv)

/-- A completing command writes only its words. -/
theorem exec_writesOnly {i : Instr} {s t : State} (h : exec i s = .next t) :
    Appends (WritesOnly (CommandWord i)) s t := by
  cases i with
  | drvInit =>
    obtain rfl := exec_drvInit_next h
    have port := (initPort_writesAllLow s).mono (Q := WritesOnly (CommandWord .drvInit))
      fun e he v hv => .inl ⟨rfl, he v hv⟩
    exact port.trans ((defaultAlloc_writesOneBit _).mono fun e he => he.commandWord _)
  | drvCfg g f =>
    obtain ⟨-, rfl⟩ := exec_drvCfg_next h
    exact (cfgCore_writesOneBit g f s).mono fun e he => he.commandWord _
  | drvSet g v =>
    obtain ⟨-, rfl⟩ := exec_drvSet_next h
    exact (setSignal_drives g v s).writesOneBit.mono fun e he => he.commandWord _
  | drvGet g =>
    obtain ⟨-, ⟨-, rfl⟩ | ⟨p, -, rfl⟩⟩ := exec_drvGet_next h
    · exact .of_events_eq rfl
    · exact .single (readInput_events s) nofun
  | drvIsAlloc g =>
    obtain ⟨-, rfl⟩ := exec_drvIsAlloc_next h
    exact .of_events_eq rfl
  | tapInit =>
    obtain rfl := exec_tapInit_next h
    exact .of_events_eq rfl
  | tapSetState g =>
    obtain ⟨u, rfl, -, d⟩ := exec_tapSetState_next h
    exact d.writesOneBit.mono fun e he => he.commandWord _
  | tapGetState =>
    obtain ⟨c, -, rfl⟩ := exec_tapGetState_next h
    exact .of_events_eq rfl

/-- Settles O12: the appended events are those of which `exec_writesOnly` speaks. -/
theorem everyWriteIsOneBit : Obligations.EveryWriteIsOneBit :=
  fun _ _ _ _ v h hnew hv => (exec_writesOnly h).of_mem hnew hv v rfl

end Sys2Proof.Machine
end

section
/-! Proofs about the target: how it reacts to the levels it sees, and that every step leaves it with the driven
levels seen (20_memory.md R62, R67). -/

namespace Sys2Proof.Machine

/-- TRST at 0 holds the target in `Reset`. -/
theorem sampleLevels_phys_held {P : Params} (hh : P.targetHasTrst = true) (tck tms : Bool) (t : Target) :
    (t.sampleLevels P tck tms false).phys = .reset := by
  simp [Target.sampleLevels, hh]

/-- With TRST released or absent, a rising edge whose timing is met is one transition of the graph. -/
theorem sampleLevels_phys_rise {P : Params} {t : Target} (tms : Bool) {trst : Bool}
    (hr : P.targetHasTrst = false ∨ trst = true) (ht : t.tckSeen = false)
    (hm : ∀ fresh low, timingMet P fresh low
      (t.afterRelease || (P.targetHasTrst && !t.trstSeen && trst)) = true) :
    (t.sampleLevels P true tms trst).phys = ieeeNext t.phys tms := by
  have hr' : (P.targetHasTrst && !trst) = false := Bool.and_eq_false_iff.mpr (by simpa using hr)
  simp [Target.sampleLevels, hr', ht, hm]

/-- With TRST released or absent, a target that sees no rising edge stays. -/
theorem sampleLevels_phys_still {P : Params} {t : Target} {tck trst : Bool} (tms : Bool)
    (hr : P.targetHasTrst = false ∨ trst = true) (hc : t.tckSeen = true ∨ tck = false) :
    (t.sampleLevels P tck tms trst).phys = t.phys := by
  have hr' : (P.targetHasTrst && !trst) = false := Bool.and_eq_false_iff.mpr (by simpa using hr)
  have hc' : (!t.tckSeen && tck) = false := Bool.and_eq_false_iff.mpr (by simpa using hc)
  simp [Target.sampleLevels, hr', hc']

/-- The recovery premise is asked only of the first edge after a release of TRST. -/
theorem timingMet_of_no_release {P : Params} (h1 : P.tmsSetupMet = true) (h2 : P.tckLowMet = true)
    {release : Bool} (hn : P.targetHasTrst = false ∨ release = false) (fresh low : Bool) :
    timingMet P fresh low release = true := by
  have hn' : (P.targetHasTrst && release) = false := Bool.and_eq_false_iff.mpr hn
  simp [timingMet, h1, h2, hn']

/-- Settles O16: held, an edge under all premises, an edge that is no first one after a release, the release
over after any edge, and no edge. -/
theorem targetFollowsRisingEdges : Obligations.TargetFollowsRisingEdges := by
  intro P t tck tms trst
  refine ⟨?held, ?edge, ?laterEdge, ?released, sampleLevels_phys_still tms⟩
  case held =>
    rintro hh rfl
    exact sampleLevels_phys_held hh tck tms t
  case edge =>
    intro hP hr ht hc
    have hfree : ¬ (P.targetHasTrst = true ∧ trst = false) := by
      rintro ⟨hh, rfl⟩
      simp [hh] at hr
    rw [sampleLevels_phys P tck tms trst t hP, if_neg hfree, if_pos ⟨ht, hc⟩]
  case laterEdge =>
    rintro h1 h2 hr ht rfl
    refine sampleLevels_phys_rise tms (hr.imp_right And.left) ht (timingMet_of_no_release h1 h2 ?_)
    exact hr.imp_right fun ⟨_, hseen, hafter⟩ => by simp [hseen, hafter]
  case released =>
    rintro ht rfl
    simp [Target.sampleLevels, ht]

/-! ### Levels seen -/

/-- Every command that completes keeps the driven levels seen. -/
theorem SeenLevels.exec {i : Instr} {s t : State} (hs : SeenLevels s) (h : exec i s = .next t) :
    SeenLevels t := by
  cases i with
  | drvInit =>
    obtain rfl := exec_drvInit_next h
    exact completed_seen (defaultAlloc_seen (initPort_seen s)) _
  | drvCfg g f =>
    obtain ⟨-, rfl⟩ := exec_drvCfg_next h
    exact completed_seen (cfgCore_seen hs g f) _
  | drvSet g v =>
    obtain ⟨-, rfl⟩ := exec_drvSet_next h
    exact completed_seen (setSignal_seen hs g v) _
  | drvGet g =>
    obtain ⟨-, ⟨-, rfl⟩ | ⟨p, -, rfl⟩⟩ := exec_drvGet_next h
    · exact completed_seen hs _
    · exact seen_congr hs rfl rfl rfl
  | drvIsAlloc g =>
    obtain ⟨-, rfl⟩ := exec_drvIsAlloc_next h
    exact completed_seen hs _
  | tapInit =>
    obtain rfl := exec_tapInit_next h
    exact seen_congr hs rfl rfl rfl
  | tapSetState g => exact exec_tapSetState_seen hs h
  | tapGetState =>
    obtain ⟨c, -, rfl⟩ := exec_tapGetState_next h
    exact completed_seen hs _

/-- Settles O17: the time between commands ends with a reaction, and the command after it keeps the levels
seen. -/
theorem stepLeavesLevelsSeen : Obligations.StepLeavesLevelsSeen := by
  intro s t h
  rcases step_next h with ⟨-, rfl⟩ | ⟨w, rest, i, -, -, he⟩
  · exact betweenCommands_seen s
  · exact (betweenCommands_seen { s with port := rest }).exec he

end Sys2Proof.Machine
end

section
/-! Proofs about the decoder and the encoder: each undoes the other, the decoder agrees with the field table, and
it refuses every other word by name (30_encoding.md R80 to R89). -/

namespace Sys2Proof

/-! ### Decoding an encoded command -/

theorem decode_encode (i : Instr) : decode (encode i) = .command i := by
  cases i with
  | drvInit => exact Laws.EncodeRoundTrip.drvInit
  | drvCfg g f => exact Laws.EncodeRoundTrip.drvCfg g f
  | drvSet g v => exact Laws.EncodeRoundTrip.drvSet g v
  | drvGet g => exact Laws.EncodeRoundTrip.drvGet g
  | drvIsAlloc g => exact Laws.EncodeRoundTrip.drvIsAlloc g
  | tapInit => exact Laws.EncodeRoundTrip.tapInit
  | tapSetState t => exact Laws.EncodeRoundTrip.tapSetState t
  | tapGetState => exact Laws.EncodeRoundTrip.tapGetState

/-- Settles O2: the byte transport delivers the word, and the decoder reads the command from it. -/
theorem encodedCommandDecodesBack : Obligations.EncodedCommandDecodesBack := by
  intro i rest
  exact ⟨decode_encode i, by rw [decodeBytes_bytesOfWord, decode_encode]⟩

/-! ### When the decoder answers a command -/

theorem decodeBare_command_iff {i j : Instr} {sig : BitVec 4} {arg : BitVec 8} :
    decodeBare i sig arg = .command j ↔ sig = 0 ∧ arg = 0 ∧ i = j := by
  unfold decodeBare
  by_cases h : sig = 0 ∧ arg = 0
  · simp [h]
  · rw [if_neg h]
    simpa using fun hs ha => absurd ⟨hs, ha⟩ h

theorem decodeDrvCfg_command_iff {i : Instr} {sig : BitVec 4} {arg : BitVec 8} :
    decodeDrvCfg sig arg = .command i ↔ ∃ g, Signal.ofCode sig = some g ∧ .drvCfg g arg = i := by
  unfold decodeDrvCfg
  cases Signal.ofCode sig with
  | none => simp
  | some g => simp

theorem decodeDrvSet_command_iff {i : Instr} {sig : BitVec 4} {arg : BitVec 8} :
    decodeDrvSet sig arg = .command i ↔
      ∃ g, Signal.ofCode sig = some g ∧ arg.extractLsb' 1 7 = 0 ∧ .drvSet g (arg.getLsbD 0) = i := by
  unfold decodeDrvSet
  cases Signal.ofCode sig with
  | none => simp
  | some g => by_cases h : arg.extractLsb' 1 7 = 0#7 <;> simp [h]

theorem decodeSignalOnly_command_iff {mk : Signal → Instr} {i : Instr} {sig : BitVec 4} {arg : BitVec 8} :
    decodeSignalOnly mk sig arg = .command i ↔ ∃ g, Signal.ofCode sig = some g ∧ arg = 0 ∧ mk g = i := by
  unfold decodeSignalOnly
  cases Signal.ofCode sig with
  | none => simp
  | some g => by_cases h : arg = 0#8 <;> simp [h]

theorem decodeSetState_command_iff {i : Instr} {sig : BitVec 4} {arg : BitVec 8} :
    decodeSetState sig arg = .command i ↔
      sig = 0 ∧ arg.extractLsb' 5 3 = 0 ∧
        ∃ t, TapState.ofCode (arg.extractLsb' 0 5) = some t ∧ .tapSetState t = i := by
  unfold decodeSetState
  by_cases h : sig = 0 ∧ arg.extractLsb' 5 3 = 0
  · rw [if_neg (by simp [h])]
    cases TapState.ofCode (arg.extractLsb' 0 5) with
    | none => simp
    | some t => simp [h]
  · rw [if_pos (not_and_or.mp h)]
    simpa using fun hs ha => absurd ⟨hs, ha⟩ h

/-- The opcode chooses one family's decoder, and an unassigned opcode none (30_encoding.md R81). -/
theorem decodeFields_command_iff {i : Instr} {op sig : BitVec 4} {arg : BitVec 8} :
    decodeFields op sig arg = .command i ↔
      (op = 0x1 ∧ decodeBare .drvInit sig arg = .command i) ∨
      (op = 0x2 ∧ decodeDrvCfg sig arg = .command i) ∨
      (op = 0x3 ∧ decodeDrvSet sig arg = .command i) ∨
      (op = 0x4 ∧ decodeSignalOnly .drvGet sig arg = .command i) ∨
      (op = 0x5 ∧ decodeSignalOnly .drvIsAlloc sig arg = .command i) ∨
      (op = 0x9 ∧ decodeBare .tapInit sig arg = .command i) ∨
      (op = 0xA ∧ decodeSetState sig arg = .command i) ∨
      (op = 0xB ∧ decodeBare .tapGetState sig arg = .command i) := by
  simp only [← BitVec.toNat_inj]
  unfold decodeFields
  split <;> simp_all

/-! ### A decoded word is its command's encoding -/

/-- With `ARG[7:1]` at 0 the value bit is the whole field (30_encoding.md R86). -/
theorem valueArg_getLsbD_zero : ∀ arg : BitVec 8,
    arg.extractLsb' 1 7 = 0 → valueArg (arg.getLsbD 0) = arg := by decide

/-- With `ARG[7:5]` at 0 the state code is the whole field (30_encoding.md R87). -/
theorem setWidth_stateCode : ∀ arg : BitVec 8,
    arg.extractLsb' 5 3 = 0 → (arg.extractLsb' 0 5).setWidth 8 = arg := by decide

theorem encode_of_decodeFields {i : Instr} {op sig : BitVec 4} {arg : BitVec 8}
    (h : decodeFields op sig arg = .command i) : encode i = cmd16 op sig arg := by
  rcases decodeFields_command_iff.mp h with
    ⟨rfl, h⟩ | ⟨rfl, h⟩ | ⟨rfl, h⟩ | ⟨rfl, h⟩ | ⟨rfl, h⟩ | ⟨rfl, h⟩ | ⟨rfl, h⟩ | ⟨rfl, h⟩
  · obtain ⟨rfl, rfl, rfl⟩ := decodeBare_command_iff.mp h
    rfl
  · obtain ⟨g, hg, rfl⟩ := decodeDrvCfg_command_iff.mp h
    rw [encode, Signal.code_of_ofCode hg]
  · obtain ⟨g, hg, ha, rfl⟩ := decodeDrvSet_command_iff.mp h
    rw [encode, Signal.code_of_ofCode hg, valueArg_getLsbD_zero arg ha]
  · obtain ⟨g, hg, rfl, rfl⟩ := decodeSignalOnly_command_iff.mp h
    rw [encode, Signal.code_of_ofCode hg]
  · obtain ⟨g, hg, rfl, rfl⟩ := decodeSignalOnly_command_iff.mp h
    rw [encode, Signal.code_of_ofCode hg]
  · obtain ⟨rfl, rfl, rfl⟩ := decodeBare_command_iff.mp h
    rfl
  · obtain ⟨rfl, ha, t, ht, rfl⟩ := decodeSetState_command_iff.mp h
    rw [encode, TapState.code_of_ofCode ht, setWidth_stateCode arg ha]
  · obtain ⟨rfl, rfl, rfl⟩ := decodeBare_command_iff.mp h
    rfl

/-- Settles O3: family by family, what the decoder tested to be 0 or in range is what the encoder writes. -/
theorem decodedWordEncodesBack : Obligations.DecodedWordEncodesBack := by
  intro w i h
  rw [encode_of_decodeFields h, cmd16_fields]

/-! ### The field table -/

/-- Two words with the same three fields are one word. -/
theorem word_eq_iff_fields {v w : Word} :
    v = w ↔ opField v = opField w ∧ sigField v = sigField w ∧ argField v = argField w := by
  refine ⟨fun h => by simp [h], fun ⟨hop, hsig, harg⟩ => ?_⟩
  rw [← cmd16_fields v, hop, hsig, harg, cmd16_fields]

/-- A row's fixed bits are tested field by field. -/
theorem OpRow.fixedBitsMatch_iff (r : OpRow) (w : Word) :
    r.fixedBitsMatch w = true ↔
      opField w &&& opField r.mask = opField r.value ∧ sigField w &&& sigField r.mask = sigField r.value ∧
      argField w &&& argField r.mask = argField r.value := by
  rw [OpRow.fixedBitsMatch, beq_iff_eq, word_eq_iff_fields]
  simp only [opField, sigField, argField, BitVec.extractLsb'_and]

/-- The mask of `DRV_SET` leaves the reserved bits `ARG[7:1]`. -/
theorem and_valueMask_eq_zero_iff : ∀ arg : BitVec 8, arg &&& 0xFE#8 = 0#8 ↔ arg.extractLsb' 1 7 = 0 := by decide

/-- The mask of `TAP_SETSTATE` leaves the reserved bits `ARG[7:5]`. -/
theorem and_stateMask_eq_zero_iff : ∀ arg : BitVec 8, arg &&& 0xE0#8 = 0#8 ↔ arg.extractLsb' 5 3 = 0 := by decide

/-- The field table by the three fields: the opcode, the fields that must be 0 and the codes' ranges
(30_encoding.md R82, R84, R87). -/
def FieldsAdmitted (op sig : BitVec 4) (arg : BitVec 8) : Prop :=
  (op = 0x1 ∧ sig = 0 ∧ arg = 0) ∨
  (op = 0x2 ∧ sig.toNat ≤ 4) ∨
  (op = 0x3 ∧ arg.extractLsb' 1 7 = 0 ∧ sig.toNat ≤ 4) ∨
  (op = 0x4 ∧ arg = 0 ∧ sig.toNat ≤ 4) ∨
  (op = 0x5 ∧ arg = 0 ∧ sig.toNat ≤ 4) ∨
  (op = 0x9 ∧ sig = 0 ∧ arg = 0) ∨
  (op = 0xA ∧ sig = 0 ∧ arg.extractLsb' 5 3 = 0 ∧ (arg.extractLsb' 0 5).toNat ≤ 16) ∨
  (op = 0xB ∧ sig = 0 ∧ arg = 0)

theorem OpRow.signalInRange_iff (r : OpRow) (w : Word) :
    r.signalInRange w = true ↔ (r.hasSignal = true → (sigField w).toNat ≤ 4) := by
  cases h : r.hasSignal <;> simp [OpRow.signalInRange, sigField, h]

/-- The state code is the low end of `ARG` (30_encoding.md R87). -/
theorem stateCode_eq_argField (w : Word) : w.extractLsb' 0 5 = (argField w).extractLsb' 0 5 := by
  ext i hi
  simp [argField]

theorem OpRow.stateInRange_iff (r : OpRow) (w : Word) :
    r.stateInRange w = true ↔ (r.hasState = true → ((argField w).extractLsb' 0 5).toNat ≤ 16) := by
  rw [← stateCode_eq_argField]
  cases h : r.hasState <;> simp [OpRow.stateInRange, h]

theorem wellFormedWord_cmd16 (op sig : BitVec 4) (arg : BitVec 8) :
    wellFormedWord (cmd16 op sig arg) = true ↔ FieldsAdmitted op sig arg := by
  have nib : ∀ x : BitVec 4, x &&& 15#4 = x := fun _ => BitVec.and_allOnes
  have byte : ∀ x : BitVec 8, x &&& 255#8 = x := fun _ => BitVec.and_allOnes
  simp only [wellFormedWord, List.any_eq_true, Bool.and_eq_true, OpRow.fixedBitsMatch_iff,
    OpRow.signalInRange_iff, OpRow.stateInRange_iff, opField_cmd16, sigField_cmd16, argField_cmd16]
  simp [opRows, opField, sigField, argField, nib, byte, and_valueMask_eq_zero_iff, and_stateMask_eq_zero_iff,
    FieldsAdmitted, and_assoc]

/-! ### Which fields each family's decoder accepts -/

theorem Signal.exists_ofCode_iff (c : BitVec 4) : (∃ g, Signal.ofCode c = some g) ↔ c.toNat ≤ 4 := by
  rw [← Option.ne_none_iff_exists', Ne, Signal.ofCode_none_iff, Nat.not_le, Nat.lt_succ_iff]

theorem TapState.exists_ofCode_iff (c : BitVec 5) : (∃ t, TapState.ofCode c = some t) ↔ c.toNat ≤ 16 := by
  rw [← Option.ne_none_iff_exists', Ne, TapState.ofCode_none_iff, Nat.not_le, Nat.lt_succ_iff]

theorem decodeBare_accepts_iff {i : Instr} {sig : BitVec 4} {arg : BitVec 8} :
    (∃ j, decodeBare i sig arg = .command j) ↔ sig = 0 ∧ arg = 0 := by
  simp [decodeBare_command_iff]

theorem decodeDrvCfg_accepts_iff {sig : BitVec 4} {arg : BitVec 8} :
    (∃ i, decodeDrvCfg sig arg = .command i) ↔ sig.toNat ≤ 4 := by
  simp only [decodeDrvCfg_command_iff]
  rw [exists_comm]
  simp [← Signal.exists_ofCode_iff]

theorem decodeDrvSet_accepts_iff {sig : BitVec 4} {arg : BitVec 8} :
    (∃ i, decodeDrvSet sig arg = .command i) ↔ arg.extractLsb' 1 7 = 0 ∧ sig.toNat ≤ 4 := by
  simp only [decodeDrvSet_command_iff]
  rw [exists_comm]
  simp [← Signal.exists_ofCode_iff, and_comm]

theorem decodeSignalOnly_accepts_iff {mk : Signal → Instr} {sig : BitVec 4} {arg : BitVec 8} :
    (∃ i, decodeSignalOnly mk sig arg = .command i) ↔ arg = 0 ∧ sig.toNat ≤ 4 := by
  simp only [decodeSignalOnly_command_iff]
  rw [exists_comm]
  simp [← Signal.exists_ofCode_iff, and_comm]

theorem decodeSetState_accepts_iff {sig : BitVec 4} {arg : BitVec 8} :
    (∃ i, decodeSetState sig arg = .command i) ↔
      sig = 0 ∧ arg.extractLsb' 5 3 = 0 ∧ (arg.extractLsb' 0 5).toNat ≤ 16 := by
  simp only [decodeSetState_command_iff, exists_and_left, ← TapState.exists_ofCode_iff]
  rw [exists_comm]
  simp

theorem decodeFields_accepts_iff (op sig : BitVec 4) (arg : BitVec 8) :
    (∃ i, decodeFields op sig arg = .command i) ↔ FieldsAdmitted op sig arg := by
  simp only [decodeFields_command_iff, exists_or, exists_and_left, decodeBare_accepts_iff, decodeDrvCfg_accepts_iff,
    decodeDrvSet_accepts_iff, decodeSignalOnly_accepts_iff, decodeSetState_accepts_iff, FieldsAdmitted]

/-- Settles O4: the decoder and the field table admit the same three fields. -/
theorem commandsAreTheWellFormedWords : Obligations.CommandsAreTheWellFormedWords := by
  intro w
  rw [← cmd16_fields w, decode_cmd16, decodeFields_accepts_iff, wellFormedWord_cmd16]

end Sys2Proof
end

section
/-! Proofs about the words the decoder refuses, and about the literal words of the spec (30_encoding.md R89, R93,
R94). -/

namespace Sys2Proof.Machine

/-! ### Which opcode has which decoder -/

theorem decodeFields_bare {op : BitVec 4} (hop : op ∈ ([0x1, 0x9, 0xB] : List (BitVec 4))) (sig : BitVec 4)
    (arg : BitVec 8) : ∃ i, decodeFields op sig arg = decodeBare i sig arg := by
  simp only [List.mem_cons, List.not_mem_nil, or_false] at hop
  rcases hop with rfl | rfl | rfl
  · exact ⟨.drvInit, rfl⟩
  · exact ⟨.tapInit, rfl⟩
  · exact ⟨.tapGetState, rfl⟩

theorem decodeFields_signalOnly {op : BitVec 4} (hop : op ∈ ([0x4, 0x5] : List (BitVec 4))) (sig : BitVec 4)
    (arg : BitVec 8) : ∃ mk, decodeFields op sig arg = decodeSignalOnly mk sig arg := by
  rcases List.mem_pair.mp hop with rfl | rfl
  · exact ⟨.drvGet, rfl⟩
  · exact ⟨.drvIsAlloc, rfl⟩

theorem decodeFields_unassigned {op : BitVec 4}
    (hop : op ∈ ([0x0, 0x6, 0x7, 0x8, 0xC, 0xD, 0xE, 0xF] : List (BitVec 4))) (sig : BitVec 4) (arg : BitVec 8) :
    decodeFields op sig arg = .refuse .reservedOpcode := by
  simp only [List.mem_cons, List.not_mem_nil, or_false] at hop
  rcases hop with rfl | rfl | rfl | rfl | rfl | rfl | rfl | rfl <;> rfl

/-! ### Refusals -/

theorem decodeBare_reservedBits {sig : BitVec 4} {arg : BitVec 8} (h : sig ≠ 0 ∨ arg ≠ 0) (i : Instr) :
    decodeBare i sig arg = .refuse .reservedBits :=
  if_neg (not_and_or.mpr h)

theorem decodeDrvSet_reservedBits {sig : BitVec 4} {arg : BitVec 8} (hs : sig.toNat ≤ 4)
    (ha : arg.extractLsb' 1 7 ≠ 0) : decodeDrvSet sig arg = .refuse .reservedBits := by
  obtain ⟨g, hg⟩ := (Signal.exists_ofCode_iff sig).mpr hs
  simp only [decodeDrvSet, hg, if_neg ha]

theorem decodeSignalOnly_reservedBits {sig : BitVec 4} {arg : BitVec 8} (hs : sig.toNat ≤ 4) (ha : arg ≠ 0)
    (mk : Signal → Instr) : decodeSignalOnly mk sig arg = .refuse .reservedBits := by
  obtain ⟨g, hg⟩ := (Signal.exists_ofCode_iff sig).mpr hs
  simp only [decodeSignalOnly, hg, if_neg ha]

theorem decodeDrvCfg_badSignal {sig : BitVec 4} (hg : Signal.ofCode sig = none) (arg : BitVec 8) :
    decodeDrvCfg sig arg = .refuse .badSignal := by
  simp only [decodeDrvCfg, hg]

theorem decodeDrvSet_badSignal {sig : BitVec 4} (hg : Signal.ofCode sig = none) (arg : BitVec 8) :
    decodeDrvSet sig arg = .refuse .badSignal := by
  simp only [decodeDrvSet, hg]

theorem decodeSignalOnly_badSignal {sig : BitVec 4} (hg : Signal.ofCode sig = none) (arg : BitVec 8)
    (mk : Signal → Instr) : decodeSignalOnly mk sig arg = .refuse .badSignal := by
  simp only [decodeSignalOnly, hg]

/-- A driver word's signal code is tested before its reserved bits (60_exceptions.md R204). -/
theorem decodeFields_badSignal {op sig : BitVec 4} (hop : op ∈ ([0x2, 0x3, 0x4, 0x5] : List (BitVec 4)))
    (hs : 5 ≤ sig.toNat) (arg : BitVec 8) : decodeFields op sig arg = .refuse .badSignal := by
  have hg := (Signal.ofCode_none_iff sig).mpr hs
  simp only [List.mem_cons, List.not_mem_nil, or_false] at hop
  rcases hop with rfl | rfl | rfl | rfl
  · exact decodeDrvCfg_badSignal hg arg
  · exact decodeDrvSet_badSignal hg arg
  · exact decodeSignalOnly_badSignal hg arg .drvGet
  · exact decodeSignalOnly_badSignal hg arg .drvIsAlloc

theorem decodeSetState_reservedBits {sig : BitVec 4} {arg : BitVec 8}
    (h : sig ≠ 0 ∨ arg.extractLsb' 5 3 ≠ 0) : decodeSetState sig arg = .refuse .reservedBits :=
  if_pos h

theorem decodeSetState_badState {sig : BitVec 4} {arg : BitVec 8} (hs : sig = 0) (ha : arg.extractLsb' 5 3 = 0)
    (ht : 17 ≤ (arg.extractLsb' 0 5).toNat) : decodeSetState sig arg = .refuse .badState := by
  rw [decodeSetState, if_neg (by simp [hs, ha]), (TapState.ofCode_none_iff _).mpr ht]

theorem decode_of_opField {w : Word} {op : BitVec 4} (h : opField w = op) :
    decode w = decodeFields op (sigField w) (argField w) := by
  rw [decode, h]

/-- A refused word gives its step no next state (60_exceptions.md R202). -/
theorem step_refused {s : State} {w : Word} {rest : List Word} {r : RefuseReason} (hp : s.port = w :: rest)
    (hw : decode w = .refuse r) : step s = .refused (refusalOf r) := by
  simp only [step, hp, hw]

/-- Settles O5: in each clause the opcode's own decoder makes the test that fails first. -/
theorem meaninglessWordsAreRefused : Obligations.MeaninglessWordsAreRefused := by
  intro s w rest hp
  refine ⟨?unassigned, ?badSignal, ?bare, ?drvSet, ?signalOnly, ?setState, ?badState⟩
  case unassigned => exact fun hop => step_refused hp (decodeFields_unassigned hop _ _)
  case badSignal => exact fun hop hs => step_refused hp (decodeFields_badSignal hop hs _)
  case bare =>
    intro hop h
    obtain ⟨i, hi⟩ := decodeFields_bare hop (sigField w) (argField w)
    exact step_refused hp (hi.trans (decodeBare_reservedBits h i))
  case drvSet =>
    exact fun hop hs ha => step_refused hp ((decode_of_opField hop).trans (decodeDrvSet_reservedBits hs ha))
  case signalOnly =>
    intro hop hs ha
    obtain ⟨mk, hmk⟩ := decodeFields_signalOnly hop (sigField w) (argField w)
    exact step_refused hp (hmk.trans (decodeSignalOnly_reservedBits hs ha mk))
  case setState =>
    exact fun hop h => step_refused hp ((decode_of_opField hop).trans (decodeSetState_reservedBits h))
  case badState =>
    exact fun hop hs ha ht => step_refused hp ((decode_of_opField hop).trans (decodeSetState_badState hs ha ht))

/-! ### The spec's words -/

/-- Settles O1: the four fields of each literal word decide what it is. -/
theorem specWordsDecode : Obligations.SpecWordsDecode := by
  unfold Obligations.SpecWordsDecode
  decide

/-- Settles O6: the expansions are commands whose words are `cmd16` of their fields. -/
theorem pseudoInstructionWords : Obligations.PseudoInstructionWords :=
  ⟨rfl, rfl, fun _ => ⟨rfl, rfl, rfl⟩⟩

end Sys2Proof.Machine
end

section
/-! Proofs about the assembler: each name and number reads back, so each line assembles to its command
(30_encoding.md R92, R93). -/

namespace Sys2Proof.Machine

@[simp] theorem signalNamed_signalName (g : Signal) : signalNamed (signalName g) = some g := by
  cases g <;> decide

@[simp] theorem stateNamed_stateName (t : TapState) : stateNamed (stateName t) = some t := by
  cases t with
  | unknown => decide
  | node n => cases n <;> decide

@[simp] theorem valueNamed_valueText (v : Bool) : valueNamed (valueText v) = some v := by
  cases v <;> decide

theorem digitText_eq_repr {n : Nat} (h : n < 10) : digitText n = n.repr := by
  interval_cases n <;> rfl

/-- Below 1000 the model's decimal text is the library's. -/
theorem decimalText_eq_repr {n : Nat} (h : n < 1000) : decimalText n = n.repr := by
  unfold decimalText
  split
  case isTrue h1 => exact digitText_eq_repr h1
  case isFalse h1 =>
    rw [Nat.repr_eq_repr_append_repr (n := n) (by omega)]
    split
    case isTrue h2 => rw [digitText_eq_repr (by omega), digitText_eq_repr (by omega)]
    case isFalse h2 =>
      rw [Nat.repr_eq_repr_append_repr (n := n / 10) (by omega), Nat.div_div_eq_div_mul,
        digitText_eq_repr (by omega), digitText_eq_repr (by omega), digitText_eq_repr (by omega)]

theorem decimalText_ne_notAllocated {n : Nat} (h : n < 1000) : decimalText n ≠ "NOT_ALLOCATED" := by
  intro he
  have hlen : n.repr.length ≤ 3 := (Nat.length_repr_le_iff (by decide)).mpr h
  rw [← decimalText_eq_repr h, he] at hlen
  exact absurd hlen (by decide)

theorem find_decimalText {n : Nat} (h : n < 256) :
    (List.range 256).find? (fun k => decimalText k == decimalText n) = some n := by
  rw [List.find?_range_eq_some]
  refine ⟨by simp, List.mem_range.mpr h, fun k hk => ?_⟩
  rw [decimalText_eq_repr (by omega), decimalText_eq_repr (by omega)]
  have hne : k.repr ≠ n.repr := fun he => hk.ne (Nat.repr_inj.mp he)
  simpa using hne

@[simp] theorem pinNamed_pinText (b : BitVec 8) : pinNamed (pinText b) = some b := by
  unfold pinText
  split
  case isTrue h => rw [h, pinNamed, if_pos rfl]
  case isFalse =>
    have hb : b.toNat < 256 := b.isLt
    rw [pinNamed, if_neg (decimalText_ne_notAllocated (by omega)), find_decimalText hb]
    simp

theorem assemble_asmLine (i : Instr) : assemble (asmLine i) = some i := by
  cases i with
  | drvInit => decide
  | drvCfg g f => simp [asmLine, assemble, assembleTwo]
  | drvSet g v => simp [asmLine, assemble, assembleTwo]
  | drvGet g => simp [asmLine, assemble, assembleOne]
  | drvIsAlloc g => simp [asmLine, assemble, assembleOne]
  | tapInit => decide
  | tapSetState t => simp [asmLine, assemble, assembleOne]
  | tapGetState => decide

theorem assemble_pseudoLine (p : Pseudo) : assemble (pseudoLine p) = some p.expand := by
  cases p with
  | tapReset => decide
  | tapResync => decide
  | drvFree g => simp [pseudoLine, assemble, assembleOne]
  | drvHigh g => simp [pseudoLine, assemble, assembleOne]
  | drvLow g => simp [pseudoLine, assemble, assembleOne]

/-- Settles O7: each mnemonic chooses its form and each operand reads back. -/
theorem assemblerLinesAssemble : Obligations.AssemblerLinesAssemble :=
  ⟨assemble_asmLine, assemble_pseudoLine⟩

end Sys2Proof.Machine
end

section
/-! Proof that a completing command gives back one result, the response table's (30_encoding.md R90). -/

namespace Sys2Proof.Machine

/-- `t` is a state with `s`'s results, stream and parameters, once the result of command `i` from `s` has been
given back. -/
def Answers (i : Instr) (s t : State) : Prop :=
  ∃ (u : State) (c : Completion), t = u.completed c ∧ c.response = responseOf i s c.failure.isSome ∧
    u.completions = s.completions ∧ u.port = s.port ∧ u.params = s.params

theorem cfgCompletion_response (e : Option CfgFailure) :
    (cfgCompletion e).response = if (cfgCompletion e).failure.isSome then 0 else 1 := by
  cases e <;> rfl

theorem responseOf_drvGet_none {s : State} {g : Signal} (h : s.pinOf g = none) (failed : Bool) :
    responseOf (.drvGet g) s failed = boolWord false := by
  simp [responseOf, h, boolWord]

theorem responseOf_drvGet_some {s : State} {g : Signal} {p : Pin} (h : s.pinOf g = some p) (failed : Bool) :
    responseOf (.drvGet g) s failed = boolWord ((inputDraw s).getLsbD p.val) := by
  simp only [responseOf, h]
  rfl

theorem responseOf_tapGetState {s : State} {c : TapState} (h : s.curState = some c) (failed : Bool) :
    responseOf .tapGetState s failed = stateWord c := by
  simp [responseOf, h, stateWord]

theorem exec_answers {i : Instr} {s t : State} (h : exec i s = .next t) : Answers i s t := by
  cases i with
  | drvInit =>
    obtain ⟨hport, hcompletions, -, -, -, hparams, -, -⟩ := clearAlloc_initPort_fields s
    have o := defaultAlloc_onlyDriver (clearAlloc (initPort s))
    exact ⟨_, _, exec_drvInit_next h, rfl, o.completions.trans hcompletions, o.port.trans hport,
      o.params.trans hparams⟩
  | drvCfg g f =>
    have o := cfgCore_onlyDriver g f s
    exact ⟨_, _, (exec_drvCfg_next h).2, cfgCompletion_response _, o.completions, o.port, o.params⟩
  | drvSet g v =>
    have o := setSignal_onlyLatches g v s
    exact ⟨_, _, (exec_drvSet_next h).2, rfl, o.completions, o.port, o.params⟩
  | drvGet g =>
    obtain ⟨-, ⟨hp, ht⟩ | ⟨p, hp, ht⟩⟩ := exec_drvGet_next h
    · exact ⟨_, _, ht, (responseOf_drvGet_none hp _).symm, rfl, rfl, rfl⟩
    · exact ⟨_, _, ht, (responseOf_drvGet_some hp _).symm, rfl, rfl, rfl⟩
  | drvIsAlloc g => exact ⟨_, _, (exec_drvIsAlloc_next h).2, rfl, rfl, rfl, rfl⟩
  | tapInit => exact ⟨_, _, exec_tapInit_next h, rfl, rfl, rfl, rfl⟩
  | tapSetState g =>
    obtain ⟨u, ht, -, d⟩ := exec_tapSetState_next h
    exact ⟨_, _, ht, rfl, d.latches.completions, d.latches.port, d.latches.params⟩
  | tapGetState =>
    obtain ⟨c, hc, ht⟩ := exec_tapGetState_next h
    exact ⟨_, _, ht, (responseOf_tapGetState hc _).symm, rfl, rfl, rfl⟩

/-- Settles O57: the command's last act gives its one result back, and the events are those of
`exec_writesOnly`. -/
theorem oneResponseAndAGrowingTrace : Obligations.OneResponseAndAGrowingTrace := by
  intro i s t h
  obtain ⟨new, hnew, -⟩ := exec_writesOnly h
  obtain ⟨u, c, rfl, hc, hcompletions, hport, hparams⟩ := exec_answers h
  exact ⟨⟨c, congrArg (· ++ [c]) hcompletions, hc⟩, ⟨new, hnew⟩, hport, hparams⟩

end Sys2Proof.Machine
end

section
/-! What each driver command answers, said once (40_pin_driver.md R100, R102, R110 to R114). -/

namespace Sys2Proof.Machine

theorem exec_drvInit (s : State) :
    exec .drvInit s = .next ((defaultAlloc (clearAlloc (initPort s))).completed (plainCompletion 0)) := rfl

theorem exec_drvCfg_ready {s : State} (h : s.driverReady = true) (g : Signal) (f : BitVec 8) :
    exec (.drvCfg g f) s =
      .next ((cfgCore g f s).state.completed (cfgCompletion (cfgCore g f s).failure)) := by
  simp only [exec, execDrvCfg, h, if_true, complete]

theorem exec_drvCfg_of_cfgCore {s t : State} {g : Signal} {f : BitVec 8} {e : Option CfgFailure}
    (h : s.driverReady = true) (hc : cfgCore g f s = ⟨t, e⟩) :
    exec (.drvCfg g f) s = .next (t.completed (cfgCompletion e)) := by
  rw [exec_drvCfg_ready h, hc]

theorem exec_drvSet_written {s : State} (h : s.alloc.isSome = true) (g : Signal) (v : Bool) :
    exec (.drvSet g v) s = .next ((setSignal g v s).completed (plainCompletion 0)) := by
  simp only [exec, execDrvSet, h, if_true, complete]

theorem exec_drvGet_unallocated {s : State} {g : Signal} (h : s.alloc.isSome = true) (hp : s.pinOf g = none) :
    exec (.drvGet g) s = .next (s.completed (plainCompletion (boolWord false))) := by
  simp only [exec, execDrvGet, h, hp, if_true, complete]

theorem exec_drvGet_allocated {s : State} {g : Signal} {p : Pin} (hp : s.pinOf g = some p) :
    exec (.drvGet g) s =
      .next ((readInput s).completed (plainCompletion (boolWord ((inputDraw s).getLsbD p.val)))) := by
  simp only [exec, execDrvGet, pinOf_some_written hp, hp, if_true, complete]

theorem exec_drvIsAlloc_written {s : State} (h : s.alloc.isSome = true) (g : Signal) :
    exec (.drvIsAlloc g) s = .next (s.completed (plainCompletion (boolWord (s.pinOf g).isSome))) := by
  simp only [exec, execDrvIsAlloc, h, if_true, complete]

theorem exec_drvSet_unwritten {s : State} (h : s.alloc = none) (g : Signal) (v : Bool) :
    exec (.drvSet g v) s = .fault .uninitDriver := by
  simp [exec, execDrvSet, h]

theorem exec_drvGet_unwritten {s : State} (h : s.alloc = none) (g : Signal) :
    exec (.drvGet g) s = .fault .uninitDriver := by
  simp [exec, execDrvGet, h]

theorem exec_drvIsAlloc_unwritten {s : State} (h : s.alloc = none) (g : Signal) :
    exec (.drvIsAlloc g) s = .fault .uninitDriver := by
  simp [exec, execDrvIsAlloc, h]

theorem driverReady_iff {s : State} :
    s.driverReady = true ↔ s.alloc.isSome = true ∧ s.pinUsage.isSome = true := by
  simp [State.driverReady]

end Sys2Proof.Machine
end

section
/-! Proofs about `DRV_CFG` on a ready driver (40_pin_driver.md R102 to R107). -/

namespace Sys2Proof.Machine

theorem cfgCore_samePin {s : State} {g : Signal} {p : Pin} (ho : s.used p = true → s.owner p = some g)
    (hp : s.pinOf g = some p) : cfgCore g (BitVec.ofNat 8 p.val) s = ⟨s, none⟩ := by
  rw [cfgCore_pin, if_neg fun hc => hc.2 (ho hc.1), if_pos hp]

theorem cfgCore_otherPin {s : State} {g : Signal} {p : Pin} (ho : s.used p = true → s.owner p = some g)
    (hp : s.pinOf g ≠ some p) : cfgCore g (BitVec.ofNat 8 p.val) s = ⟨allocatePin g p s, none⟩ := by
  rw [cfgCore_pin, if_neg fun hc => hc.2 (ho hc.1), if_neg hp]

/-- A failure of `CFG_CORE` left the state as it was (60_exceptions.md R200). -/
theorem cfgCore_state_of_failure {s : State} {g : Signal} {f : BitVec 8}
    (h : (cfgCore g f s).failure.isSome = true) : (cfgCore g f s).state = s := by
  rcases cfgCore_cases g f s with ⟨e, hc⟩ | hc | ⟨p, -, -, hc⟩ <;> rw [hc] at h ⊢
  · cases h
  · cases h

theorem freeEvents_some {s : State} {g : Signal} {p : Pin} (h : s.pinOf g = some p) :
    freeEvents s g = [.config p inputCfg, driveEvent p false] := by
  simp [freeEvents, h]

theorem OnlyDriver.samePort {s t : State} (h : OnlyDriver s t) : SamePort s t :=
  ⟨h.port, h.params, h.clkenReg, h.draws⟩

/-- Settles O20: `CFG_CORE` is `DEALLOC_PIN`, whose laws say what becomes of the pin, the mask and the table. -/
theorem cfgFreesThePin : Obligations.CfgFreesThePin := by
  intro s g p hr hp
  obtain ⟨ha, hu⟩ := driverReady_iff.mp hr
  have o := deallocPin_onlyDriver g s
  refine ⟨_, exec_drvCfg_of_cfgCore hr (cfgCore_free g s), ?events, fun q => ?pin, fun q => ?used,
    (deallocPin_pinOf g · s), o.allocWritten.trans ha, o.usageWritten.trans hu,
    congrArg (· ++ [_]) o.completions, o.curState, o.samePort⟩
  case events => exact freeEvents_some hp ▸ deallocPin_events g s
  case pin =>
    rw [completed_pin, deallocPin_pin, hp]
    simp only [Option.some.injEq, eq_comm]
  case used =>
    refine (deallocPin_used g s q hu).trans ?_
    rw [hp]
    simp only [Option.some.injEq, eq_comm]

/-- Settles O21: both tests of `CFG_CORE` pass, and the laws of the allocation say the rest. -/
theorem cfgAllocatesThePin : Obligations.CfgAllocatesThePin := by
  intro s g p hr ho hp
  obtain ⟨ha, hu⟩ := driverReady_iff.mp hr
  have o := allocatePin_onlyDriver g p s
  exact ⟨_, exec_drvCfg_of_cfgCore hr (cfgCore_otherPin ho hp), allocatePin_events g p s,
    (allocatePin_pin g p · s hp), (allocatePin_used g p · s hu), (allocatePin_pinOf g · p s ha),
    o.allocWritten.trans ha, o.usageWritten.trans hu, congrArg (· ++ [_]) o.completions, o.curState,
    o.samePort⟩

/-- Settles O23: in both cases `CFG_CORE` succeeds on the same state. -/
theorem cfgNoOpsSucceed : Obligations.CfgNoOpsSucceed := by
  refine ⟨fun s g hr hp => ?free, fun s g p hr ho hp => ?same⟩
  case free => exact exec_drvCfg_of_cfgCore hr ((cfgCore_free g s).trans (by rw [deallocPin_none hp]))
  case same => exact exec_drvCfg_of_cfgCore hr (cfgCore_samePin ho hp)

/-- Settles O24: the response says whether `CFG_CORE` failed, and a failure left its state. -/
theorem cfgAlwaysCompletes : Obligations.CfgAlwaysCompletes := by
  intro s g f hr
  refine ⟨_, _, exec_drvCfg_ready hr g f, congrArg (· ++ [_]) (cfgCore_onlyDriver g f s).completions, ?_⟩
  cases hf : (cfgCore g f s).failure with
  | none => exact .inl ⟨rfl, rfl⟩
  | some e =>
    have hs : (cfgCore g f s).state = s := cfgCore_state_of_failure (by rw [hf]; rfl)
    exact .inr ⟨rfl, rfl, by rw [hs]; rfl⟩

end Sys2Proof.Machine
end

section
/-! Proofs about `DRV_INIT` (40_pin_driver.md R100, R101). -/

namespace Sys2Proof.Machine

/-- `t` is `s`, with table `a` and mask `u`, once a signal that had no pin has claimed pin `p`. -/
structure Claims (g : Signal) (p : Pin) (a : AllocTable) (u : BitVec 16) (s t : State) : Prop where
  alloc : t.alloc = some (a.set g (some p))
  usage : t.pinUsage = some (usageSet u p true)
  pin : ∀ q, t.pin q =
    if q = p then (if outputCapable g then ⟨outputCfg, false⟩ else ⟨inputCfg, (s.pin p).out⟩) else s.pin q
  events : t.events = s.events ++ claimEvents g p

/-- An allocation of a signal without a pin frees none. -/
theorem allocatePin_claims {s : State} {a : AllocTable} {u : BitVec 16} {g : Signal} (p : Pin)
    (ha : s.alloc = some a) (hu : s.pinUsage = some u) (hg : a.get g = none) :
    Claims g p a u s (allocatePin g p s) := by
  have hp : s.pinOf g = none := by simpa [State.pinOf, ha] using hg
  have o := configFor_onlyPins g p s
  rw [allocatePin, deallocPin_none hp]
  exact ⟨by simp [o.alloc, ha], by simp [o.pinUsage, hu], (configFor_pin g p · s), configFor_events g p s⟩

/-- The default allocation of a cleared driver whose pins are low inputs (40_pin_driver.md R101). -/
theorem defaultAlloc_cleared {s : State} (ha : s.alloc = some AllocTable.empty) (hu : s.pinUsage = some 0)
    (hpin : ∀ q, s.pin q = ⟨inputCfg, false⟩) :
    (defaultAlloc s).alloc = some ⟨some 0, some 1, some 2, some 3, none⟩ ∧
    (defaultAlloc s).pinUsage = some 0x000F ∧
    (∀ q, (defaultAlloc s).pin q = ⟨if q.val < 3 then outputCfg else inputCfg, false⟩) ∧
    (defaultAlloc s).events = s.events ++
      (claimEvents .tck 0 ++ claimEvents .tms 1 ++ claimEvents .tdi 2 ++ claimEvents .tdo 3) := by
  have tck := allocatePin_claims (g := .tck) 0 ha hu rfl
  have tms := allocatePin_claims (g := .tms) 1 tck.alloc tck.usage rfl
  have tdi := allocatePin_claims (g := .tdi) 2 tms.alloc tms.usage rfl
  have tdo := allocatePin_claims (g := .tdo) 3 tdi.alloc tdi.usage rfl
  rw [defaultAlloc_chain ha hu]
  refine ⟨tdo.alloc, tdo.usage, fun q => ?_, ?_⟩
  · simp only [tdo.pin, tdi.pin, tms.pin, tck.pin, hpin]
    revert q
    decide
  · simp only [tdo.events, tdi.events, tms.events, tck.events, List.append_assoc]

/-- Settles O18: the port is cleared with its events, and the default allocation follows on the cleared state. -/
theorem drvInitSetsDefaults : Obligations.DrvInitSetsDefaults := by
  intro s
  obtain ⟨port, completions, curState, hcleared, hunused, params, draws, clkenReg⟩ := clearAlloc_initPort_fields s
  obtain ⟨alloc, usage, pins, events⟩ := defaultAlloc_cleared hcleared hunused (clearAlloc_initPort_pin s)
  have o := defaultAlloc_onlyDriver (clearAlloc (initPort s))
  have hclken := o.clkenReg.trans clkenReg
  have hparams := o.params.trans params
  refine ⟨_, exec_drvInit s, alloc, usage, pins, hclken, ?clken, ?events,
    congrArg (· ++ [_]) (o.completions.trans completions), o.curState.trans curState, o.port.trans port,
    hparams, o.draws.trans draws⟩
  case clken => simp [State.clken, hclken, hparams, oneShl]
  case events =>
    rw [completed_events, events, clearAlloc_initPort_events, List.append_assoc]
    rfl

/-- Settles O19: both runs end in the defaults, and the block's bit is set once. -/
theorem drvInitTwiceIsDrvInit : Obligations.DrvInitTwiceIsDrvInit := by
  intro s
  obtain ⟨t, ht, alloc, usage, pins, clken, -, -, -, -, -, params, -⟩ := drvInitSetsDefaults s
  obtain ⟨u, hu, alloc', usage', pins', clken', -, -, -, cur', -, -, -⟩ := drvInitSetsDefaults t
  refine ⟨t, u, ht, hu, alloc'.trans alloc.symm, usage'.trans usage.symm,
    pin_ext fun q => (pins' q).trans (pins q).symm, ?_, cur'⟩
  rw [clken', params, clken, BitVec.or_assoc, BitVec.or_self]

end Sys2Proof.Machine
end

section
/-! Proofs about `DRV_SET`, `DRV_GET`, `DRV_ISALLOC` and `CLOCK` (40_pin_driver.md R110 to R116). -/

namespace Sys2Proof.Machine

/-- The signal has no pin, or its pin is an input: `SET` of it does nothing (40_pin_driver.md R110). -/
def NotDriven (s : State) (g : Signal) : Prop :=
  s.pinOf g = none ∨ ∃ p, s.pinOf g = some p ∧ (s.pin p).cfg.mode = .input

theorem NotDriven.not_output {s : State} {g : Signal} (h : NotDriven s g) {p : Pin} (hp : s.pinOf g = some p) :
    (s.pin p).cfg.mode = .input := by
  rcases h with h | ⟨q, hq, hm⟩
  · cases h.symm.trans hp
  · exact Option.some.inj (hq.symm.trans hp) ▸ hm

theorem NotDriven.setSignal {s : State} {g : Signal} (h : NotDriven s g) (v : Bool) : setSignal g v s = s := by
  rcases setSignal_cases g v s with ⟨hs, -, -⟩ | ⟨p, hp, hm, -, -⟩
  · exact hs
  · exact absurd (h.not_output hp) hm

theorem NotDriven.setEvents {s : State} {g : Signal} (h : NotDriven s g) (v : Bool) : setEvents s g v = [] := by
  rcases setSignal_cases g v s with ⟨-, he, -⟩ | ⟨p, hp, hm, -, -⟩
  · exact he
  · exact absurd (h.not_output hp) hm

theorem setEvents_of_output {s : State} {g : Signal} {p : Pin} (v : Bool) (hp : s.pinOf g = some p)
    (hm : (s.pin p).cfg.mode ≠ .input) : setEvents s g v = [driveEvent p v] := by
  simp [setEvents, hp, hm]

theorem NotDriven.exec_drvSet {s : State} {g : Signal} (h : NotDriven s g) (ha : s.alloc.isSome = true) (v : Bool) :
    exec (.drvSet g v) s = .next (s.completed (plainCompletion 0)) := by
  rw [exec_drvSet_written ha, h.setSignal]

theorem OnlyLatches.samePort {s t : State} (h : OnlyLatches s t) : SamePort s t :=
  ⟨h.port, h.params, h.clkenReg, h.draws⟩

/-- Settles O25: before `DRV_INIT`, on a signal that is not driven, and as a one-bit write. -/
theorem drvSetDrivesOnePin : Obligations.DrvSetDrivesOnePin := by
  intro s g v
  refine ⟨(exec_drvSet_unwritten · g v), fun ha hn => NotDriven.exec_drvSet hn ha v, fun p hp hm => ?_⟩
  have hset := exec_drvSet_written (pinOf_some_written hp) g v
  rw [setSignal_of_output v hp hm] at hset
  have o := writeSetReset_onlyLatches (levelWord p v) s
  exact ⟨_, hset, writeSetReset_events s _, (writeSetReset_levelWord_pin p · v s),
    congrArg (· ++ [_]) o.completions, o.curState, o.alloc, o.pinUsage, o.samePort⟩

/-- Under the invariants TDO's pin is an input (10_state.md R27). -/
theorem ReadyInv.tdo_notDriven {s : State} (h : ReadyInv s) : NotDriven s .tdo := by
  cases hp : s.pinOf .tdo with
  | none => exact .inl hp
  | some p => exact .inr ⟨p, hp, (h.tdo p hp).1⟩

/-- Settles O59: the invariants make TDO a signal that is not driven. -/
theorem settingTdoHasNoEffect : Obligations.SettingTdoHasNoEffect := by
  intro s v hi hr
  have h := hi.ready hr
  exact h.tdo_notDriven.exec_drvSet h.alloc v

/-- Settles O26: before `DRV_INIT`, on an unallocated signal, and as one draw of the input register. -/
theorem drvGetReturnsTheDrawnLevel : Obligations.DrvGetReturnsTheDrawnLevel :=
  fun _ g => ⟨(exec_drvGet_unwritten · g), exec_drvGet_unallocated, fun _ => exec_drvGet_allocated⟩

/-- Settles O27: before `DRV_INIT`, and as the entry's presence. -/
theorem drvIsAllocReportsTheEntry : Obligations.DrvIsAllocReportsTheEntry :=
  fun _ g => ⟨(exec_drvIsAlloc_unwritten · g), (exec_drvIsAlloc_written · g)⟩

/-- Settles O41: the two calls of `SET` both write TCK's pin, or both do nothing. -/
theorem clockPulsesTck : Obligations.ClockPulsesTck := by
  intro s
  refine ⟨fun k hk hm => ⟨?_, fun q => ?_⟩, fun hn => ⟨?_, fun q => ?_⟩⟩
  · rw [clock_events, clockEvents, setEvents_of_output true hk hm, setEvents_of_output false hk hm]
    rfl
  · rw [clock_pin, hk]
    by_cases hq : q = k
    · subst hq; simp [hm]
    · simp [hq, Ne.symm hq]
  · rw [clock_events, clockEvents, NotDriven.setEvents hn, NotDriven.setEvents hn]
    rfl
  · rw [clock_pin, if_neg fun h => h.2 (NotDriven.not_output hn h.1)]

end Sys2Proof.Machine
end

section
/-! What each TAP command answers, said once (41_tap_controller.md R150 to R153). -/

namespace Sys2Proof.Machine

theorem exec_tapInit (s : State) :
    exec .tapInit s = .next ((s.setCur .unknown).completed (plainCompletion 0)) := rfl

theorem exec_tapGetState_unwritten {s : State} (h : s.curState = none) :
    exec .tapGetState s = .fault .uninitTap := by
  simp only [exec, execTapGetState, h]

theorem exec_tapGetState_written {s : State} {c : TapState} (h : s.curState = some c) :
    exec .tapGetState s = .next (s.completed (plainCompletion (stateWord c))) := by
  simp only [exec, execTapGetState, h, complete]

theorem exec_tapSetState_unknown {s : State} {c : TapState} (h : s.curState = some c) :
    exec (.tapSetState .unknown) s = .next ((s.setCur .unknown).completed (plainCompletion 0)) := by
  simp [exec, execTapSetState, h, complete]

@[simp] theorem issueTable_self (n : Nat) (c : TapNode) (s : State) : issueTable n c c s = s := by
  cases n with
  | zero => rfl
  | succ n => exact if_pos rfl

/-- `TAP_SETSTATE` to a state that reads no unwritten table is bullet 2 or 3 of 41_tap_controller.md R151. -/
theorem exec_tapSetState_node_eq {s : State} {c : TapState} {n : TapNode} (hc : s.curState = some c)
    (hg : s.alloc.isSome = true ∨ setStateReadsAlloc (.node n) s = false) :
    exec (.tapSetState (.node n)) s = setStateWalk (.node n) s := by
  have guard : (s.alloc.isNone && setStateReadsAlloc (.node n) s) = false := by
    rcases hg with h | h
    · simp [Option.isSome_iff_ne_none.mp h]
    · simp [h]
  simp only [exec, execTapSetState, hc, guard, Option.isNone_some, Bool.false_eq_true, if_false, reduceCtorEq]

/-- Target `Reset` with TRST allocated is one `HW_RESET` (41_tap_controller.md R151 bullet 2). -/
theorem exec_tapSetState_hwReset {s : State} {c : TapState} (hc : s.curState = some c)
    (hr : (s.pinOf .trst).isSome = true) :
    exec (.tapSetState (.node .reset)) s =
      .next (((hwReset s).setCur (.node .reset)).completed (plainCompletion 0)) := by
  obtain ⟨r, hp⟩ := Option.isSome_iff_exists.mp hr
  rw [exec_tapSetState_node_eq hc (.inl (pinOf_some_written hp)), setStateWalk, if_pos ⟨rfl, hr⟩, complete]

/-- From the target state, the walk has no step. -/
theorem exec_tapSetState_here {s : State} {n : TapNode} (hc : s.curState = some (.node n))
    (hn : n = .reset → s.alloc.isSome = true ∧ s.pinOf .trst = none) :
    exec (.tapSetState (.node n)) s = .next (s.completed (plainCompletion 0)) := by
  have guard : s.alloc.isSome = true ∨ setStateReadsAlloc (.node n) s = false := by
    by_cases h : n = .reset
    · exact .inl (hn h).1
    · exact .inr (by simp [setStateReadsAlloc, hc, h])
  have soft : ¬ (TapState.node n = .node .reset ∧ (s.pinOf .trst).isSome = true) := by
    rintro ⟨h, hr⟩
    simp [(hn (TapState.node.inj h)).2] at hr
  rw [exec_tapSetState_node_eq hc guard, setStateWalk, if_neg soft, walk_from_node n n s hc, issueTable_self]
  rfl

/-- From `Unknown`, one reset and then the table's transitions from `Reset`, none where that is the target
(41_tap_controller.md R152 c, d). -/
theorem exec_tapSetState_fromUnknown {s : State} (hc : s.curState = some .unknown) (ha : s.alloc.isSome = true)
    (n : TapNode) :
    exec (.tapSetState (.node n)) s =
      .next ((issueTable 7 .reset n (resyncReset s)).completed (plainCompletion 0)) := by
  by_cases hr : n = .reset ∧ (s.pinOf .trst).isSome = true
  · obtain ⟨rfl, ht⟩ := hr
    rw [exec_tapSetState_hwReset hc ht, issueTable_self, resyncReset, if_pos ht]
  · have hn : n = .reset → s.pinOf .trst = none := fun h => by simpa [h] using hr
    rw [exec_tapSetState_walk hc ha hn, walk_from_unknown n s hc]

/-- With the cache and the table written, `TAP_SETSTATE` to a state completes. -/
theorem exec_tapSetState_completes {s : State} (hc : s.curState.isSome = true) (ha : s.alloc.isSome = true)
    (n : TapNode) : ∃ t, exec (.tapSetState (.node n)) s = .next t := by
  obtain ⟨c, hc⟩ := Option.isSome_iff_exists.mp hc
  by_cases hr : n = .reset ∧ (s.pinOf .trst).isSome = true
  · obtain ⟨rfl, ht⟩ := hr
    exact ⟨_, exec_tapSetState_hwReset hc ht⟩
  · cases c with
    | unknown => exact ⟨_, exec_tapSetState_fromUnknown hc ha n⟩
    | node c => exact ⟨_, exec_tapSetState_node hc ha fun h => by simpa [h] using hr⟩

/-- Settles O28: the command writes `CUR_STATE` and gives its result back. -/
theorem tapInitMarksUnknown : Obligations.TapInitMarksUnknown := exec_tapInit

/-- Settles O29: by whether `CUR_STATE` is written. -/
theorem tapGetStateReadsTheCache : Obligations.TapGetStateReadsTheCache :=
  fun _ => ⟨exec_tapGetState_unwritten, fun _ => exec_tapGetState_written⟩

/-- Settles O31: bullet 1 of R151 stands before any read of the table. -/
theorem setStateUnknownOnlyMarks : Obligations.SetStateUnknownOnlyMarks :=
  fun _ _ => exec_tapSetState_unknown

/-- Settles O32: the walk's loop ends before its first iteration, and no table is read. -/
theorem setStateHereIssuesNothing : Obligations.SetStateHereIssuesNothing :=
  fun _ _ => exec_tapSetState_here

end Sys2Proof.Machine
end

section
/-! Proofs about the target under the wiring premises: `TAP_SETSTATE` brings it to its state, and with TCK left high
it misses one pulse of a software reset (41_tap_controller.md R147, R157, R159; 70_reset_and_hazards.md R232). -/

namespace Sys2Proof.Machine

/-- Settles O46: the command completes, a completing one takes the linked target to its state, and the premises
hold again. -/
theorem setStateMovesTheTarget : Obligations.SetStateMovesTheTarget := by
  intro s n w hT hc hr
  have ha : s.alloc.isSome = true := (w.inv.ready w.ready).alloc
  obtain ⟨t, ht⟩ := exec_tapSetState_completes hc ha n
  obtain ⟨k, m, r, v, a⟩ := w.execTapSetState_at hT hr ht
  obtain ⟨linked, cacheTrue⟩ := w.execTapSetState hT hr ht
  obtain ⟨u, rfl, hcur, -⟩ := exec_tapSetState_next ht
  exact ⟨_, ht, hcur, a.phys, linked, cacheTrue⟩

/-- Seven transitions are enough from `Reset` (41_tap_controller.md R155). -/
theorem tableLevels_seven (n : TapNode) : tableLevels 7 .reset n = walkLevels .reset n := by
  cases n <;> rfl

/-- `n` calls of `CLOCK` from TCK low give a linked target `n` times the level of TMS (40_pin_driver.md R117). -/
theorem At.clocks {s : State} {k m : Pin} {r : Option Pin} {ph : TapNode} {v : Bool} (n : Nat)
    (a : At s k m r ph false v true) :
    At (Machine.clocks n s) k m r (runLevels ph (List.replicate n v)) false v true := by
  induction n generalizing s ph with
  | zero => exact a
  | succ n ih => exact ih a.clock

/-- With TCK left high the first of the five pulses of `SW_RESET` makes no rising edge (40_pin_driver.md R117 c). -/
theorem At.swReset_high {s : State} {k m : Pin} {r : Option Pin} {ph : TapNode} {v : Bool}
    (a : At s k m r ph true v true) :
    At (Machine.swReset s) k m r (runLevels ph (List.replicate 4 true)) false true true := by
  have a1 : At (setSignal .tms true s) k m r ph true true true := by
    simpa [heldInReset] using a.setTms true
  exact a1.clock_high.clocks 4

theorem trstReleased_of_unallocated {s : State} (h : s.pinOf .trst = none) : TrstReleased s :=
  fun _ _ hp => nomatch h.symm.trans hp

/-- Settles O52: the reset is a software one whose first pulse is lost, and the walk from `Reset` follows. -/
theorem tckLeftHighShortensTheSoftwareReset : Obligations.TckLeftHighShortensTheSoftwareReset := by
  intro s n w hr hc
  have ha : s.alloc.isSome = true := (w.inv.ready w.ready).alloc
  obtain ⟨k, m, r, v, a⟩ := w.at (trstReleased_of_unallocated hr)
  have reset : At (resyncReset s) k m r (runLevels s.target.phys (List.replicate 4 true)) false true true := by
    rw [resyncReset, hr]
    exact a.swReset_high.setCur _
  obtain ⟨v', b⟩ := reset.issueTable_levels 7 .reset n
  have target : (issueTable 7 .reset n (resyncReset s)).target.phys =
      runLevels s.target.phys (List.replicate 4 true ++ walkLevels .reset n) := by
    rw [b.phys, tableLevels_seven]
    exact List.foldl_append.symm
  exact ⟨_, exec_tapSetState_fromUnknown hc ha n, issueTable_curState 7 .reset n _ rfl (tableReaches_seven n),
    target⟩

end Sys2Proof.Machine
end

section
/-! Proofs about the events and latches of the resets and of one `STEP` (41_tap_controller.md R146 to R148, R151). -/

namespace Sys2Proof.Machine

/-- `HW_RESET` changes the latches of the TMS and TRST pins only, and leaves them high, also where the two signals
share a pin (41_tap_controller.md R146). -/
theorem hwReset_pin (s : State) (q : Pin) :
    (hwReset s).pin q =
      if (s.pinOf .trst = some q ∨ s.pinOf .tms = some q) ∧ (s.pin q).cfg.mode ≠ .input
      then { s.pin q with out := true } else s.pin q := by
  have o := setSignal_onlyLatches .tms true s
  have o' := o.trans (setSignal_onlyLatches .trst false _)
  simp only [hwReset, setSignal_pin, hold_pin, hold_pinOf, o'.pinOf, o.pinOf]
  by_cases hm : (s.pin q).cfg.mode = .input
  · simp [hm]
  · by_cases ht : s.pinOf .trst = some q <;> by_cases hs : s.pinOf .tms = some q <;> simp [ht, hs, hm]

/-- One or more calls of `CLOCK` leave the pins as one does. -/
theorem clocks_pin (n : Nat) (s : State) (q : Pin) : (clocks (n + 1) s).pin q = (clock s).pin q := by
  induction n generalizing s with
  | zero => rfl
  | succ n ih =>
    rw [clocks, ih, clock_pin, clock_pin, (clock_onlyLatches s).pinOf]
    by_cases h : s.pinOf .tck = some q ∧ (s.pin q).cfg.mode ≠ .input
    · simp [h]
    · simp [h]

/-- `SW_RESET` leaves the TCK pin low and the TMS pin high (41_tap_controller.md R147). -/
theorem swReset_pin (s : State) (q : Pin) :
    (swReset s).pin q =
      if s.pinOf .tck = some q ∧ (s.pin q).cfg.mode ≠ .input then { s.pin q with out := false }
      else if s.pinOf .tms = some q ∧ (s.pin q).cfg.mode ≠ .input then { s.pin q with out := true }
      else s.pin q := by
  have o := setSignal_onlyLatches .tms true s
  rw [swReset, softResetClocks, clocks_pin, clock_pin, o.pinOf, o.cfg, setSignal_pin]
  by_cases hs : s.pinOf .tms = some q ∧ (s.pin q).cfg.mode ≠ .input
  · simp [hs]
  · simp [hs]

/-- The events of one `CLOCK` with TCK on an output (40_pin_driver.md R116). -/
theorem clockEvents_of_output {s : State} {k : Pin} (hk : s.pinOf .tck = some k)
    (hm : (s.pin k).cfg.mode ≠ .input) :
    clockEvents s = [driveEvent k true, .hold .dSettle, driveEvent k false] := by
  rw [clockEvents, setEvents_of_output true hk hm, setEvents_of_output false hk hm]
  rfl

theorem mode_ne_input_of_output {c : PinCfg} (h : c.mode = .output) : c.mode ≠ .input := by simp [h]

/-- Settles O33: `HW_RESET`'s events, and its law for the two pins. -/
theorem setStateResetPulsesTrst : Obligations.SetStateResetPulsesTrst := by
  intro s c r hc hr
  refine ⟨_, exec_tapSetState_hwReset hc (by rw [hr]; rfl), rfl, hwReset_events s, fun hm => ?_, fun m hs hm => ?_,
    congrArg (· ++ [_]) (hwReset_onlyLatches s).completions⟩
  · simp [hwReset_pin, hr, hm]
  · simp [hwReset_pin, hs, hm]

/-- Settles O42: the row gives the level and the next state, and the three writes reach output pins. -/
theorem oneStepOfAWalk : Obligations.OneStepOfAWalk := by
  intro s c n b g m k hc hn hm hk hmo hko
  have hstep : tapStep g s = some (issueTransition b n s) := by simp [tapStep, hc, hn]
  refine ⟨_, hstep, rfl, ?_⟩
  rw [issueTransition_events, stepEvents, setEvents_of_output b hm (mode_ne_input_of_output hmo),
    clockEvents_of_output hk (mode_ne_input_of_output hko)]
  rfl

/-- Settles O43: each call of `SET` is one write, and the pins end as the laws of the two resets say. -/
theorem resetSequences : Obligations.ResetSequences := by
  intro s m k hm hmo hk hko hmk
  have hmi := mode_ne_input_of_output hmo
  have hki := mode_ne_input_of_output hko
  refine ⟨⟨?_, ?_, ?_⟩, fun r hr hro hrm hrk => ⟨?_, ?_, ?_, ?_⟩⟩
  · rw [swReset_events, swResetEvents, setEvents_of_output true hm hmi, clockEvents_of_output hk hki,
      ← List.append_assoc]
    rfl
  · simp [swReset_pin, hk, hm, hmi, hmk.symm]
  · simp [swReset_pin, hk, hki]
  · have hri := mode_ne_input_of_output hro
    rw [hwReset_events, hwResetEvents, setEvents_of_output true hm hmi, setEvents_of_output false hr hri,
      setEvents_of_output true hr hri]
    rfl
  · simp [hwReset_pin, hm, hmi]
  · simp [hwReset_pin, hr, mode_ne_input_of_output hro]
  · simp [hwReset_pin, hr, hm, hrk, hmk]

end Sys2Proof.Machine
end

section
/-! Proofs about the walk: its target, its events and what it touches (41_tap_controller.md R142, R151, R152, R154 to
R158). -/

namespace Sys2Proof.Machine

/-! ### Events -/

/-- Settles O34: the walk is the table's transitions, and no list of levels is shorter than the table's. -/
theorem setStateWalksAShortestWay : Obligations.SetStateWalksAShortestWay := by
  intro s c n hc ha hn
  have shortest : ShortestWay c n (walkLevels c n) := by
    refine ⟨runLevels_walkLevels c n, ?_⟩
    rintro levels rfl
    exact walkLevels_length_min levels c
  exact ⟨shortest, _, exec_tapSetState_node hc ha hn, issueTable_curState _ c n s hc (tableReaches_bound c n),
    issueTable_events _ c n s, congrArg (· ++ [_]) (issueTable_onlyLatches walkBound c n s .unknown).completions⟩

/-- Settles O35: the reset's events, and those of the walk from `Reset`, which the reset does not change. -/
theorem setStateFromUnknownResetsFirst : Obligations.SetStateFromUnknownResetsFirst := by
  intro s n hc ha
  have o := resyncReset_onlyLatches s
  have same : stepEvents (resyncReset s) = stepEvents s := funext fun v => stepEvents_congr o v
  refine ⟨_, exec_tapSetState_fromUnknown hc ha n, issueTable_curState 7 .reset n _ rfl (tableReaches_seven n), ?_,
    congrArg (· ++ [_]) ?_⟩
  · rw [completed_events, issueTable_events, resyncReset_events, same, tableLevels_seven]
  · exact (issueTable_onlyLatches 7 .reset n _ .unknown).completions.trans o.completions

/-- Settles O37: what a completing `TAP_SETSTATE` may drive is said once, for its three signals. -/
theorem setStateTouchesOnlyItsThreePins : Obligations.SetStateTouchesOnlyItsThreePins := by
  intro s t g h
  obtain ⟨u, rfl, hcur, d⟩ := exec_tapSetState_next h
  obtain ⟨new, hnew, hp⟩ := d.events
  refine ⟨hcur, d.latches.alloc, d.latches.pinUsage, d.latches.samePort,
    congrArg (· ++ [_]) d.latches.completions, d.latches.cfg,
    fun q h₁ h₂ h₃ => d.pins q (by simpa [tapSignals] using ⟨h₁, h₂, h₃⟩), new, hnew, fun e he => (hp e he).imp_right ?_⟩
  rintro ⟨sig, hsig, p, v, hsp, rfl⟩
  exact ⟨sig, p, v, by simpa [tapSignals] using hsig, hsp, rfl⟩

/-! ### The TMS latch -/

/-- An edge into a stable state is made at the level that holds it (41_tap_controller.md R156). -/
theorem ieeeNext_holds_of_edge {c n : TapNode} {v : Bool} (he : ieeeNext c v = n) (hne : c ≠ n)
    (hs : stableNode n = true) : ieeeNext n v = n := by
  subst he
  revert hne hs
  cases c <;> cases v <;> decide

theorem issueTransition_tms {s : State} {m : Pin} (hm : s.pinOf .tms = some m) (hmode : (s.pin m).cfg.mode ≠ .input)
    (hk : s.pinOf .tck ≠ some m) (v : Bool) (n : TapNode) : ((issueTransition v n s).pin m).out = v := by
  have o := setSignal_onlyLatches .tms v s
  rw [issueTransition, setCur_pin, clock_pin, o.pinOf, if_neg fun h => hk h.1, setSignal_pin, if_pos ⟨hm, hmode⟩]

/-- The transitions of the table into another, stable state leave TMS at the level that holds it. -/
theorem issueTable_tms_holds {s : State} {m : Pin} (n : Nat) {c t : TapNode} (hm : s.pinOf .tms = some m)
    (hmode : (s.pin m).cfg.mode ≠ .input) (hk : s.pinOf .tck ≠ some m) (hr : tableReaches n c t = true)
    (hne : c ≠ t) (hs : stableNode t = true) : ieeeNext t ((issueTable n c t s).pin m).out = t := by
  induction n generalizing c s with
  | zero => exact absurd (of_decide_eq_true hr) hne
  | succ n ih =>
    have hr' : tableReaches n (nextRow c t).2 t = true := by simpa [tableReaches, hne] using hr
    have o := issueTransition_onlyLatches (nextRow c t).1 (nextRow c t).2 s
    rw [issueTable, if_neg hne]
    by_cases last : (nextRow c t).2 = t
    · rw [last, issueTable_self, issueTransition_tms hm hmode hk]
      exact ieeeNext_holds_of_edge ((ieeeNext_nextRow c t).trans last) hne hs
    · exact ih ((o.pinOf _).trans hm) (by rw [o.cfg]; exact hmode) (by rw [o.pinOf]; exact hk) hr' last

/-- Settles O38: the last transition of the walk writes TMS. -/
theorem walkLeavesTmsHoldingTheState : Obligations.WalkLeavesTmsHoldingTheState := by
  intro s c n m hc hne hs hn hm hmo hk
  exact ⟨_, exec_tapSetState_node hc (pinOf_some_written hm) hn,
    issueTable_tms_holds walkBound hm (mode_ne_input_of_output hmo) hk (tableReaches_bound c n) hne hs⟩

/-! ### How many steps -/

/-- Whether an event is a hold. -/
def isHold (e : Event) : Bool := decide (e = .hold .dSettle)

theorem setEvents_countP_isHold (s : State) (g : Signal) (v : Bool) : (setEvents s g v).countP isHold = 0 := by
  rcases setSignal_cases g v s with ⟨-, h, -⟩ | ⟨p, -, -, h, -⟩ <;> rw [h]
  · rfl
  · rfl

/-- One `STEP` holds once, wherever its signals are (41_tap_controller.md R148, 93_implementation_defined.md I13). -/
theorem stepEvents_countP_isHold (s : State) (v : Bool) : (stepEvents s v).countP isHold = 1 := by
  simp [stepEvents, clockEvents, setEvents_countP_isHold, isHold]

theorem steps_countP_isHold (s : State) (levels : List Bool) :
    (levels.map (stepEvents s)).flatten.countP isHold = levels.length := by
  induction levels with
  | nil => rfl
  | cons v vs ih =>
    rw [List.map_cons, List.flatten_cons, List.countP_append, stepEvents_countP_isHold, ih, List.length_cons,
      Nat.add_comm]

/-- The longest walks (41_tap_controller.md R155). -/
theorem walkLevels_length_eight (c n : TapNode) : (walkLevels c n).length ≤ 8 ∧
    ((walkLevels c n).length = 8 ↔ (c = .drCapture ∨ c = .drShift ∨ c = .drPause) ∧ n = .irExit2) := by
  cases c <;> cases n <;> decide

theorem walkLevels_reset_length_seven (n : TapNode) :
    (walkLevels .reset n).length ≤ 7 ∧ ((walkLevels .reset n).length = 7 ↔ n = .irExit2) := by
  cases n <;> decide

/-- The lengths of the 256 walks. -/
def walkLengths : List Nat := nodePairs.map fun (c, n) => (walkLevels c n).length

theorem walkLengths_distribution :
    (List.range 9).map walkLengths.count = [16, 26, 38, 52, 42, 40, 26, 13, 3] := by decide +kernel

theorem countP_nodePairs_length (k : Nat) :
    nodePairs.countP (fun (c, n) => (walkLevels c n).length == k) = walkLengths.count k := by
  rw [walkLengths, List.count, List.countP_map]
  rfl

/-- How many of the 256 pairs have each length (41_tap_controller.md R155). -/
theorem walkLevels_length_distribution :
    (List.range 9).map (fun k => nodePairs.countP fun (c, n) => (walkLevels c n).length == k) =
      [16, 26, 38, 52, 42, 40, 26, 13, 3] :=
  (List.map_congr_left fun k _ => countP_nodePairs_length k).trans walkLengths_distribution

/-- Settles O36: each level of the walk is one `STEP` with one hold; the lengths are those of the 256 walks. -/
theorem walksTakeAtMostEightSteps : Obligations.WalksTakeAtMostEightSteps := by
  refine ⟨fun s c n hc ha hn => ?holds, fun c n => ⟨runLevels_walkLevels c n, ?shortest⟩, walkLevels_length_eight,
    walkLevels_reset_length_seven, walkLevels_length_distribution⟩
  case holds =>
    obtain ⟨-, t, ht, -, hev, -⟩ := setStateWalksAShortestWay s c n hc ha hn
    refine ⟨t, ht, ?_⟩
    rw [hev, List.drop_left]
    exact steps_countP_isHold s (walkLevels c n)
  case shortest =>
    rintro levels rfl
    exact walkLevels_length_min levels c

end Sys2Proof.Machine
end

section
/-! Proofs about the state graph and the transition table (41_tap_controller.md R141 to R145, R159). -/

namespace Sys2Proof.Machine

theorem next_of_ne {c t : TapNode} (h : t ≠ c) : next (.node c) (.node t) = some (nextRow c t) := if_neg h

/-- A row written another way than R143 writes it. -/
theorem next_eq_of_row {c t : TapNode} {row : Bool × TapNode} (hrow : nextRow c t = row) (h : t ≠ c) :
    next (.node c) (.node t) = some row := (next_of_ne h).trans (congrArg some hrow)

theorem next_eq_none_iff (c t : TapState) : next c t = none ↔ (c = t ∨ c = .unknown ∨ t = .unknown) := by
  cases c with
  | unknown => simp [next]
  | node c =>
    cases t with
    | unknown => simp [next]
    | node t => simp [next, eq_comm]

/-- Settles O44: the row's level takes the graph's edge, which is never a loop. -/
theorem nextFollowsTheGraph : Obligations.NextFollowsTheGraph := by
  refine fun c t => ⟨fun m n h => ?_, next_eq_none_iff c t⟩
  cases c with
  | unknown => cases h
  | node c =>
    cases t with
    | unknown => cases h
    | node t =>
      by_cases hne : t = c
      · rw [(next_eq_none_iff _ _).mpr (.inl (congrArg _ hne.symm))] at h
        cases h
      · obtain ⟨rfl, rfl⟩ := Prod.mk.inj (Option.some.inj ((next_of_ne hne).symm.trans h))
        exact ⟨c, rfl, ieeeNext_nextRow c t, nextRow_ne c t (Ne.symm hne)⟩

/-- The code range of the row of `DR_Scan`, as its list of targets (41_tap_controller.md R142, R143). -/
theorem inCodeRange_dr (t : TapNode) : inCodeRange .drCapture .drUpdate t = true ↔
    t ∈ [TapNode.drCapture, .drShift, .drExit1, .drPause, .drExit2, .drUpdate] := by
  cases t <;> decide

theorem inCodeRange_ir (t : TapNode) : inCodeRange .irCapture .irUpdate t = true ↔
    t ∈ [TapNode.irCapture, .irShift, .irExit1, .irPause, .irExit2, .irUpdate] := by
  cases t <;> decide

/-- A condition of three alternatives is a list of three targets. -/
theorem mem_three_iff {t a b c : TapNode} : (t = a ∨ t = b ∨ t = c) ↔ t ∈ [a, b, c] := by simp

/-- Settles O39: state by state, the row of the table with its condition as a list. -/
theorem nextIsTheTwentySixRowTable : Obligations.NextIsTheTwentySixRowTable := by
  intro t
  exact ⟨next_of_ne, next_of_ne, next_eq_of_row (if_congr (inCodeRange_dr t) rfl rfl), next_of_ne, next_of_ne,
    next_eq_of_row (if_congr mem_three_iff rfl rfl), next_of_ne, next_eq_of_row (if_congr mem_three_iff rfl rfl),
    next_of_ne, next_eq_of_row (if_congr (inCodeRange_ir t) rfl rfl), next_of_ne, next_of_ne,
    next_eq_of_row (if_congr mem_three_iff rfl rfl), next_of_ne, next_eq_of_row (if_congr mem_three_iff rfl rfl),
    next_of_ne⟩

/-- Settles O40: by the groups of states; one that needs five pulses shows that fewer do not suffice. -/
theorem fivePulsesDrainEveryState : Obligations.FivePulsesDrainEveryState := by
  refine ⟨ieeeNext_five, ?groups, fun k hk => ⟨.drShift, ?fewer⟩⟩
  case groups =>
    rintro x (_ | _ | _ | _ | _ | _ | k)
    case succ.succ.succ.succ.succ.succ => exact nofun
    all_goals revert x; decide
  case fewer => revert k; decide

end Sys2Proof.Machine
end

section
/-! Proofs about waiting, failures and faults (60_exceptions.md R200, R201, R203, R207). -/

namespace Sys2Proof.Machine

/-! ### A step with no command waiting -/

theorem step_eq_betweenCommands {s : State} (hp : s.port = []) : step s = .next (betweenCommands s) := by
  simp [step, hp]

/-- Settles O9: the step is `betweenCommands`, which keeps `CLKEN` and lets the target only react to wires it has
seen. -/
theorem waitingChangesNothingAtTheSequencer : Obligations.WaitingChangesNothingAtTheSequencer :=
  fun s hp => ⟨betweenCommands s, step_eq_betweenCommands hp, hp, rfl, rfl, rfl, rfl, rfl, rfl, rfl,
    betweenCommands_clken s, betweenCommands_phys_driven⟩

/-! ### The two faults -/

theorem exec_drvCfg_unwritten {s : State} (h : s.alloc = none) (g : Signal) (f : BitVec 8) :
    exec (.drvCfg g f) s = .fault .uninitDriver := by
  simp [exec, execDrvCfg, State.driverReady, h]

/-- The test of `CUR_STATE` stands first, so the target does not matter (60_exceptions.md R204). -/
theorem exec_tapSetState_uninitTap {s : State} (h : s.curState = none) (g : TapState) :
    exec (.tapSetState g) s = .fault .uninitTap := by
  simp [exec, execTapSetState, h]

/-- `TAP_SETSTATE` reads the table for the hardware reset and for a walk of one step or more
(41_tap_controller.md R151). -/
theorem setStateReadsAlloc_of_reset_or_ne {s : State} {c : TapState} {n : TapNode} (hc : s.curState = some c)
    (hn : n = .reset ∨ c ≠ .node n) : setStateReadsAlloc (.node n) s = true := by
  simpa [setStateReadsAlloc, hc] using hn

theorem exec_tapSetState_uninitDriver {s : State} {c : TapState} {n : TapNode} (ha : s.alloc = none)
    (hc : s.curState = some c) (hn : n = .reset ∨ c ≠ .node n) :
    exec (.tapSetState (.node n)) s = .fault .uninitDriver := by
  simp [exec, execTapSetState, hc, ha, setStateReadsAlloc_of_reset_or_ne hc hn]

/-- Settles O30: by the register that is unwritten. -/
theorem unwrittenReadsFault : Obligations.UnwrittenReadsFault := by
  refine ⟨rfl, rfl, fun s => ⟨fun ha g f v => ?driver, fun hc => ?tap, fun ha c n => ?table⟩⟩
  case driver =>
    exact ⟨exec_drvCfg_unwritten ha g f, exec_drvSet_unwritten ha g v, exec_drvGet_unwritten ha g,
      exec_drvIsAlloc_unwritten ha g⟩
  case tap => exact ⟨exec_tapGetState_unwritten hc, exec_tapSetState_uninitTap hc⟩
  case table => exact exec_tapSetState_uninitDriver ha

/-! ### The two failures of `DRV_CFG` -/

theorem cfgCore_conflict {s : State} {g : Signal} {p : Pin} (hu : s.used p = true) (ho : s.owner p ≠ some g) :
    cfgCore g (BitVec.ofNat 8 p.val) s = ⟨s, some .pinConflict⟩ := by
  rw [cfgCore_pin, if_pos ⟨hu, ho⟩]

/-- A command other than `DRV_CFG` ends with a result that has no failure reason. -/
theorem exec_next_plain {i : Instr} {s t : State} (h : exec i s = .next t) (hi : ∀ g f, i ≠ .drvCfg g f) :
    ∃ u w, t = State.completed u (plainCompletion w) := by
  cases i with
  | drvInit => exact ⟨_, _, exec_drvInit_next h⟩
  | drvCfg g f => exact absurd rfl (hi g f)
  | drvSet g v => exact ⟨_, _, (exec_drvSet_next h).2⟩
  | drvGet g =>
    obtain ⟨-, ⟨-, ht⟩ | ⟨p, -, ht⟩⟩ := exec_drvGet_next h
    · exact ⟨_, _, ht⟩
    · exact ⟨_, _, ht⟩
  | drvIsAlloc g => exact ⟨_, _, (exec_drvIsAlloc_next h).2⟩
  | tapInit => exact ⟨_, _, exec_tapInit_next h⟩
  | tapSetState g =>
    obtain ⟨u, ht, -⟩ := exec_tapSetState_next h
    exact ⟨u, _, ht⟩
  | tapGetState =>
    obtain ⟨c, -, ht⟩ := exec_tapGetState_next h
    exact ⟨_, _, ht⟩

/-- Settles O22: both tests of `CFG_CORE` answer the same state, and every other command ends with a plain
result. -/
theorem cfgFailuresChangeNothing : Obligations.CfgFailuresChangeNothing := by
  refine ⟨rfl, rfl, fun s g f hr hf hf' => ?range, fun s g p hr hu ho => ?conflict,
    fun i s t c h hc hfail => ?onlyCfg⟩
  case range => exact exec_drvCfg_of_cfgCore hr (cfgCore_range g f s hf hf')
  case conflict => exact exec_drvCfg_of_cfgCore hr (cfgCore_conflict hu ho)
  case onlyCfg =>
    by_contra hi
    obtain ⟨u, w, rfl⟩ := exec_next_plain h fun g f hg => hi ⟨g, f, hg⟩
    have hlast : [plainCompletion w] = [c] := List.append_inj_right' hc rfl
    obtain rfl := List.singleton_inj.mp hlast
    cases hfail

/-! ### Every command completes once both `Init` commands have run -/

theorem exec_completes {s : State} (h : Initialised s) (i : Instr) : ∃ t, exec i s = .next t := by
  obtain ⟨hc, ha, hu⟩ := h
  obtain ⟨c, hcur⟩ := Option.isSome_iff_exists.mp hc
  cases i with
  | drvInit => exact ⟨_, exec_drvInit s⟩
  | drvCfg g f => exact ⟨_, exec_drvCfg_ready (driverReady_iff.mpr ⟨ha, hu⟩) g f⟩
  | drvSet g v => exact ⟨_, exec_drvSet_written ha g v⟩
  | drvGet g =>
    cases hp : s.pinOf g with
    | none => exact ⟨_, exec_drvGet_unallocated ha hp⟩
    | some p => exact ⟨_, exec_drvGet_allocated hp⟩
  | drvIsAlloc g => exact ⟨_, exec_drvIsAlloc_written ha g⟩
  | tapInit => exact ⟨_, exec_tapInit s⟩
  | tapSetState g =>
    cases g with
    | unknown => exact ⟨_, exec_tapSetState_unknown hcur⟩
    | node n => exact exec_tapSetState_completes hc ha n
  | tapGetState => exact ⟨_, exec_tapGetState_written hcur⟩

theorem Initialised.completed {s : State} (h : Initialised s) (c : Completion) : Initialised (s.completed c) := h

theorem Initialised.readInput {s : State} (h : Initialised s) : Initialised (readInput s) := h

theorem Initialised.setCur {s : State} (h : Initialised s) (x : TapState) : Initialised (s.setCur x) :=
  ⟨rfl, h.2⟩

theorem Initialised.clearAlloc_initPort {s : State} (h : Initialised s) : Initialised (clearAlloc (initPort s)) := by
  obtain ⟨-, -, hcur, halloc, husage, -⟩ := clearAlloc_initPort_fields s
  exact ⟨(congrArg Option.isSome hcur).trans h.1, congrArg Option.isSome halloc, congrArg Option.isSome husage⟩

theorem Initialised.of_onlyDriver {s t : State} (h : Initialised s) (o : OnlyDriver s t) : Initialised t := by
  obtain ⟨hc, ha, hu⟩ := h
  exact ⟨(congrArg _ o.curState).trans hc, o.allocWritten.trans ha, o.usageWritten.trans hu⟩

theorem Initialised.of_onlyLatches {s t : State} (h : Initialised s) (o : OnlyLatches s t) : Initialised t := by
  obtain ⟨hc, ha, hu⟩ := h
  exact ⟨(congrArg _ o.curState).trans hc, (congrArg _ o.alloc).trans ha, (congrArg _ o.pinUsage).trans hu⟩

/-- No command takes a written register back to unwritten. -/
theorem Initialised.exec {i : Instr} {s t : State} (hi : Initialised s) (h : exec i s = .next t) :
    Initialised t := by
  cases i with
  | drvInit =>
    rw [exec_drvInit_next h]
    exact (hi.clearAlloc_initPort.of_onlyDriver (defaultAlloc_onlyDriver _)).completed _
  | drvCfg g f =>
    obtain ⟨-, rfl⟩ := exec_drvCfg_next h
    exact (hi.of_onlyDriver (cfgCore_onlyDriver g f s)).completed _
  | drvSet g v =>
    obtain ⟨-, rfl⟩ := exec_drvSet_next h
    exact (hi.of_onlyLatches (setSignal_onlyLatches g v s)).completed _
  | drvGet g =>
    obtain ⟨-, ⟨-, rfl⟩ | ⟨p, -, rfl⟩⟩ := exec_drvGet_next h
    · exact hi.completed _
    · exact hi.readInput.completed _
  | drvIsAlloc g =>
    obtain ⟨-, rfl⟩ := exec_drvIsAlloc_next h
    exact hi.completed _
  | tapInit =>
    obtain rfl := exec_tapInit_next h
    exact (hi.setCur _).completed _
  | tapSetState g =>
    obtain ⟨u, rfl, -, d⟩ := exec_tapSetState_next h
    exact ((hi.setCur g).of_onlyLatches d.latches).completed _
  | tapGetState =>
    obtain ⟨c, -, rfl⟩ := exec_tapGetState_next h
    exact hi.completed _

/-- Settles O58: with the three registers written every command completes, and none of them goes unwritten. -/
theorem initialisedNeverFaults : Obligations.InitialisedNeverFaults := by
  intro i s hi
  obtain ⟨t, ht⟩ := exec_completes hi i
  exact ⟨t, ht, hi.exec ht⟩

end Sys2Proof.Machine
end

section
/-! Proofs about power-on, and about what a caller's use of TRST and TCK does to the target that the cache does not
record (10_state.md R35; 40_pin_driver.md R111, R117; 70_reset_and_hazards.md R221, R231 to R233). -/

namespace Sys2Proof.Machine

/-- Settles O10: these fields of the reset state are literal values and no free ones. -/
theorem powerOnIsUnwritten : Obligations.PowerOnIsUnwritten := ⟨rfl, rfl, rfl, rfl, rfl, rfl⟩

/-! ### TRST driven low (70_reset_and_hazards.md R231) -/

/-- The target reacts to the pins a configuration leaves. -/
theorem pinConfig_target (p : Pin) (c : PinCfg) (s : State) :
    (pinConfig p c s).target = s.target.observe s.params (pinConfig p c s).pins := rfl

/-- A pin made an output starts low, which holds a target whose TRST is wired to it (40_pin_driver.md R105). -/
theorem configFor_phys_reset {s : State} {g : Signal} {p : Pin} (ho : outputCapable g = true)
    (hh : s.params.targetHasTrst = true) (hw : s.params.wiring.trst = some p) :
    (configFor g p s).target.phys = .reset := by
  have hpin : (configFor g p s).pin p = ⟨outputCfg, false⟩ := by simp [configFor_pin, ho]
  have hwire : terminalWire (configFor g p s).pins (some p) = .driven false := by
    rw [terminalWire_output (by rw [hpin]; rfl), hpin]
  rw [configFor, if_pos ho] at hwire ⊢
  rw [configOut, pinConfig_target, writeSetReset_params]
  exact observe_held _ hh fun k => by rw [hw]; exact congrArg (levelSeen · k) hwire

/-- An allocation ends with the configuration of the new pin. -/
theorem allocatePin_phys_reset {s : State} {g : Signal} {p : Pin} (ho : outputCapable g = true)
    (hh : s.params.targetHasTrst = true) (hw : s.params.wiring.trst = some p) :
    (allocatePin g p s).target.phys = .reset := by
  have hP := (deallocPin_onlyDriver g s).params
  exact configFor_phys_reset (s := deallocPin g s) ho (by rw [hP]; exact hh) (by rw [hP]; exact hw)

/-- Settles O48: `CFG_CORE` allocates the pin, which leaves it a low output. -/
theorem allocatingTrstResetsTheTarget : Obligations.AllocatingTrstResetsTheTarget := by
  intro s p hr ho hp hh hw
  exact ⟨_, exec_drvCfg_of_cfgCore hr (cfgCore_otherPin ho hp), allocatePin_phys_reset rfl hh hw,
    (allocatePin_onlyDriver .trst p s).curState⟩

/-- With the invariants, an allocated signal tells that the driver is ready. -/
theorem Inv.ready_of_pinOf {s : State} {g : Signal} {p : Pin} (h : Inv s) (hp : s.pinOf g = some p) :
    ReadyInv s := by
  have ha := pinOf_some_written hp
  exact h.ready (driverReady_iff.mpr ⟨ha, h.1.symm.trans ha⟩)

/-- With the invariants, a signal other than `g` is not on the pin of `g` (10_state.md R26). -/
theorem Inv.pinOf_ne {s : State} {g g' : Signal} {p : Pin} (h : Inv s) (hp : s.pinOf g = some p) (hne : g' ≠ g) :
    s.pinOf g' ≠ some p :=
  fun hp' => hne ((h.ready_of_pinOf hp).apart p g' g hp' hp)

/-- Settles O49: the write holds the target, and a walk touches the pins of TMS and TCK only, which are other
pins. -/
theorem trstLowHoldsTheTarget : Obligations.TrstLowHoldsTheTarget := by
  refine ⟨fun s r hd => ?set, fun s c n r hd hi low phys hc hn => ?walk⟩
  case set =>
    have held := hd.setLow
    exact ⟨_, exec_drvSet_written (pinOf_some_written hd.allocated) .trst false, held.phys, held.low,
      (setSignal_onlyLatches .trst false s).curState⟩
  case walk =>
    have held : HeldAt (issueTable walkBound c n s) r :=
      HeldAt.issueTable walkBound c n ⟨hd, low, phys⟩ (hi.pinOf_ne hd.allocated (by decide))
        (hi.pinOf_ne hd.allocated (by decide))
    exact ⟨_, exec_tapSetState_node hc (pinOf_some_written hd.allocated) fun h => absurd h hn,
      issueTable_curState walkBound c n s hc (tableReaches_bound c n), held.phys, held.low⟩

/-! ### The caller's own TCK (70_reset_and_hazards.md R232) -/

/-- Settles O50: the caller's write is a rising edge at a linked target that TRST does not hold. -/
theorem callerClockMovesOnlyTheTarget : Obligations.CallerClockMovesOnlyTheTarget := by
  intro s m w hrel hm
  obtain ⟨k, m', r, v, h, a, high, -⟩ := w.at
  obtain rfl : m = m' := Option.some.inj (hm.symm.trans a.link.tms)
  obtain rfl := high hrel
  refine ⟨_, exec_drvSet_written (pinOf_some_written hm) .tck true, ?_, (setSignal_onlyLatches .tck true s).curState⟩
  simpa [heldInReset, a.tms] using (a.setTck true).phys

/-- With TCK left high a transition sets TMS, moves no target, and leaves TCK low (40_pin_driver.md R117 c). -/
theorem At.issueTransition_high {s : State} {k m : Pin} {r : Option Pin} {ph : TapNode} {v : Bool}
    (a : At s k m r ph true v true) (b : Bool) (n : TapNode) :
    At (Machine.issueTransition b n s) k m r ph false b true := by
  have tms : At (setSignal .tms b s) k m r ph true b true := by simpa [heldInReset] using a.setTms b
  exact tms.clock_high.setCur _

/-- With TCK left high the transitions of the table take a linked target along their levels but the first. -/
theorem At.issueTable_high {s : State} {k m : Pin} {r : Option Pin} {ph : TapNode} {v : Bool} (n : Nat)
    (c t : TapNode) (a : At s k m r ph true v true) :
    (Machine.issueTable n c t s).target.phys = runLevels ph (tableLevels n c t).tail := by
  cases n with
  | zero => exact a.phys
  | succ n =>
    by_cases hc : c = t
    · simpa [hc, tableLevels, runLevels] using a.phys
    · simp only [Machine.issueTable, tableLevels, hc, if_false, List.tail_cons]
      obtain ⟨v', b⟩ := (a.issueTransition_high (nextRow c t).1 (nextRow c t).2).issueTable_levels n
        (nextRow c t).2 t
      exact b.phys

/-- Settles O51: the walk is the table's transitions, and the first of them makes no rising edge. -/
theorem tckLeftHighLosesAPulse : Obligations.TckLeftHighLosesAPulse := by
  intro s c n w hrel hc hn
  obtain ⟨k, m, r, v, a⟩ := w.at hrel
  exact ⟨_, exec_tapSetState_node hc (pinOf_some_written a.link.tms) hn,
    issueTable_curState walkBound c n s hc (tableReaches_bound c n), a.issueTable_high walkBound c n⟩

/-! ### TCK unallocated (70_reset_and_hazards.md R233) -/

/-- With TCK unallocated a `STEP` writes TMS and holds (93_implementation_defined.md I13). -/
theorem stepEvents_of_tck_unallocated {s : State} (hk : s.pinOf .tck = none) (v : Bool) :
    stepEvents s v = setEvents s .tms v ++ [.hold .dSettle] := by
  have undriven : NotDriven s .tck := .inl hk
  rw [stepEvents, clockEvents, undriven.setEvents, undriven.setEvents]
  rfl

/-- Settles O45: the walk is the table's transitions, none of which writes TCK or moves a still target. -/
theorem walkWithoutTckLeavesAStillTarget : Obligations.WalkWithoutTckLeavesAStillTarget := by
  intro s c n hc ha hn hk
  refine ⟨_, exec_tapSetState_node hc ha hn, issueTable_curState walkBound c n s hc (tableReaches_bound c n), ?events,
    fun v still => ?phys⟩
  case events =>
    rw [← funext (stepEvents_of_tck_unallocated hk)]
    exact issueTable_events walkBound c n s
  case phys =>
    have start : StillAt s v s.target.phys := ⟨still, hk, rfl⟩
    exact (start.issueTable walkBound c n).phys

end Sys2Proof.Machine
end
